-- ==== Sys2Proof/Word.lean ====
section
/-!
DEFINITION. The quantities of VARINT-CORE (spec `00_scope.md` R5, R9). All are unsigned; bit 0 is the least
significant bit. The widths are the source's constants, so they stand in the types.
-/
namespace Sys2Proof

/-- A Value: "an unsigned integer in [0, 2^64 − 1]" (`00_scope.md` R5, `VW` = 64). -/
abbrev Value := BitVec 64

/-- A byte: 7 payload bits and bit 7 (`00_scope.md` R5). -/
abbrev Byte := BitVec 8

/-- The payload of an encoded byte, its 7 low-order bits (`00_scope.md` R5, `PW` = 7). -/
abbrev Payload := BitVec 7

/-- The byte index inside the value being decoded, 4 bits (`00_scope.md` R6, `10_state.md` R23). -/
abbrev ByteIndex := BitVec 4

end Sys2Proof
end

