-- ==== Sys2Proof/Config.lean ====
section
/-!
DEFINITION. The parameters of the hardware: those the source fixes (`00_scope.md` R5) and those the spec decides
(`00_scope.md` R6). The spec leaves no value of a register or result open, so there is no free value here.
-/
namespace Sys2Proof.Config

/-- `VW`: width of a Value (`00_scope.md` R5). -/
abbrev valueWidth : Nat := 64

/-- `PW`: payload bits per encoded byte (`00_scope.md` R5). -/
abbrev payloadWidth : Nat := 7

/-- `CONT`: the continuation bit, bit 7 of a byte (`00_scope.md` R5). -/
abbrev cont : Byte := 0x80

/-- `MAXB`: largest number of bytes of an encoded form (`00_scope.md` R5). -/
abbrev maxBytes : Nat := 10

/-- `MINB`: smallest number of bytes of an encoded form (`00_scope.md` R5). -/
abbrev minBytes : Nat := 1

/-- The value at which `D.i` saturates (`00_scope.md` R6, `10_state.md` R23). -/
abbrev indexMax : Nat := 10

/-- `NINST`: number of each unit; the default of `00_scope.md` R6 (log entry 4). -/
abbrev instances : Nat := 1

end Sys2Proof.Config
end

