-- ==== Sys2Proof/Syntax.lean ====
section
/-!
DEFINITION. What the host can give the hardware: the instructions (one constructor per row of
`spec/opcode_table.json`), the words on the ports that stand for them (`30_encoding.md` R80, R88, R89), the input
lines of one clock edge (`20_memory.md` R54 to R56, R60) and the lines of a host script (`30_encoding.md` R92).
-/
namespace Sys2Proof

/-- The instructions: one constructor per row of the opcode table. -/
inductive Instr where
  /-- `ENC1`, encode-one: the operand `enc_value` (`40_encode.md` R110). -/
  | enc1 (v : Value)
  /-- `DEC1`, decode-one: a start request, no operand bits (`41_decode.md` R130). -/
  | dec1
  /-- `BYTE.CONT`: the token `01ppppppp`, a byte with continuation bit 1 (`30_encoding.md` R88). -/
  | byteCont (p : Payload)
  /-- `BYTE.TERM`: the token `00ppppppp`, a terminating byte (`30_encoding.md` R88). -/
  | byteTerm (p : Payload)
  /-- `EOB`: the token `1xxxxxxxx`, end of buffer; the 8 data bits are ignored (`30_encoding.md` R88). -/
  | eob (x : Byte)
  /-- `ENCM`, encode-many: a list of Values (`42_batch.md` R160). -/
  | encm (values : List Value)
  /-- `DECM`, decode-many: a buffer (`42_batch.md` R163). -/
  | decm (buffer : List Byte)
  /-- `DECN`, decode-fixed-count: a count and a buffer (`42_batch.md` R166). -/
  | decn (count : Nat) (buffer : List Byte)
  /-- `ENC.CLR`: the level line `enc_clr` at 1 (`43_system.md` R180). -/
  | encClr
  /-- `DEC.CLR`: the level line `dec_clr` at 1 (`43_system.md` R181). -/
  | decClr
deriving DecidableEq, Repr

/-- The places where the host selects an operation (`30_encoding.md` R89). -/
inductive Port where
  /-- `enc_valid`, `enc_value[63:0]` (`20_memory.md` R54). -/
  | encOperand
  /-- `dec_start` (`20_memory.md` R56). -/
  | decStart
  /-- `in_valid`, the 9 bits `in_eob`, `in_data[7:0]` (`20_memory.md` R56, `30_encoding.md` R88). -/
  | token
  /-- the level line `enc_clr` (`20_memory.md` R60). -/
  | encClr
  /-- the level line `dec_clr` (`20_memory.md` R60). -/
  | decClr
deriving DecidableEq, Repr

/-- How many data bits a port carries for one handshake (`20_memory.md` R54, R56, R60). -/
@[reducible] def Port.width : Port → Nat
  | .encOperand => 64
  | .decStart => 0
  | .token => 9
  | .encClr => 1
  | .decClr => 1

/-- An instruction as the hardware meets it: a port and the bits on its data lines, bit 0 least significant. -/
structure PortWord where
  port : Port
  bits : Nat
deriving DecidableEq, Repr

/-- A token of DEC's token port: `Byte(b)` or `EOB` (`00_scope.md` R13). -/
inductive Token where
  | byte (b : Byte)
  | eob
deriving DecidableEq, Repr

/-- Every input line of the hardware at one rising edge of `clk` (`20_memory.md` R54, R55, R56, R60). The defaults
are an edge at which the host asserts nothing. -/
structure InLines where
  rst : Bool := false
  encClr : Bool := false
  decClr : Bool := false
  encValid : Bool := false
  encValue : Value := 0
  outReady : Bool := false
  decStart : Bool := false
  inValid : Bool := false
  inEob : Bool := false
  inData : Byte := 0
deriving DecidableEq, Repr

/-- One line of a host script (`30_encoding.md` R92). A line with a handshake is presented until the handshake
completes. -/
inductive Line where
  /-- `ENC1 v`, `DEC1`, `TOK b`, `TOK EOB`, `ENC.CLR`, `DEC.CLR`: a word on a port. -/
  | word (w : PortWord)
  /-- `TAKE`: the host takes one emitted byte. -/
  | take
  /-- `ENCM [v0, v1, ...]`, a pseudo-operation. -/
  | encm (values : List Value)
  /-- `DECM B`, a pseudo-operation. -/
  | decm (buffer : List Byte)
  /-- `DECN n B`, a pseudo-operation. -/
  | decn (count : Nat) (buffer : List Byte)
  /-- One clock edge with every input line as given (`20_memory.md` R59, R60). It passes whether or not a
  handshake completes at it, so it also says how a host withdraws what it presents. -/
  | edge (lines : InLines)
deriving DecidableEq, Repr

end Sys2Proof
end

