-- ==== Sys2Proof/WellFormed.lean ====
section
/-!
DEFINITION. Which words can stand on a port. Every instruction is well formed as it is typed: "Every one of the 256
byte values is a legal token and every 64-bit pattern a legal operand" (`30_encoding.md` R90). What can be ill formed
is a word: it may have bits the port has no lines for, or be a clear line that is not asserted (`30_encoding.md` R89).
-/
namespace Sys2Proof

/-- The word's bits fit on the port's data lines (`20_memory.md` R54, R56, R60). -/
def PortWord.fits (w : PortWord) : Bool := decide (w.bits < 2 ^ w.port.width)

/-- A level line stands for its operation only when it is 1 (`30_encoding.md` R89); the other ports have a
valid-type line of their own. -/
def PortWord.asserted (w : PortWord) : Bool :=
  match w.port with
  | .encClr | .decClr => w.bits == 1
  | .encOperand | .decStart | .token => true

/-- A word that stands for an operation. -/
def PortWord.wf (w : PortWord) : Bool := w.fits && w.asserted

/-- A line the host can present. -/
def Line.wf : Line → Bool
  | .word w => w.wf
  | .take | .encm _ | .decm _ | .decn _ _ | .edge _ => true

/-- A host script (`70_reset_and_hazards.md` R241), every line of which the host can present. -/
def scriptWf (script : List Line) : Bool := script.all Line.wf

end Sys2Proof
end

