-- ==== Sys2Proof/Decode.lean ====
section
/-!
DEFINITION. From the word on a port to the instruction it stands for, and back (`30_encoding.md` R80, R88, R89). The
port selects the operation; only the token port has opcode bits. The three composites ENCM, DECM, DECN have no encoding
("none, a pseudo-operation", `42_batch.md` R160, R163, R166): a script names them.
-/
namespace Sys2Proof

/-- Why a word stands for no operation. -/
inductive DecodeError where
  /-- the word has bits above the port's data lines: no host can present it -/
  | tooWide (p : Port)
  /-- a clear line at 0: no operation at that edge -/
  | lineLow (p : Port)
deriving DecidableEq, Repr

/-- The token classes of `30_encoding.md` R88 on the 9 bits `in_eob`, `in_data[7:0]`. -/
def decodeToken (bits : BitVec 9) : Instr :=
  if bits.getLsbD 8 then .eob (bits.extractLsb' 0 8)
  else if bits.getLsbD 7 then .byteCont (bits.extractLsb' 0 7)
  else .byteTerm (bits.extractLsb' 0 7)

/-- The operation that one completed handshake on port `p` with data bits `bits` is (`30_encoding.md` R89), for bits
that fit the port. -/
def decodeOn (p : Port) (bits : Nat) : Except DecodeError Instr :=
  match p with
  | .encOperand => .ok (.enc1 (BitVec.ofNat 64 bits))
  | .decStart => .ok .dec1
  | .token => .ok (decodeToken (BitVec.ofNat 9 bits))
  | .encClr => if bits = 1 then .ok .encClr else .error (.lineLow .encClr)
  | .decClr => if bits = 1 then .ok .decClr else .error (.lineLow .decClr)

/-- The decoder: total, refusing by name. -/
def decode (w : PortWord) : Except DecodeError Instr :=
  if w.fits then decodeOn w.port w.bits else .error (.tooWide w.port)

/-- The 9 bits of a token (`30_encoding.md` R88): `in_eob` above `in_data[7:0]`. -/
def tokenBits (eob : Bool) (data : Byte) : BitVec 9 := BitVec.ofBool eob ++ data

/-- A byte from its continuation bit and its payload (`30_encoding.md` R81). -/
def byteOf (c : Bool) (p : Payload) : Byte := BitVec.ofBool c ++ p

/-- The encoder: the word of an instruction that the hardware meets on a port, none for the host's composites. -/
def encode : Instr → Option PortWord
  | .enc1 v => some ⟨.encOperand, v.toNat⟩
  | .dec1 => some ⟨.decStart, 0⟩
  | .byteCont p => some ⟨.token, (tokenBits false (byteOf true p)).toNat⟩
  | .byteTerm p => some ⟨.token, (tokenBits false (byteOf false p)).toNat⟩
  | .eob x => some ⟨.token, (tokenBits true x).toNat⟩
  | .encm _ => none
  | .decm _ => none
  | .decn _ _ => none
  | .encClr => some ⟨.encClr, 1⟩
  | .decClr => some ⟨.decClr, 1⟩

/-- The word of a token (`20_memory.md` R52): `Byte(b)`, or `EOB` with its ignored data bits 0 (written `100` in
`95_test_vectors.md` part 3). -/
def Token.word : Token → PortWord
  | .byte b => ⟨.token, (tokenBits false b).toNat⟩
  | .eob => ⟨.token, (tokenBits true 0).toNat⟩

/-- The token an instruction presents, where it is one. -/
def Instr.token? : Instr → Option Token
  | .byteCont p => some (.byte (byteOf true p))
  | .byteTerm p => some (.byte (byteOf false p))
  | .eob _ => some .eob
  | .enc1 _ | .dec1 | .encm _ | .decm _ | .decn _ _ | .encClr | .decClr => none

/-- A buffer as DEC meets it: its bytes in index order, then `EOB` (`20_memory.md` R52). -/
def bufferTokens (b : List Byte) : List Token := b.map Token.byte ++ [Token.eob]

/-- The tokens an instruction has for DEC: its own, or the tokens of its buffer (`20_memory.md` R52). -/
def Instr.tokens : Instr → List Token
  | .decm b => bufferTokens b
  | .decn _ b => bufferTokens b
  | .byteCont p => [.byte (byteOf true p)]
  | .byteTerm p => [.byte (byteOf false p)]
  | .eob _ => [.eob]
  | .enc1 _ | .dec1 | .encm _ | .encClr | .decClr => []

/-- The lines an instruction asserts (`30_encoding.md` R89). -/
def Instr.lines : Instr → InLines
  | .enc1 v => { encValid := true, encValue := v }
  | .dec1 => { decStart := true }
  | .byteCont p => { inValid := true, inData := byteOf true p }
  | .byteTerm p => { inValid := true, inData := byteOf false p }
  | .eob x => { inValid := true, inEob := true, inData := x }
  | .encm _ | .decm _ | .decn _ _ => {}
  | .encClr => { encClr := true }
  | .decClr => { decClr := true }

/-- The lines of a token on the token port, the ignored data bits of `EOB` being 0. -/
def Token.lines : Token → InLines
  | .byte b => { inValid := true, inData := b }
  | .eob => { inValid := true, inEob := true }

/-- What the host does with the next line of its script. -/
inductive Fetched where
  /-- an instruction of the table -/
  | instr (i : Instr)
  /-- `TAKE` -/
  | take
  /-- one clock edge with these lines -/
  | edge (l : InLines)
  /-- an edge at which the clear line is 0: no event (`20_memory.md` R59) -/
  | idle
  /-- a word no host can present -/
  | unpresentable (p : Port)
deriving DecidableEq, Repr

/-- Read one line of a script (`30_encoding.md` R92). -/
def Line.fetch : Line → Fetched
  | .word w =>
    match decode w with
    | .ok i => .instr i
    | .error (.tooWide p) => .unpresentable p
    | .error (.lineLow _) => .idle
  | .take => .take
  | .encm vs => .instr (.encm vs)
  | .decm b => .instr (.decm b)
  | .decn n b => .instr (.decn n b)
  | .edge l => .edge l

/-- The port of a row of the opcode table, from the number of bits the table gives the row, in whole bytes: 64 is the
operand of ENC1, 9 (16 in whole bytes) a token, 1 (8) a clear line, none, or no bit set in one byte, the start port. The
table gives ENC.CLR and DEC.CLR the same one bit and gives DEC1 and the composites no bits, so the bits alone do not name
the row: this reads ENC.CLR and DEC1 (log entry 6). -/
def tablePort (nbits w : Nat) : Port :=
  if nbits = 0 ∨ (nbits ≤ 8 ∧ w = 0) then .decStart
  else if nbits ≤ 8 then .encClr
  else if nbits ≤ 16 then .token
  else .encOperand

/-- A table row's bits as the word on its port. -/
def tableWord (nbits w : Nat) : PortWord := ⟨tablePort nbits w, w⟩

/-- The instruction the decoder reads from a table row's bits. -/
def decodeTableWord (nbits w : Nat) : Option Instr :=
  match decode (tableWord nbits w) with
  | .ok i => some i
  | .error _ => none

end Sys2Proof
end

