-- ==== Sys2Proof/Machine/State.lean ====
section
/-!
DEFINITION. The whole state (`10_state.md` R20): the two registers of ENC, the five of DEC, and what the run keeps of the
host, which is an agent of the spec (`00_scope.md` R8): its script, the bytes it has taken, the batch procedures it is
carrying out, one on each unit (`42_batch.md` R161, R164, R167), and who of the script and the procedures goes on next. The
hardware has no memory, no program counter and no register file (R20, R26, R50). With the state, the reasons a step can
stop and the state after reset (R34, R220).
-/
namespace Sys2Proof.Machine

/-- `E.st` (`10_state.md` R20). -/
inductive EncSt where
  | idle
  | emit
deriving DecidableEq, Repr

/-- The 1-bit code of `E.st`: 0 = IDLE, 1 = EMIT (`10_state.md` R20). -/
def EncSt.code : EncSt → BitVec 1
  | .idle => 0
  | .emit => 1

/-- `D.st` (`10_state.md` R20). -/
inductive DecSt where
  | idle
  | run
  | done
  | fault
deriving DecidableEq, Repr

/-- The 2-bit code of `D.st`: 0 = IDLE, 1 = RUN, 2 = DONE, 3 = FAULT (`10_state.md` R20). -/
def DecSt.code : DecSt → BitVec 2
  | .idle => 0
  | .run => 1
  | .done => 2
  | .fault => 3

/-- The hardware's two faults (`60_exceptions.md` R190), "two constructors and no third"
(`93_implementation_defined.md` U8). Both are next states of the model, entered by `Dec.raise`. -/
inductive FaultCode where
  /-- the buffer ended before a byte with bit 7 clear was met -/
  | truncated
  /-- the terminated run has more than 10 bytes or value bits at positions 64 and up -/
  | range
deriving DecidableEq, Repr

/-- The 2-bit code of `D.cause`: 0 None, 1 Truncated, 2 Range; code 3 is never produced (`10_state.md` R28). -/
def causeBits : Option FaultCode → BitVec 2
  | none => 0
  | some .truncated => 1
  | some .range => 2

/-- The registers of the ENC unit (`10_state.md` R20, R21). -/
structure Enc where
  /-- `E.st` -/
  st : EncSt
  /-- `E.rem`, "the remaining value" -/
  rem : Value
deriving DecidableEq, Repr

/-- The registers of the DEC unit (`10_state.md` R20, R22, R23, R27, R28). -/
structure Dec where
  /-- `D.st` -/
  st : DecSt
  /-- `D.acc`, "the accumulator" -/
  acc : Value
  /-- `D.i`, index of the next byte of the current value, saturating at 10 -/
  i : ByteIndex
  /-- `D.ovf`, the run accepted so far is no Value's -/
  ovf : Bool
  /-- `D.cause`, the code of the latched fault; `none` is code 0, None -/
  cause : Option FaultCode
deriving DecidableEq, Repr

/-- The result of a `DEC1` (`00_scope.md` R14): `OK(value, n)` or `Fault(code)`. -/
inductive DecResult where
  | ok (value : Value) (n : Nat)
  | fault (code : FaultCode)
deriving DecidableEq, Repr

/-- The result of DECM or DECN (`42_batch.md` R163, R166, `60_exceptions.md` R201). -/
inductive Result where
  /-- `OK(L)` of DECM -/
  | decm (values : List Value)
  /-- `OK(L, rest)` of DECN -/
  | decn (values : List Value) (rest : List Byte)
  /-- `Fault(code)` of DECM or DECN, with no partial list -/
  | fault (code : FaultCode)
deriving DecidableEq, Repr

/-- The host's procedure for ENCM in progress (`42_batch.md` R161). -/
structure EncJob where
  /-- the Values whose `ENC1` has not been accepted yet -/
  left : List Value
  /-- the bytes taken so far -/
  taken : List Byte
  /-- the procedure's own `ENC1` is in progress: its byte with `out_last = 1` has not been taken -/
  busy : Bool
deriving DecidableEq, Repr

/-- The host's procedure for DECM or DECN in progress (`42_batch.md` R164, R167). -/
structure DecJob where
  /-- `n` of DECN; none for DECM -/
  count : Option Nat
  /-- the buffer `B`, whose length `m` the host knows -/
  buf : List Byte
  /-- how many tokens of `B` (its bytes, then `EOB`) DEC has accepted -/
  accepted : Nat
  /-- `consumed` -/
  consumed : Nat
  /-- the list `L` -/
  vals : List Value
  /-- the procedure's own `DEC1` is in progress: its result has not been read -/
  busy : Bool
deriving DecidableEq, Repr

/-- Who goes on at a step: "any interleaving of their steps is allowed" (`00_scope.md` R8). -/
inductive Turn where
  /-- the host's script performs its next line -/
  | line
  /-- the procedure of ENCM goes on -/
  | enc
  /-- the procedure of DECM or DECN goes on -/
  | dec
  /-- nobody: the host pauses (`70_reset_and_hazards.md` R240: "the host paces them") -/
  | wait
deriving DecidableEq, Repr

/-- The whole state. -/
structure State where
  /-- the ENC unit -/
  enc : Enc
  /-- the DEC unit -/
  dec : Dec
  /-- the host's script, next line first (`70_reset_and_hazards.md` R241) -/
  script : List Line
  /-- `OUT`, the bytes ENC has emitted, oldest first (`00_scope.md` R13, `10_state.md` R33) -/
  out : List Byte
  /-- the procedure of ENCM the host is carrying out with ENC -/
  encProc : Option EncJob
  /-- the procedure of DECM or DECN the host is carrying out with DEC -/
  decProc : Option DecJob
  /-- the buffer the last ENCM gave, none from its start to its end -/
  encResult : Option (List Byte)
  /-- the result of the last DECM or DECN, none from its start to its end -/
  decResult : Option Result
  /-- a batch operation ended in a fault, and the host has not yet performed the `DEC.CLR` it owes "before using DEC
  again" (`42_batch.md` R164) -/
  clrDue : Bool
  /-- who goes on at the next steps, a parameter of the step relation (`10_state.md` R33: "the interleaving of the steps
  of different units"); when it is used up, `State.defaultTurn` says -/
  turns : List Turn
deriving DecidableEq, Repr

/-- A machine that stops with a fault. The spec has no such event: a fault of DEC is a state (`60_exceptions.md` R194),
and a handshake that cannot complete waits (`30_encoding.md` R92). So nobody raises one, and the type is empty: safe. -/
inductive Fault where
deriving DecidableEq, Repr

/-- A step the model gives no meaning. -/
inductive Refusal where
  /-- An instruction without a meaning; no arm of `exec` answers it any more. Safe. -/
  | notModelled (mnemonic : String)
  /-- Raised by the host's step on a script line whose word has bits above the port's data lines: no host can present it
  (`20_memory.md` R54, R56, R60). Safe: the hardware never meets it. -/
  | unpresentable (port : Port)
deriving DecidableEq, Repr

/-- ENC's part of the reset state (`10_state.md` R34). -/
def Enc.reset : Enc where
  st := .idle
  rem := 0

/-- DEC's part of the reset state (`10_state.md` R34). -/
def Dec.reset : Dec where
  st := .idle
  acc := 0
  i := 0
  ovf := false
  cause := none

/-- The machine right after reset (`10_state.md` R34, `70_reset_and_hazards.md` R220): every register at the value of
R20's table, `OUT` empty, and no line placed by a host yet (log entries 1, 2, 3, 17). -/
def State.reset : State where
  enc := Enc.reset
  dec := Dec.reset
  script := []
  out := []
  encProc := none
  decProc := none
  encResult := none
  decResult := none
  clrDue := false
  turns := []

end Sys2Proof.Machine
end

