-- ==== Sys2Proof/Machine/Operands.lean ====
section
/-!
DEFINITION. The operand forms: the two fields of an encoded byte (`30_encoding.md` R81), the groups of a Value
(`20_memory.md` R61), the 7-bit fields DEC writes into its accumulator (`41_decode.md` R134), the tokens of a script
(`00_scope.md` R13) and the byte accesses of a buffer (`00_scope.md` R13, `20_memory.md` R72).
-/
namespace Sys2Proof.Machine

/-- Field `P` of a byte, bits 6:0 (`30_encoding.md` R81). -/
def payload (b : Byte) : Payload := b.extractLsb' 0 7

/-- Field `C` of a byte, the continuation bit, bit 7 (`30_encoding.md` R81). -/
def contBit (b : Byte) : Bool := b.getLsbD 7

/-- Payload bits 6:1, the ones that byte index 9 has no value bits for (`41_decode.md` R134, R136). -/
def highPayload (p : Payload) : BitVec 6 := p.extractLsb' 1 6

/-- `v[6:0]`, "the low 7 bits of the remaining value" (`40_encode.md` R110). -/
def lowGroup (v : Value) : Payload := v.extractLsb' 0 7

/-- `v >> 7`, logical (`40_encode.md` R115). -/
def shiftGroup (v : Value) : Value := v >>> Config.payloadWidth

/-- `v[7k+6 : 7k]`, with the bits above 63 read as 0 (`30_encoding.md` R82). -/
def group (v : Value) (k : Nat) : Payload := v.extractLsb' (Config.payloadWidth * k) 7

/-- The accumulator with payload `p` ored in for a byte of index at most 8 (`41_decode.md` R134). -/
def orGroup (acc : Value) (p : Payload) (i : ByteIndex) : Value :=
  acc ||| (p.setWidth 64 <<< (Config.payloadWidth * i.toNat))

/-- The accumulator with `p[0]` ored in as bit 63, for the byte of index 9 (`41_decode.md` R134). -/
def orTopBit (acc : Value) (p : Payload) : Value :=
  acc ||| ((p.extractLsb' 0 1).setWidth 64 <<< 63)

/-- `min(D.i + 1, 10)` (`10_state.md` R23). -/
def nextIndex (i : ByteIndex) : ByteIndex := BitVec.ofNat 4 (min (i.toNat + 1) Config.indexMax)

/-- The token that DEC's token port carries (`20_memory.md` R56): with `in_eob = 1` the data bits are ignored. -/
def tokenOf (eob : Bool) (data : Byte) : Token := if eob then .eob else .byte data

/-- `Take()` of `00_scope.md` R13: the head of a token sequence and the sequence without it, "defined only when `IN` is
not empty". -/
def take? : List Token → Option (Token × List Token)
  | [] => none
  | t :: ts => some (t, ts)

/-- The tokens a script line has for DEC. -/
def lineTokens (l : Line) : List Token :=
  match l.fetch with
  | .instr i => i.tokens
  | .edge l => if l.inValid then [tokenOf l.inEob l.inData] else []
  | .take | .idle | .unpresentable _ => []

/-- The tokens of a procedure's buffer that DEC has not accepted yet (`20_memory.md` R52). -/
def DecJob.input (j : DecJob) : List Token := (bufferTokens j.buf).drop j.accepted

/-- `IN` of `00_scope.md` R13: the tokens the host has for DEC's token port, in order, "those not yet accepted": those of
the procedure in progress, then those of the script's lines. A buffer counts with its bytes and its `EOB` (R147: "the
host's token sequence"); what its operation does not ask for stays with the host and is dropped when the operation ends
(log entry 20). -/
def State.inTokens (s : State) : List Token :=
  (match s.decProc with | some j => j.input | none => []) ++ s.script.flatMap lineTokens

/-- `MemRead(a, 1)`: byte `a` of a buffer, none past its end (`00_scope.md` R13; width 1 only, `20_memory.md` R58). -/
def memRead (b : List Byte) (a : Nat) : Option Byte := b[a]?

/-- `MemWrite(a, 1, v)`: set byte `a` of an output sequence; the next index appends (`00_scope.md` R13,
`20_memory.md` R72). -/
def memWrite (b : List Byte) (a : Nat) (v : Byte) : List Byte :=
  if a = b.length then b ++ [v] else b.set a v

/-- The view of the rest after `OK(value, n)`: base `p + n`, length `m − n` (`20_memory.md` R73). -/
def restView (base len n : Nat) : Nat × Nat := (base + n, len - n)

end Sys2Proof.Machine
end

