-- ==== Sys2Proof/Machine/Flags.lean ====
section
/-!
DEFINITION. The flags: the port lines that are functions of the registers (`10_state.md` R29, `20_memory.md` R54 to
R57), the overflow flag `D.ovf` (`10_state.md` R27, `41_decode.md` R134), and all output lines together. A line that
carries no meaning in a state is `none` there (`93_implementation_defined.md` U5, U6).
-/
namespace Sys2Proof.Machine

/-- `enc_ready = (E.st = IDLE)` (`20_memory.md` R54). -/
def Enc.ready (e : Enc) : Bool := e.st == .idle

/-- `out_valid = (E.st = EMIT)` (`20_memory.md` R55). -/
def Enc.outValid (e : Enc) : Bool := e.st == .emit

/-- `c` of ENC.EMIT: `(E.rem >> 7) ≠ 0`, more bytes follow for this value (`40_encode.md` R114). -/
def Enc.more (e : Enc) : Bool := shiftGroup e.rem != 0

/-- The byte ENC presents: bit 7 is `more`, bits 6:0 are `E.rem[6:0]` (`20_memory.md` R55). -/
def Enc.outByte (e : Enc) : Byte := byteOf e.more (lowGroup e.rem)

/-- `out_last = ((E.rem >> 7) = 0)` (`20_memory.md` R55). -/
def Enc.outLast (e : Enc) : Bool := !e.more

/-- `dec_ready = (D.st = IDLE or D.st = DONE)` (`20_memory.md` R56). -/
def Dec.ready (d : Dec) : Bool := d.st == .idle || d.st == .done

/-- `in_ready = (D.st = RUN)` (`20_memory.md` R56). -/
def Dec.inReady (d : Dec) : Bool := d.st == .run

/-- `D.ovf` after a byte with payload `p` (`10_state.md` R27, `41_decode.md` R134): kept up to index 8, set at index 9
by any of payload bits 6:1, set from index 10 on. -/
def nextOvf (d : Dec) (p : Payload) : Bool :=
  if d.i ≤ 8 then d.ovf
  else if d.i = 9 then (highPayload p != 0) || d.ovf
  else true

/-- `D.acc` after a byte with payload `p` (`41_decode.md` R134). -/
def nextAcc (d : Dec) (p : Payload) : Value :=
  if d.i ≤ 8 then orGroup d.acc p d.i
  else if d.i = 9 then orTopBit d.acc p
  else d.acc

/-- The result of the last `DEC1` as the host reads it from the result lines (`20_memory.md` R57, `00_scope.md` R14):
`OK` in DONE, the latched fault in FAULT, nothing while `DEC1` is in progress or none was done. -/
def Dec.result (d : Dec) : Option DecResult :=
  match d.st with
  | .idle | .run => none
  | .done => some (.ok d.acc d.i.toNat)
  | .fault => d.cause.map DecResult.fault

/-- Every output line (`20_memory.md` R54 to R57, `10_state.md` R29, R30). -/
structure OutLines where
  encReady : Bool
  outValid : Bool
  outData : Option Byte
  outLast : Option Bool
  decReady : Bool
  inReady : Bool
  decDone : Bool
  decValue : Option Value
  decNbytes : Option ByteIndex
  decFault : Bool
  decCause : BitVec 2
deriving DecidableEq, Repr

/-- The output lines as functions of the registers. `out_data` and `out_last` mean something only while `out_valid = 1`
(R55), `dec_value` and `dec_nbytes` only while `dec_done = 1` (R57). -/
def State.outLines (s : State) : OutLines where
  encReady := s.enc.ready
  outValid := s.enc.outValid
  outData := if s.enc.outValid then some s.enc.outByte else none
  outLast := if s.enc.outValid then some s.enc.outLast else none
  decReady := s.dec.ready
  inReady := s.dec.inReady
  decDone := s.dec.st == .done
  decValue := if s.dec.st == .done then some s.dec.acc else none
  decNbytes := if s.dec.st == .done then some s.dec.i else none
  decFault := s.dec.st == .fault
  decCause := causeBits s.dec.cause

end Sys2Proof.Machine
end

