-- ==== Sys2Proof/Machine/Codec.lean ====
section
/-!
DEFINITION. The operation level (`00_scope.md` R7), normative from the source: `enc1` (`40_encode.md` R110), `dec1`
(`41_decode.md` R130), `enc_many`, `dec_many`, `dec_n` (`42_batch.md` R160, R163, R166), with the wire format's own words
for length, form and canonical run (`30_encoding.md` R82, R83, R84, R86). That the units and the host's procedures reach
these results is stated in the obligations.
-/
namespace Sys2Proof.Machine

/-- The repeat loop of `enc1` (`40_encode.md` R110) on the remaining value. The first argument bounds the iterations: a
Value is used up after `MAXB` = 10 (`00_scope.md` R5). -/
def enc1Loop : Nat → Value → List Byte
  | 0, _ => []
  | fuel + 1, rem =>
    if shiftGroup rem = 0 then [byteOf false (lowGroup rem)]
    else byteOf true (lowGroup rem) :: enc1Loop fuel (shiftGroup rem)

/-- `enc1(v)` (`40_encode.md` R110). -/
def enc1 (v : Value) : List Byte := enc1Loop Config.maxBytes v

/-- `bit_length(v)`: 0 for 0, else the position of the highest set bit plus one (`00_scope.md` R10). -/
def bitLength (v : Nat) : Nat := if v = 0 then 0 else v.log2 + 1

/-- `ceil(a/b)` for positive `b` (`00_scope.md` R10). -/
def ceilDiv (a b : Nat) : Nat := (a + b - 1) / b

/-- `max(1, ceil(bit_length(v) / 7))` (`30_encoding.md` R83, `40_encode.md` R111). -/
def formLength (v : Value) : Nat :=
  max Config.minBytes (ceilDiv (bitLength v.toNat) Config.payloadWidth)

/-- Format FORM (`30_encoding.md` R82): byte `k` has payload `v[7k+6 : 7k]` and continuation bit 1 on every byte but the
last. -/
def form (v : Value) : List Byte :=
  (List.range (formLength v)).map fun k => byteOf (decide (k + 1 < formLength v)) (group v k)

/-- The index of the terminating byte, the first with bit 7 clear (`41_decode.md` R130). -/
def termIndex : List Byte → Option Nat
  | [] => none
  | b :: bs => if contBit b then (termIndex bs).map (· + 1) else some 0

/-- The sum of `S[j].P << (7·j)` over a byte sequence whose first byte has index `j` (`30_encoding.md` R84). -/
def runSum : Nat → List Byte → Nat
  | _, [] => 0
  | j, b :: bs => (payload b).toNat <<< (Config.payloadWidth * j) + runSum (j + 1) bs

/-- The value a run of bytes stands for (`30_encoding.md` R84), a natural number of any size. -/
def runValue (run : List Byte) : Nat := runSum 0 run

/-- Payload bits 6:1 of byte `a` of a buffer (`41_decode.md` R130), 0 where there is no such byte. -/
def highBitsAt (b : List Byte) (a : Nat) : BitVec 6 :=
  match memRead b a with
  | some x => highPayload (payload x)
  | none => 0

/-- The Range condition on a buffer whose terminating byte has index `k` (`41_decode.md` R136). -/
def outOfRange (b : List Byte) (k : Nat) : Bool :=
  decide (Config.maxBytes ≤ k) || (k == 9 && highBitsAt b 9 != 0)

/-- `dec1(B)` (`41_decode.md` R130). The rest on `OK(value, n)` is `B[n ..]` (R131). -/
def dec1 (b : List Byte) : DecResult :=
  match termIndex b with
  | none => .fault .truncated
  | some k =>
    if outOfRange b k then .fault .range
    else .ok (BitVec.ofNat 64 (runValue (b.take (k + 1)))) (k + 1)

/-- A terminated run: its last byte, and no other, has bit 7 clear (`00_scope.md` glossary, "run"). -/
def isRun (run : List Byte) : Bool := termIndex run == some (run.length - 1)

/-- A canonical run (`30_encoding.md` R86): at most 10 bytes; a last byte other than `0x00` unless it is the only byte;
a 10th byte `0x01`. -/
def canonical (run : List Byte) : Bool :=
  isRun run && decide (run.length ≤ Config.maxBytes)
    && (run.length == 1 || memRead run (run.length - 1) != some 0)
    && (run.length != 10 || memRead run 9 == some 1)

/-- `enc_many(L)` (`42_batch.md` R160). -/
def encMany : List Value → List Byte
  | [] => []
  | v :: vs => enc1 v ++ encMany vs

/-- The loop of `dec_many` (`42_batch.md` R163). The first argument bounds the iterations: each `dec1` that succeeds
consumes at least one byte, so the buffer's length is enough. -/
def decManyLoop : Nat → List Byte → List Value → Result
  | _, [], vals => .decm vals
  | 0, _ :: _, vals => .decm vals
  | fuel + 1, b :: bs, vals =>
    match dec1 (b :: bs) with
    | .fault c => .fault c
    | .ok v n => decManyLoop fuel ((b :: bs).drop n) (vals ++ [v])

/-- `dec_many(B)` (`42_batch.md` R163). -/
def decMany (b : List Byte) : Result := decManyLoop b.length b []

/-- The loop of `dec_n` (`42_batch.md` R166). -/
def decNLoop : Nat → List Byte → List Value → Result
  | 0, b, vals => .decn vals b
  | n + 1, b, vals =>
    match dec1 b with
    | .fault c => .fault c
    | .ok v k => decNLoop n (b.drop k) (vals ++ [v])

/-- `dec_n(B, n)` (`42_batch.md` R166). -/
def decN (b : List Byte) (n : Nat) : Result := decNLoop n b []

end Sys2Proof.Machine
end

