-- ==== Sys2Proof/Machine/Ops.lean ====
section
/-!
DEFINITION. The steps of the two units, each once, and taking a fault as one shared operation (`60_exceptions.md` R194).
Each writes from the state before the step (`00_scope.md` R12). Which step an event takes is in the instructions'
meanings and, for a whole clock edge, in `Machine/System.lean`.
-/
namespace Sys2Proof.Machine

/-- ENC.ACCEPT with operand `v` (`40_encode.md` R113). -/
def Enc.accept (_e : Enc) (v : Value) : Enc := { st := .emit, rem := v }

/-- The registers after ENC.EMIT (`40_encode.md` R114); the byte it emits is `Enc.outByte`. -/
def Enc.emitStep (e : Enc) : Enc :=
  { st := if e.more then .emit else .idle, rem := shiftGroup e.rem }

/-- ENC.CLR (`43_system.md` R180). -/
def Enc.clear (_e : Enc) : Enc := { st := .idle, rem := 0 }

/-- `raise code` (`60_exceptions.md` R194): the code is recorded and the fault state entered; nothing else is saved. -/
def Dec.raise (d : Dec) (code : FaultCode) : Dec := { d with st := .fault, cause := some code }

/-- DEC.START (`41_decode.md` R133); `D.cause` is not written. -/
def Dec.start (d : Dec) : Dec := { d with st := .run, acc := 0, i := 0, ovf := false }

/-- The data registers after DEC.BYTE with payload `p` (`41_decode.md` R134). -/
def Dec.absorb (d : Dec) (p : Payload) : Dec :=
  { d with acc := nextAcc d p, ovf := nextOvf d p, i := nextIndex d.i }

/-- DEC.BYTE with byte `b` (`41_decode.md` R134). -/
def Dec.byteStep (d : Dec) (b : Byte) : Dec :=
  let d' := d.absorb (payload b)
  if contBit b then { d' with st := .run }
  else if d'.ovf then d'.raise .range
  else { d' with st := .done }

/-- DEC.EOB (`41_decode.md` R135). -/
def Dec.eobStep (d : Dec) : Dec := d.raise .truncated

/-- The step of DEC that accepts a token (`30_encoding.md` R88). -/
def Dec.tokenStep (d : Dec) : Token → Dec
  | .byte b => d.byteStep b
  | .eob => d.eobStep

/-- DEC.CLR, the return from a fault (`43_system.md` R181, `60_exceptions.md` R197). -/
def Dec.clear (_d : Dec) : Dec := { st := .idle, acc := 0, i := 0, ovf := false, cause := none }

/-- `Put(b)` (`00_scope.md` R13): the byte goes to the next index of `OUT`. -/
def State.put (s : State) (b : Byte) : State := { s with out := memWrite s.out s.out.length b }

/-- ENC accepts an operand. -/
def State.encAccept (s : State) (v : Value) : State := { s with enc := s.enc.accept v }

/-- The host takes the byte ENC presents: ENC.EMIT (`40_encode.md` R114). -/
def State.encEmit (s : State) : State := { s.put s.enc.outByte with enc := s.enc.emitStep }

/-- The procedure on ENC after a clear of ENC (`43_system.md` R180). The clear "abandons the `ENC1` in progress", and the
ENCM with it if that `ENC1` is its own (log entry 19); "in IDLE it changes nothing observable", so an ENCM between two Values
goes on. -/
def afterEncClr (p : Option EncJob) : Option EncJob := p.filter fun j => !j.busy

/-- ENC is cleared. What is abandoned has no result (`43_system.md` R180, `93_implementation_defined.md` U7). -/
def State.encClear (s : State) : State := { s with enc := s.enc.clear, encProc := afterEncClr s.encProc }

/-- DEC accepts a start. -/
def State.decStart (s : State) : State := { s with dec := s.dec.start }

/-- DEC accepts a token. -/
def State.decToken (s : State) (t : Token) : State := { s with dec := s.dec.tokenStep t }

/-- The procedure on DEC after a clear of DEC (`43_system.md` R181). The clear abandons the `DEC1` in progress or discards
its result, and the DECM or DECN with it if that `DEC1` is its own; between two `DEC1` the procedure goes on (log
entry 19). -/
def afterDecClr (p : Option DecJob) : Option DecJob := p.filter fun j => !j.busy

/-- DEC is cleared; with that the host has done the clear it may owe (`42_batch.md` R164). What is abandoned has no result
(`43_system.md` R181, `93_implementation_defined.md` U7). -/
def State.decClear (s : State) : State :=
  { s with dec := s.dec.clear, decProc := afterDecClr s.decProc, clrDue := false }

/-- A handshake: it completes with effect `f` when the unit's ready line is 1, and otherwise nothing changes: "the unit
does not accept the event ... and its state does not change" (`10_state.md` R26). -/
def State.handshake (s : State) (ready : Bool) (f : State → State) : Host.Outcome State Fault Refusal :=
  .next (if ready then f s else s)

/-- Whether the event of an instruction completes in a state: the ready line of its port (`10_state.md` R29); a clear
always does (`43_system.md` R180, R181); a composite starts when the host is carrying out no other on its unit
(`60_exceptions.md` R207: "One unit carries out one operation at a time"). -/
def State.completes (s : State) : Instr → Bool
  | .enc1 _ => s.enc.ready
  | .dec1 => s.dec.ready
  | .byteCont _ | .byteTerm _ | .eob _ => s.dec.inReady
  | .encm _ => s.encProc.isNone
  | .decm _ | .decn _ _ => s.decProc.isNone
  | .encClr | .decClr => true

/-- The host owes a `DEC.CLR` before this instruction, which would use DEC again after a faulted batch
(`42_batch.md` R164; log entry 3). -/
def State.owesClear (s : State) : Instr → Bool
  | .dec1 | .decm _ | .decn _ _ => s.clrDue
  | .enc1 _ | .byteCont _ | .byteTerm _ | .eob _ | .encm _ | .encClr | .decClr => false

end Sys2Proof.Machine
end

