-- ==== Sys2Proof/Machine/Decoder.lean ====
section
/-!
DEFINITION. The meanings of DEC1 and of the three token classes (`41_decode.md`, `30_encoding.md` R88).
-/
namespace Sys2Proof.Machine

/-- `DEC1`: DEC.START when `dec_ready = 1` (`41_decode.md` R133). -/
def execDec1 (s : State) : Host.Outcome State Fault Refusal :=
  s.handshake s.dec.ready fun s => s.decStart

/-- A token presented at DEC's token port: accepted when `in_ready = 1` (`20_memory.md` R56). -/
def presentToken (t : Token) (s : State) : Host.Outcome State Fault Refusal :=
  s.handshake s.dec.inReady fun s => s.decToken t

/-- `BYTE.CONT p`: DEC.BYTE with continuation bit 1 (`41_decode.md` R134). -/
def execByteCont (p : Payload) (s : State) : Host.Outcome State Fault Refusal :=
  presentToken (.byte (byteOf true p)) s

/-- `BYTE.TERM p`: DEC.BYTE with continuation bit 0; DONE, or FAULT with cause Range (`41_decode.md` R134, R136). -/
def execByteTerm (p : Payload) (s : State) : Host.Outcome State Fault Refusal :=
  presentToken (.byte (byteOf false p)) s

/-- `EOB`: DEC.EOB, fault Truncated; the data bits are ignored (`41_decode.md` R132, R135). -/
def execEob (x : Byte) (s : State) : Host.Outcome State Fault Refusal :=
  presentToken (tokenOf true x) s

end Sys2Proof.Machine
end

