-- ==== Sys2Proof/Machine/Encoder.lean ====
section
/-!
DEFINITION. The meaning of ENC1 and the host line that takes its bytes (`40_encode.md`).
-/
namespace Sys2Proof.Machine

/-- `ENC1 v`: ENC.ACCEPT when `enc_ready = 1` (`40_encode.md` R113). Its bytes follow by ENC.EMIT, one for each byte the
host takes (R114, R118). -/
def execEnc1 (v : Value) (s : State) : Host.Outcome State Fault Refusal :=
  s.handshake s.enc.ready fun s => s.encAccept v

/-- The host line `TAKE`: ENC.EMIT when `out_valid = 1` (`40_encode.md` R114, `30_encoding.md` R92). -/
def takeByte (s : State) : Host.Outcome State Fault Refusal :=
  s.handshake s.enc.outValid fun s => s.encEmit

end Sys2Proof.Machine
end

