-- ==== Sys2Proof/Machine/Batch.lean ====
section
/-!
DEFINITION. The meanings of ENCM, DECM and DECN. They are "carried out by the host with ENC1 and DEC1; no unit implements
them" (`92_eei_decisions.md` D16): the instruction starts the host's procedure (`42_batch.md` R161, R164, R167), and each
further step of it is one line of its expansion, or the host's reading of the result lines. The two units have a procedure
each, and steps of anything else may come between two steps of a procedure (`00_scope.md` R8, `20_memory.md` R64).
-/
namespace Sys2Proof.Machine

/-- The host starts a procedure on ENC. -/
def State.encBegin (s : State) (j : EncJob) : State := { s with encProc := some j, encResult := none }

/-- The host starts a procedure on DEC. -/
def State.decBegin (s : State) (j : DecJob) : State := { s with decProc := some j, decResult := none }

/-- The procedure on ENC ends with its buffer. -/
def State.encFinish (s : State) (bytes : List Byte) : State := { s with encProc := none, encResult := some bytes }

/-- The procedure on DEC ends with its result. -/
def State.decFinish (s : State) (r : Result) : State := { s with decProc := none, decResult := some r }

/-- The procedure of ENCM before its first `ENC1` (`42_batch.md` R161). -/
def EncJob.first (values : List Value) : EncJob := { left := values, taken := [], busy := false }

/-- The procedure of DECM or DECN before its first `DEC1`: `consumed` 0, `L` empty (`42_batch.md` R164, R167). -/
def DecJob.first (count : Option Nat) (buffer : List Byte) : DecJob :=
  { count := count, buf := buffer, accepted := 0, consumed := 0, vals := [], busy := false }

/-- `ENCM L` (`42_batch.md` R160, R161). -/
def execEncm (values : List Value) (s : State) : Host.Outcome State Fault Refusal :=
  s.handshake s.encProc.isNone fun s => s.encBegin (EncJob.first values)

/-- `DECM B` (`42_batch.md` R163, R164). -/
def execDecm (buffer : List Byte) (s : State) : Host.Outcome State Fault Refusal :=
  s.handshake s.decProc.isNone fun s => s.decBegin (DecJob.first none buffer)

/-- `DECN n B` (`42_batch.md` R166, R167). -/
def execDecn (count : Nat) (buffer : List Byte) (s : State) : Host.Outcome State Fault Refusal :=
  s.handshake s.decProc.isNone fun s => s.decBegin (DecJob.first (some count) buffer)

/-- Whether the procedure of ENCM can go on: the handshake of its next line can complete (`30_encoding.md` R92), or no
line is left. -/
def EncJob.canMove (j : EncJob) (e : Enc) : Bool :=
  if j.busy then e.outValid
  else
    match j.left with
    | [] => true
    | _ :: _ => e.ready

/-- One step of the procedure of ENCM (`42_batch.md` R161): `ENC1` of the next Value, or the next byte taken until one
is taken with `out_last = 1`; after the last Value the bytes taken are the result. -/
def stepEncJob (j : EncJob) (s : State) : State :=
  if j.canMove s.enc then
    if j.busy then
      { s.encEmit with encProc := some { j with taken := j.taken ++ [s.enc.outByte], busy := !s.enc.outLast } }
    else
      match j.left with
      | [] => s.encFinish j.taken
      | v :: vs => { s.encAccept v with encProc := some { j with left := vs, busy := true } }
  else s

/-- The loop condition: `consumed < m` for DECM (`42_batch.md` R164), fewer than `n` values collected for DECN (R167). -/
def DecJob.wantsMore (j : DecJob) : Bool :=
  match j.count with
  | none => decide (j.consumed < j.buf.length)
  | some n => decide (j.vals.length < n)

/-- What the host presents when `in_ready = 1`: `Take()` of the buffer's tokens, that is "the next byte of B not yet
accepted, or EOB if all m bytes have been accepted" (`42_batch.md` R164). -/
def DecJob.nextToken (j : DecJob) : Token :=
  match take? j.input with
  | some (t, _) => t
  | none => .eob

/-- The tokens accepted after the one the host presents; nothing follows `EOB`. -/
def DecJob.nextAccepted (j : DecJob) : Nat := min (j.accepted + 1) (bufferTokens j.buf).length

/-- The result when the loop ends: `OK(L)`, for DECN with the rest `B[consumed..]` (`42_batch.md` R164, R167). -/
def DecJob.outcome (j : DecJob) : Result :=
  match j.count with
  | none => .decm j.vals
  | some _ => .decn j.vals (j.buf.drop (restView 0 j.buf.length j.consumed).1)

/-- The procedure after `dec_done = 1`: the value appended, `dec_nbytes` added to `consumed` (`42_batch.md` R164). -/
def DecJob.collect (j : DecJob) (v : Value) (n : Nat) : DecJob :=
  { j with vals := j.vals ++ [v], consumed := j.consumed + n, busy := false }

/-- Whether the procedure of DECM or DECN can go on: a result can be read, or the handshake of its next line can complete
(`30_encoding.md` R92), or the loop is over. -/
def DecJob.canMove (j : DecJob) (d : Dec) : Bool :=
  if j.busy then d.result.isSome || d.inReady
  else !j.wantsMore || d.ready

/-- One step of the procedure of DECM or DECN (`42_batch.md` R164, R167): `DEC1` while the loop condition holds; a token
whenever `in_ready = 1`; the result collected on `dec_done`; on `dec_fault` the whole operation ends in that fault, with
no partial list and a `DEC.CLR` owed before DEC is used again. -/
def stepDecJob (j : DecJob) (s : State) : State :=
  if j.canMove s.dec then
    if j.busy then
      match s.dec.result with
      | some (.ok v n) => { s with decProc := some (j.collect v n) }
      | some (.fault c) => { s.decFinish (.fault c) with clrDue := true }
      | none => { s.decToken j.nextToken with decProc := some { j with accepted := j.nextAccepted } }
    else if j.wantsMore then { s.decStart with decProc := some { j with busy := true } }
    else s.decFinish j.outcome
  else s

/-- The procedure on ENC, if there is one, can go on. -/
def State.encMoves (s : State) : Bool :=
  match s.encProc with
  | some j => j.canMove s.enc
  | none => false

/-- The procedure on DEC, if there is one, can go on. -/
def State.decMoves (s : State) : Bool :=
  match s.decProc with
  | some j => j.canMove s.dec
  | none => false

end Sys2Proof.Machine
end

