-- ==== Sys2Proof/Machine/System.lean ====
section
/-!
DEFINITION. The housekeeping operations ENC.CLR and DEC.CLR (`43_system.md`), reset (`70_reset_and_hazards.md` R220) and
one whole clock edge: all input lines at once, with the priority of `60_exceptions.md` R199.
-/
namespace Sys2Proof.Machine

/-- `ENC.CLR` (`43_system.md` R180). -/
def execEncClr (s : State) : Host.Outcome State Fault Refusal :=
  s.handshake true fun s => s.encClear

/-- `DEC.CLR` (`43_system.md` R181). -/
def execDecClr (s : State) : Host.Outcome State Fault Refusal :=
  s.handshake true fun s => s.decClear

/-- ENC at one edge: `rst`, then `enc_clr`, then the one handshake its state allows (`60_exceptions.md` R199). With it
the byte the host takes at the edge. -/
def Enc.edge (e : Enc) (l : InLines) : Enc × Option Byte :=
  if l.rst then (Enc.reset, none)
  else if l.encClr then (e.clear, none)
  else if l.encValid && e.ready then (e.accept l.encValue, none)
  else if l.outReady && e.outValid then (e.emitStep, some e.outByte)
  else (e, none)

/-- DEC at one edge: `rst`, then `dec_clr`, then the one handshake its state allows (`60_exceptions.md` R199). -/
def Dec.edge (d : Dec) (l : InLines) : Dec :=
  if l.rst then Dec.reset
  else if l.decClr then d.clear
  else if l.decStart && d.ready then d.start
  else if l.inValid && d.inReady then d.tokenStep (tokenOf l.inEob l.inData)
  else d

/-- Whether ENC takes a step at an edge: reset, clear, or a completed handshake (`20_memory.md` R59, R60). -/
def Enc.stepsOn (e : Enc) (l : InLines) : Bool :=
  l.rst || l.encClr || (l.encValid && e.ready) || (l.outReady && e.outValid)

/-- Whether DEC takes a step at an edge: reset, clear, or a completed handshake (`20_memory.md` R59, R60). -/
def Dec.stepsOn (d : Dec) (l : InLines) : Bool :=
  l.rst || l.decClr || (l.decStart && d.ready) || (l.inValid && d.inReady)

/-- The token DEC accepts at an edge, if it accepts one (`20_memory.md` R56, `60_exceptions.md` R199). -/
def Dec.takesOn (d : Dec) (l : InLines) : Option Token :=
  if !l.rst && !l.decClr && l.inValid && d.inReady then some (tokenOf l.inEob l.inData) else none

/-- One rising edge of `clk`: both units step at it, independently (`60_exceptions.md` R199). A reset abandons every
operation in progress and touches none of the host's buffers (`70_reset_and_hazards.md` R221); a clear acts on its unit's
procedure as the clear instruction does (`43_system.md` R180, R181; log entry 19). -/
def State.edge (s : State) (l : InLines) : State :=
  { s with
    enc := (s.enc.edge l).1
    dec := s.dec.edge l
    out := s.out ++ (s.enc.edge l).2.toList
    encProc := if l.rst then none else if l.encClr then afterEncClr s.encProc else s.encProc
    decProc := if l.rst then none else if l.decClr then afterDecClr s.decProc else s.decProc
    clrDue := s.clrDue && !(l.rst || l.decClr) }

end Sys2Proof.Machine
end

