-- ==== Sys2Proof/Machine/Dispatch.lean ====
section
/-!
DEFINITION. The meaning of every instruction: one arm per constructor, each one direct call.
-/
namespace Sys2Proof.Machine

def exec (i : Instr) (s : State) : Host.Outcome State Fault Refusal :=
  match i with
  | .enc1 v => Sys2Proof.Machine.execEnc1 v s
  | .dec1 => Sys2Proof.Machine.execDec1 s
  | .byteCont p => Sys2Proof.Machine.execByteCont p s
  | .byteTerm p => Sys2Proof.Machine.execByteTerm p s
  | .eob x => Sys2Proof.Machine.execEob x s
  | .encm values => Sys2Proof.Machine.execEncm values s
  | .decm buffer => Sys2Proof.Machine.execDecm buffer s
  | .decn count buffer => Sys2Proof.Machine.execDecn count buffer s
  | .encClr => Sys2Proof.Machine.execEncClr s
  | .decClr => Sys2Proof.Machine.execDecClr s

end Sys2Proof.Machine
end

