-- ==== Sys2Proof/Machine/Fetch.lean ====
section
/-!
DEFINITION. How the host's next line comes to run (`30_encoding.md` R92, `70_reset_and_hazards.md` R241), who goes on at a
step (`00_scope.md` R8), what the host has on the input lines at it, and how a word is placed there for the host's checks.
-/
namespace Sys2Proof.Machine

/-- The ports an instruction uses belong to a procedure in progress on the unit, since "per unit, operations are strictly
sequential" (`20_memory.md` R67 (b)); the host presents the line when the procedure is over. A clear needs no port
(`20_memory.md` R60; log entry 18). -/
def State.held (s : State) : Instr → Bool
  | .enc1 _ | .encm _ => s.encProc.isSome
  | .dec1 | .byteCont _ | .byteTerm _ | .eob _ | .decm _ | .decn _ _ => s.decProc.isSome
  | .encClr | .decClr => false

/-- The same for a whole edge: it uses a port of a unit that has a procedure in progress, and does not clear the unit. -/
def State.edgeHeld (s : State) (l : InLines) : Bool :=
  (s.encProc.isSome && (l.encValid || l.outReady) && !(l.rst || l.encClr)) ||
  (s.decProc.isSome && (l.decStart || l.inValid) && !(l.rst || l.decClr))

/-- Whether a line can be performed now; otherwise it "blocks" (`30_encoding.md` R92): the host goes on presenting it. -/
def State.canPerform (s : State) : Fetched → Bool
  | .instr i => !s.held i && (s.owesClear i || s.completes i)
  | .take => s.encProc.isNone && s.enc.outValid
  | .edge l => !s.edgeHeld l
  | .idle | .unpresentable _ => true

/-- Perform an instruction that stands at the head of the script, `rest` being the lines after it. A `DEC.CLR` the host
owes is performed first (`42_batch.md` R164). -/
def performInstr (i : Instr) (rest : List Line) (s : State) : Host.Outcome State Fault Refusal :=
  if s.owesClear i then execDecClr s else exec i { s with script := rest }

/-- Perform one fetched line, `rest` being the lines after it. -/
def performLine (f : Fetched) (rest : List Line) (s : State) : Host.Outcome State Fault Refusal :=
  if s.canPerform f then
    match f with
    | .instr i => performInstr i rest s
    | .take => takeByte { s with script := rest }
    | .edge l => .next (State.edge { s with script := rest } l)
    | .idle => .next { s with script := rest }
    | .unpresentable p => .refused (.unpresentable p)
  else .next s

/-- Who goes on where no turn is given: a procedure that can, and while one is in progress nobody else, so that the script
alone is performed line by line, a composite as its expansion (`30_encoding.md` R92; log entry 17). -/
def State.defaultTurn (s : State) : Turn :=
  if s.encMoves then .enc
  else if s.decMoves then .dec
  else if s.encProc.isNone && s.decProc.isNone then .line
  else .wait

/-- Who goes on at this step. -/
def State.turn (s : State) : Turn :=
  match s.turns with
  | t :: _ => t
  | [] => s.defaultTurn

/-- The step of the one whose turn it is. Whoever has nothing to do leaves the units as they are (`60_exceptions.md` R209,
`70_reset_and_hazards.md` R234). -/
def takeTurn (t : Turn) (s : State) : Host.Outcome State Fault Refusal :=
  match t with
  | .enc =>
    match s.encProc with
    | some j => .next (stepEncJob j s)
    | none => .next s
  | .dec =>
    match s.decProc with
    | some j => .next (stepDecJob j s)
    | none => .next s
  | .line =>
    match s.script with
    | line :: rest => performLine line.fetch rest s
    | [] => .next s
  | .wait => .next s

/-- One step: whoever's turn it is goes on, and the turn is used up. -/
def hostStep (s : State) : Host.Outcome State Fault Refusal :=
  takeTurn s.turn { s with turns := s.turns.tail }

/-! What the host has on the input lines at a step (`20_memory.md` R54, R55, R56, R60). The composites use no port by
themselves. -/

/-- The lines at a step of the procedure of ENCM (`42_batch.md` R161). -/
def EncJob.lines (j : EncJob) : InLines :=
  if j.busy then { outReady := true }
  else
    match j.left with
    | [] => {}
    | v :: _ => { encValid := true, encValue := v }

/-- The lines at a step of the procedure of DECM or DECN (`42_batch.md` R164): none while the host reads a result. -/
def DecJob.lines (j : DecJob) (d : Dec) : InLines :=
  if j.busy then
    if d.inReady then j.nextToken.lines else {}
  else if j.wantsMore then { decStart := true }
  else {}

/-- The lines at a step of the script. -/
def State.scriptLines (s : State) (f : Fetched) : InLines :=
  if s.canPerform f then
    match f with
    | .instr i => if s.owesClear i then { decClr := true } else i.lines
    | .take => { outReady := true }
    | .edge l => l
    | .idle | .unpresentable _ => {}
  else {}

/-- What the host has on the input lines at the next step. A line of the script that cannot be performed is left out: its
handshake does not complete, so it is no event (`20_memory.md` R59). -/
def State.presents (s : State) : InLines :=
  match s.turn with
  | .enc =>
    match s.encProc with
    | some j => j.lines
    | none => {}
  | .dec =>
    match s.decProc with
    | some j => j.lines s.dec
    | none => {}
  | .line =>
    match s.script with
    | line :: _ => s.scriptLines line.fetch
    | [] => {}
  | .wait => {}

/-- The units made ready for an instruction, where they are not: ENC cleared for an operand, DEC cleared for a start, a
`DEC1` started for a token, no procedure in progress on the unit, no `DEC.CLR` owed. It stands for what a host does before
(log entry 7). -/
def State.makeReady (s : State) (i : Instr) : State :=
  if s.canPerform (.instr i) && !s.owesClear i then s
  else
    match i with
    | .enc1 _ | .encm _ => { s.encClear with encProc := none }
    | .dec1 | .decm _ | .decn _ _ => { s.decClear with decProc := none }
    | .byteCont _ | .byteTerm _ | .eob _ => { s.decClear.decStart with decProc := none }
    | .encClr | .decClr => s

/-- The word `w` placed as the next line of the script and the script's turn as the next, so that the next step performs
it. -/
def placeWord (w : PortWord) (s : State) : State :=
  let ready := match decode w with
    | .ok i => s.makeReady i
    | .error _ => s
  { ready with script := .word w :: s.script, turns := .line :: s.turns }

end Sys2Proof.Machine
end

