-- ==== Sys2Proof/Safety.lean ====
section
/-!
DEFINITION. The terms the claims use: several steps in a row, the invariants of the units (`10_state.md` R35) and of the
host's procedures, and how a run ends (`70_reset_and_hazards.md` R241).
-/
namespace Sys2Proof.Machine

/-- `k` steps in a row, stopping at the first that does not answer a next state. -/
def runFor : Nat → State → Host.Outcome State Fault Refusal
  | 0, s => .next s
  | k + 1, s =>
    match step s with
    | .next t => runFor k t
    | .fault f => .fault f
    | .refused r => .refused r

/-- The invariant of ENC: the remaining value is 0 in IDLE (`93_implementation_defined.md` U5). -/
abbrev Enc.Inv (e : Enc) : Prop := e.st = .idle → e.rem = 0

/-- The invariant of DEC (`10_state.md` R35): (a) `D.i ≤ 10`; (b) a cause exactly in FAULT; (c) in RUN without overflow
the accumulator is below `2^(7·D.i)` up to index 9; (d) in DONE no overflow, 1 to 10 bytes and the same bound; (e) in RUN
an overflow only at index 10. -/
abbrev Dec.Inv (d : Dec) : Prop :=
  d.i.toNat ≤ 10 ∧
  (d.cause ≠ none ↔ d.st = .fault) ∧
  (d.st = .run → d.ovf = false → d.i.toNat ≤ 9 → d.acc.toNat < 2 ^ (7 * d.i.toNat)) ∧
  (d.st = .done → d.ovf = false ∧ 1 ≤ d.i.toNat ∧ (d.i.toNat ≤ 9 → d.acc.toNat < 2 ^ (7 * d.i.toNat))) ∧
  (d.st = .run → d.ovf = true → d.i.toNat = 10)

/-- The invariant of an ENCM procedure: while its `ENC1` is in progress ENC is in EMIT, so that it is never left waiting
for a byte that was given up. -/
abbrev EncJob.Inv (j : EncJob) (e : Enc) : Prop := j.busy = true → e.st = .emit

/-- The invariant of a DECM or DECN procedure: the tokens consumed are among those accepted, those among the buffer's;
between two `DEC1` they agree and are bytes; during one the loop condition holds, DEC is not idle, and the difference is
what it counts in `D.i`. -/
abbrev DecJob.Inv (j : DecJob) (d : Dec) : Prop :=
  j.consumed ≤ j.accepted ∧ j.accepted ≤ j.buf.length + 1 ∧
  (j.busy = false → j.accepted = j.consumed ∧ j.accepted ≤ j.buf.length) ∧
  (j.busy = true → j.wantsMore = true ∧ d.st ≠ .idle) ∧
  (j.busy = true → d.st = .done → j.accepted = j.consumed + d.i.toNat ∧ j.accepted ≤ j.buf.length) ∧
  (j.busy = true → d.st = .run → j.accepted ≤ j.buf.length ∧
    j.consumed + d.i.toNat ≤ j.accepted ∧ (d.i.toNat < 10 → j.accepted = j.consumed + d.i.toNat))

/-- The invariant of the host's procedures. While one is in progress its unit's operation has no result. -/
abbrev State.JobInv (s : State) : Prop :=
  (∀ j, s.encProc = some j → j.Inv s.enc ∧ s.encResult = none) ∧
  ∀ j, s.decProc = some j → j.Inv s.dec ∧ s.decResult = none

/-- The invariant of the whole machine. A `DEC.CLR` is owed only while DEC holds a fault. -/
abbrev State.Inv (s : State) : Prop :=
  s.enc.Inv ∧ s.dec.Inv ∧ (s.clrDue = true → s.dec.st = .fault) ∧ s.JobInv

/-- The buffer that an ENCM procedure will have given at its end: the bytes taken, those of the value in progress that are
still to come, those of the Values left. -/
def EncJob.outlook (j : EncJob) (e : Enc) : List Byte :=
  j.taken ++ (if j.busy then enc1 e.rem else []) ++ encMany j.left

/-- The result that a DECM or DECN procedure will have at its end: that of the loop of `dec_many` or `dec_n` on the bytes
not consumed yet, with the Values collected so far. -/
def DecJob.outlook (j : DecJob) : Result :=
  match j.count with
  | none => decManyLoop (j.buf.drop j.consumed).length (j.buf.drop j.consumed) j.vals
  | some n => decNLoop (n - j.vals.length) (j.buf.drop j.consumed) j.vals

/-- The tokens that DEC has accepted for the procedure's value in progress. -/
def DecJob.current (j : DecJob) : List Token :=
  ((bufferTokens j.buf).drop j.consumed).take (j.accepted - j.consumed)

/-- DEC holds what the tokens accepted for the procedure's value in progress, presented one by one since DEC.START, leave in
it. -/
def DecJob.Tracks (j : DecJob) (d : Dec) : Prop :=
  j.busy = true → d = j.current.foldl (fun d t => d.edge t.lines) ⟨.run, 0, 0, false, none⟩

/-- The host performs its script line by line: no procedure is in progress and no turn is given. -/
abbrev State.Sequential (s : State) : Prop := s.turns = [] ∧ s.encProc = none ∧ s.decProc = none

/-- The script is exhausted and the host is carrying out no procedure. -/
abbrev State.ScriptDone (s : State) : Prop := s.script = [] ∧ s.encProc = none ∧ s.decProc = none

/-- "It has ended when the script is exhausted and no unit is in EMIT or RUN" (`70_reset_and_hazards.md` R241). -/
abbrev State.RunEnded (s : State) : Prop := s.ScriptDone ∧ s.enc.st ≠ .emit ∧ s.dec.st ≠ .run

/-- "A unit left in FAULT at the end is a faulted end, not a good one" (R241). -/
abbrev State.FaultedEnd (s : State) : Prop := s.RunEnded ∧ s.dec.st = .fault

/-- "The script has nothing more for it", for ENC in EMIT: at no step of the run, however long, does ENC take a step. -/
def State.EncStuck (s : State) : Prop :=
  s.enc.st = .emit ∧ ∀ k t, runFor k s = .next t → t.enc.stepsOn t.presents = false

/-- "The script has nothing more for it", for DEC in RUN: at no step of the run, however long, does DEC take a step. -/
def State.DecStuck (s : State) : Prop :=
  s.dec.st = .run ∧ ∀ k t, runFor k s = .next t → t.dec.stepsOn t.presents = false

/-- "A state in which a unit is in EMIT or RUN and the script has nothing more for it is stuck (rule R234), and is not an
end" (R241): nothing more, whether the script and the procedures are over or are blocked for ever. -/
def State.Stuck (s : State) : Prop := s.EncStuck ∨ s.DecStuck

/-- Nobody can go on: no procedure, and the script's next line, if there is one, "blocks for ever" (`30_encoding.md`
R92). -/
abbrev State.Quiet (s : State) : Prop :=
  s.encMoves = false ∧ s.decMoves = false ∧ ∀ line rest, s.script = line :: rest → s.canPerform line.fetch = false

/-- The fairness of `70_reset_and_hazards.md` R234, decision D18: "the host eventually completes every handshake a unit
offers". Weak fairness: wherever in the run ENC offers a byte (EMIT) or DEC asks for a token (RUN), some later step of the
run is a step of that unit; a clear or reset there withdraws the offer. A premise of every claim that an operation ends. -/
def State.Fair (s : State) : Prop :=
  ∀ k t, runFor k s = .next t →
    (t.enc.st = .emit → ∃ m u, runFor m t = .next u ∧ u.enc.stepsOn u.presents = true) ∧
    (t.dec.st = .run → ∃ m u, runFor m t = .next u ∧ u.dec.stepsOn u.presents = true)

/-- The tokens that DEC accepts in the first `k` steps of the run, in order. -/
def tokensIn : Nat → State → List Token
  | 0, _ => []
  | k + 1, s =>
    match step s with
    | .next t => (s.dec.takesOn s.presents).toList ++ tokensIn k t
    | .fault _ => []
    | .refused _ => []

/-- The script lines of a sequence of tokens (`TOK <byte>`, `TOK EOB`, `30_encoding.md` R92). -/
def tokenLines (ts : List Token) : List Line := ts.map fun t => .word t.word

/-- The registers after DEC.BYTE with byte `b`, written a second time from `41_decode.md` R134 in natural numbers, for
the claims: payload `b mod 128`, continuation bit set from 128 on. -/
def Dec.afterByte (d : Dec) (b : Byte) : Dec :=
  let i := d.i.toNat
  let p := b.toNat % 128
  let ovf' := if i ≤ 8 then d.ovf else if i = 9 then (p / 2 != 0) || d.ovf else true
  { st := if 128 ≤ b.toNat then .run else if ovf' then .fault else .done
    acc := BitVec.ofNat 64
      (if i ≤ 8 then d.acc.toNat ||| (p <<< (7 * i))
       else if i = 9 then d.acc.toNat ||| ((p % 2) <<< 63)
       else d.acc.toNat)
    i := BitVec.ofNat 4 (min (i + 1) 10)
    ovf := ovf'
    cause := if b.toNat < 128 ∧ ovf' = true then some .range else d.cause }

/-- `k` edges at which the platform has the lines `out_*` of ENC wired to the lines `in_*` of DEC (`20_memory.md` R67
(d)): `in_valid` is `out_valid`, `in_data` is `out_data`, `out_ready` is `in_ready`. -/
def wiredEdges : Nat → State → State
  | 0, s => s
  | k + 1, s => wiredEdges k
      (s.edge { outReady := s.dec.inReady, inValid := s.enc.outValid, inData := s.enc.outByte })

/-- The runs of a buffer (`00_scope.md` glossary): cut after every byte with bit 7 clear; a last piece with no
terminating byte is an unterminated run. -/
def runsOf : List Byte → List (List Byte)
  | [] => []
  | b :: bs =>
    if contBit b then
      match runsOf bs with
      | [] => [[b]]
      | r :: rs => (b :: r) :: rs
    else [b] :: runsOf bs

/-- ENC's lines of an edge alone (`20_memory.md` R54, R55, R60), `rst` included. -/
def encLines (l : InLines) : InLines :=
  { l with decClr := false, decStart := false, inValid := false }

/-- DEC's lines of an edge alone (`20_memory.md` R56, R60), `rst` included. -/
def decLines (l : InLines) : InLines :=
  { l with encClr := false, encValid := false, outReady := false }

end Sys2Proof.Machine
end

