-- ==== Sys2Proof/Certificates/Slice0/Obligations.lean ====
section
/-!
DEFINITION. The statements for the provers. Each docstring names the rule of spec/ it formalises. A statement that gives a
next state as an equation is at once the instruction's result, its frame and its completion.
-/

open Sys2Proof Sys2Proof.Machine

/-! ### Encoding -/

/-- Words written out from the encodings of `30_encoding.md` R88, R89 and `95_test_vectors.md` part 3 decode to the
operations they stand for. The last two clauses, that a tenth token bit and a clear line at 0 are refused and by which
name, are the model's (log entry 12). -/
def Obligations.PortWordsDecodeAsSpecified : Prop :=
  decode ⟨.encOperand, 0x000000000000012C⟩ = .ok (.enc1 300) ∧
  decode ⟨.decStart, 0⟩ = .ok .dec1 ∧
  decode ⟨.token, 0x0AC⟩ = .ok (.byteCont 0x2C) ∧
  decode ⟨.token, 0x002⟩ = .ok (.byteTerm 0x02) ∧
  decode ⟨.token, 0x100⟩ = .ok (.eob 0x00) ∧
  decode ⟨.token, 0x1FF⟩ = .ok (.eob 0xFF) ∧
  decode ⟨.encClr, 1⟩ = .ok .encClr ∧
  decode ⟨.decClr, 1⟩ = .ok .decClr ∧
  decode ⟨.token, 0x200⟩ = .error (.tooWide .token) ∧
  decode ⟨.encClr, 0⟩ = .error (.lineLow .encClr)

/-- `30_encoding.md` R80, R88, R89: every instruction that the hardware meets on a port decodes back from its word, with
every operand at every value; only the host's composites have no word. -/
def Obligations.EncodeThenDecodeGivesTheInstruction : Prop :=
  (∀ i w, encode i = some w → w.wf = true ∧ decode w = .ok i) ∧
  (∀ i, encode i = none ↔
    (∃ vs, i = .encm vs) ∨ (∃ b, i = .decm b) ∨ ∃ n b, i = .decn n b)

/-- `30_encoding.md` R88, R89: a word has one meaning, and the encoder gives that word back. -/
def Obligations.DecodeThenEncodeGivesTheWord : Prop :=
  ∀ w i, decode w = .ok i → w.wf = true ∧ encode i = some w

/-- The model's refusals (log entry 12): a word is refused exactly when it has bits above the port's lines or is a clear line
at 0, and the refusal says which. The widths are those of `20_memory.md` R54, R56, R60, the level line that of
`30_encoding.md` R89; that such a word is refused, and the names, are the model's choice. -/
def Obligations.IllFormedWordsAreRefusedByName : Prop :=
  ∀ w, (decode w = .error (.tooWide w.port) ↔ 2 ^ w.port.width ≤ w.bits) ∧
    (decode w = .error (.lineLow w.port) ↔ (w.port = .encClr ∨ w.port = .decClr) ∧ w.bits = 0) ∧
    (w.wf = true ↔ ∃ i, decode w = .ok i)

/-- `30_encoding.md` R88: the three token classes are disjoint and cover all 512 patterns, each with the step of DEC the
table gives it. -/
def Obligations.TokenClassesPartitionThePatterns : Prop :=
  ∀ n, n < 512 →
    (256 ≤ n → decode ⟨.token, n⟩ = .ok (.eob (BitVec.ofNat 8 n))) ∧
    (128 ≤ n → n < 256 → decode ⟨.token, n⟩ = .ok (.byteCont (BitVec.ofNat 7 n))) ∧
    (n < 128 → decode ⟨.token, n⟩ = .ok (.byteTerm (BitVec.ofNat 7 n))) ∧
    ∀ s, s.dec.st = .run → ∃ i, decode ⟨.token, n⟩ = .ok i ∧
      exec i s = .next { s with
        dec := if 256 ≤ n then s.dec.eobStep else s.dec.byteStep (BitVec.ofNat 8 n) }

/-! ### Reset and invariants -/

/-- `10_state.md` R34: every register after reset, and the port lines that follow. -/
def Obligations.ResetLeavesEveryRegisterAtItsValue : Prop :=
  ∀ t : State, (t = State.reset ∨ ∃ s l, l.rst = true ∧ t = State.edge s l) →
    t.enc.st = .idle ∧ t.enc.st.code = 0 ∧ t.enc.rem = 0 ∧
    t.dec.st = .idle ∧ t.dec.st.code = 0 ∧ t.dec.acc = 0 ∧ t.dec.i = 0 ∧ t.dec.ovf = false ∧
    causeBits t.dec.cause = 0 ∧
    t.outLines = { encReady := true, outValid := false, outData := none, outLast := none, decReady := true,
                   inReady := false, decDone := false, decValue := none, decNbytes := none, decFault := false,
                   decCause := 0 }

/-- `70_reset_and_hazards.md` R220, R221: an edge with `rst = 1` puts both units into the reset state whatever else is on
the lines, abandons every operation in progress, the batch operations too, and touches neither the bytes emitted nor the
host's buffers. While `rst` stays 1 nothing happens. Of what the host owes (`clrDue`) this statement says nothing. -/
def Obligations.ResetEdgeOverridesEverything : Prop :=
  ∀ s l, l.rst = true →
    (∃ c, State.edge s l = { s with
      enc := ⟨.idle, 0⟩, dec := ⟨.idle, 0, 0, false, none⟩, encProc := none, decProc := none, clrDue := c }) ∧
    ∀ l', l'.rst = true → State.edge (State.edge s l) l' = State.edge s l

/-- `10_state.md` R35 (a) to (e), with the host's side: the invariant is kept by every step. -/
def Obligations.UnitAndHostInvariantIsKept : Prop :=
  ∀ s t : State, s.Inv → step s = .next t → t.Inv

/-- The invariant holds at reset (`10_state.md` R34, R35). -/
def Obligations.InvariantHoldsAtReset : Prop := State.reset.Inv

/-! ### ENC -/

/-- `40_encode.md` R113: ENC.ACCEPT, as the instruction and as an edge. In EMIT an operand on the lines makes no
difference. -/
def Obligations.EncAcceptTakesTheOperand : Prop :=
  ∀ v s,
    (s.enc.st = .idle → exec (.enc1 v) s = .next { s with enc := ⟨.emit, v⟩ }) ∧
    (s.enc.st = .emit → exec (.enc1 v) s = .next s) ∧
    (∀ l : InLines, l.rst = false → l.encClr = false → l.encValid = true → s.enc.st = .idle →
      (State.edge s l).enc = ⟨.emit, l.encValue⟩ ∧ (State.edge s l).out = s.out) ∧
    (∀ l : InLines, s.enc.st = .emit → State.edge s l = State.edge s { l with encValid := false }) ∧
    (State.outLines { s with enc := ⟨.emit, v⟩ }).encReady = false ∧
    (State.outLines { s with enc := ⟨.emit, v⟩ }).outValid = true

/-- `40_encode.md` R114: ENC.EMIT, as the host line TAKE and as an edge, in natural numbers. In IDLE no byte is taken and the
line waits: that the waiting is a step that changes nothing is the model's (log entry 5). -/
def Obligations.EncEmitSendsTheNextGroup : Prop :=
  ∀ (s : State) (rest : List Line) (l : InLines), s.turn = .line → s.encProc = none → s.script = .take :: rest →
    l.rst = false → l.encClr = false → l.outReady = true →
    let r := s.enc.rem.toNat
    let b : Byte := BitVec.ofNat 8 (r % 128 + if r < 128 then 0 else 128)
    let e : Enc := ⟨if r < 128 then .idle else .emit, BitVec.ofNat 64 (r / 128)⟩
    (s.enc.st = .emit →
      step s = .next { s with script := rest, enc := e, out := s.out ++ [b], turns := s.turns.tail } ∧
      (State.edge s l).enc = e ∧ (State.edge s l).out = s.out ++ [b] ∧
      s.outLines.outData = some b ∧ s.outLines.outLast = some (decide (r < 128)) ∧
      (e.st = .idle → e.rem = 0) ∧ (e.st = .emit → e.rem ≠ 0)) ∧
    (s.enc.st = .idle → step s = .next { s with turns := s.turns.tail })

/-- `40_encode.md` R118: one `ENC1 v` and then as many `TAKE` as `enc1(v)` has bytes append exactly `enc1(v)` to `OUT`,
the last and only the last with `out_last = 1`; in between no other instruction than ENC.CLR changes ENC. -/
def Obligations.EncodeOneAgreesOnBothLevels : Prop :=
  ∀ (v : Value) (s : State) (rest : List Line), s.Sequential → s.enc.st = .idle →
    s.script = .word ⟨.encOperand, v.toNat⟩ :: (List.replicate (enc1 v).length .take ++ rest) →
    runFor (1 + (enc1 v).length) s =
      .next { s with enc := ⟨.idle, 0⟩, script := rest, out := s.out ++ enc1 v } ∧
    ∀ k, k < (enc1 v).length → ∃ t, runFor (1 + k) s = .next t ∧ t.enc.st = .emit ∧
      t.out = s.out ++ (enc1 v).take k ∧ t.outLines.outData = (enc1 v)[k]? ∧
      t.outLines.outLast = some (decide (k + 1 = (enc1 v).length)) ∧
      ∀ i t', i ≠ .encClr → exec i t = .next t' → t'.enc = t.enc

/-- `40_encode.md` R110, `30_encoding.md` R82: `enc1` by its recursion, and as the format FORM; 1 to 10 bytes; the form of
0 and the rule's example. -/
def Obligations.EncodeOneIsTheWireForm : Prop :=
  (∀ v : Value, enc1 v =
    if v.toNat < 128 then [BitVec.ofNat 8 v.toNat]
    else BitVec.ofNat 8 (128 + v.toNat % 128) :: enc1 (BitVec.ofNat 64 (v.toNat / 128))) ∧
  (∀ v, enc1 v = form v) ∧
  (∀ v, 1 ≤ (enc1 v).length ∧ (enc1 v).length ≤ 10) ∧
  enc1 0 = [0x00] ∧ enc1 300 = [0xAC, 0x02]

/-- `30_encoding.md` R83, `40_encode.md` R111: the length of a form, by formula and by the table of ranges; a form of 10
bytes ends in `0x01`. -/
def Obligations.EncodedLengthIsMinimal : Prop :=
  ∀ v : Value, (enc1 v).length = formLength v ∧ 1 ≤ (enc1 v).length ∧ (enc1 v).length ≤ 10 ∧
    (∀ n, 1 ≤ n → n ≤ 10 →
      ((enc1 v).length = n ↔ (n = 1 ∨ 2 ^ (7 * (n - 1)) ≤ v.toNat) ∧ v.toNat < 2 ^ (7 * n))) ∧
    ((enc1 v).length = 10 → (enc1 v)[9]? = some 0x01)

/-- `30_encoding.md` R86, `40_encode.md` R117: the canonical runs are exactly the forms of Values; `enc1(v)` is the only
canonical run whose value is `v`; `enc1` is injective. -/
def Obligations.CanonicalRunsAreTheEncodedForms : Prop :=
  (∀ run, isRun run = true → ((∃ v, enc1 v = run) ↔
    run.length ≤ 10 ∧ (run.length = 1 ∨ run[run.length - 1]? ≠ some 0x00) ∧
      (run.length = 10 → run[9]? = some 0x01))) ∧
  (∀ run, canonical run = true ↔ ∃ v, enc1 v = run) ∧
  (∀ v, runValue (enc1 v) = v.toNat) ∧
  (∀ v run, canonical run = true → runValue run = v.toNat → run = enc1 v) ∧
  (∀ v w, enc1 v = enc1 w → v = w)

/-! ### DEC -/

/-- `41_decode.md` R133: DEC.START, as the instruction and as an edge. -/
def Obligations.DecStartBeginsADecode : Prop :=
  ∀ s : State,
    ((s.dec.st = .idle ∨ s.dec.st = .done) →
      exec .dec1 s = .next { s with dec := { s.dec with st := .run, acc := 0, i := 0, ovf := false } }) ∧
    ((s.dec.st = .run ∨ s.dec.st = .fault) → exec .dec1 s = .next s) ∧
    (∀ l : InLines, l.rst = false → l.decClr = false → l.decStart = true →
      (s.dec.st = .idle ∨ s.dec.st = .done) →
      (State.edge s l).dec = { s.dec with st := .run, acc := 0, i := 0, ovf := false } ∧
      (State.edge s l).outLines.decDone = false ∧ (State.edge s l).outLines.inReady = true) ∧
    (s.Inv → (s.dec.st = .idle ∨ s.dec.st = .done) → s.dec.cause = none)

/-- `41_decode.md` R134: DEC.BYTE, as the instructions of both byte classes and as an edge; outside RUN no token is
accepted; and the or is a field write. -/
def Obligations.DecByteFollowsItsPseudocode : Prop :=
  ∀ s : State,
    (s.dec.st = .run → ∀ p : Payload,
      exec (.byteCont p) s = .next { s with dec := s.dec.afterByte (BitVec.ofNat 8 (128 + p.toNat)) } ∧
      exec (.byteTerm p) s = .next { s with dec := s.dec.afterByte (BitVec.ofNat 8 p.toNat) }) ∧
    (s.dec.st ≠ .run → ∀ p : Payload, exec (.byteCont p) s = .next s ∧ exec (.byteTerm p) s = .next s) ∧
    (∀ l : InLines, l.rst = false → l.decClr = false → l.inValid = true → l.inEob = false → s.dec.st = .run →
      (State.edge s l).dec = s.dec.afterByte l.inData) ∧
    (s.dec.Inv → s.dec.st = .run → s.dec.ovf = false → s.dec.i.toNat ≤ 8 → ∀ b : Byte,
      (s.dec.afterByte b).acc.toNat = s.dec.acc.toNat + (b.toNat % 128) * 2 ^ (7 * s.dec.i.toNat))

/-- `41_decode.md` R135: DEC.EOB, as the instruction with any ignored data bits, as a script line, which is used up, and
as an edge. Of the turns (log entry 17) it says nothing. -/
def Obligations.DecEobEndsInTruncated : Prop :=
  ∀ (s : State) (x : Byte),
    (s.dec.st = .run →
      exec (.eob x) s = .next { s with dec := { s.dec with st := .fault, cause := some .truncated } } ∧
      causeBits (some .truncated) = 1) ∧
    (s.dec.st ≠ .run → exec (.eob x) s = .next s) ∧
    (s.dec.st = .run → s.turn = .line → s.decProc = none → ∀ rest, s.script = .word Token.eob.word :: rest →
      ∃ us, step s = .next { s with
        dec := { s.dec with st := .fault, cause := some .truncated }, script := rest, turns := us }) ∧
    (∀ l : InLines, l.rst = false → l.decClr = false → l.inValid = true → l.inEob = true → s.dec.st = .run →
      (State.edge s l).dec = { s.dec with st := .fault, cause := some .truncated } ∧
      (State.edge s l).outLines.decFault = true)

/-- `41_decode.md` R147: a `DEC1` and the tokens of a buffer lead to the registers that `dec1` of the buffer says, in the
number of steps it says, and leave the tokens it says; in RUN only a token or a clear moves DEC. -/
def Obligations.DecodeOneAgreesOnBothLevels : Prop :=
  (∀ (b : List Byte) (s : State) (more : List Line), s.Sequential → s.clrDue = false → s.dec.cause = none →
    (s.dec.st = .idle ∨ s.dec.st = .done) →
    s.script = .word ⟨.decStart, 0⟩ :: (tokenLines (bufferTokens b) ++ more) →
    (∀ v n, dec1 b = .ok v n → n ≤ b.length ∧
      runFor (1 + n) s = .next { s with
        dec := ⟨.done, v, BitVec.ofNat 4 n, false, none⟩
        script := tokenLines (bufferTokens (b.drop n)) ++ more }) ∧
    (dec1 b = .fault .range → ∃ k t, termIndex b = some k ∧ k < b.length ∧ runFor (1 + (k + 1)) s = .next t ∧
      t.dec.st = .fault ∧ t.dec.cause = some .range ∧
      t = { s with dec := t.dec, script := tokenLines (bufferTokens (b.drop (k + 1))) ++ more }) ∧
    (dec1 b = .fault .truncated → ∃ t, runFor (1 + b.length + 1) s = .next t ∧
      t.dec.st = .fault ∧ t.dec.cause = some .truncated ∧ t = { s with dec := t.dec, script := more })) ∧
  (∀ (s t : State) (i : Instr), s.dec.st = .run → i.token? = none → i ≠ .decClr → exec i s = .next t →
    t.dec = s.dec)

/-- `41_decode.md` R132: Truncated exactly for the buffers, of whatever length, in which every byte has bit 7 set. -/
def Obligations.TruncatedExactlyWhenNothingTerminates : Prop :=
  (∀ b : List Byte, dec1 b = .fault .truncated ↔ ∀ x ∈ b, 128 ≤ x.toNat) ∧
  dec1 [] = .fault .truncated ∧ dec1 [0x80] = .fault .truncated

/-- `41_decode.md` R136: Range exactly when the first terminating byte is at index 10 or later, or at index 9 with payload
bits 6:1 not all zero; until the terminating byte DEC goes on accepting. -/
def Obligations.RangeExactlyWhenTheRunIsTooLong : Prop :=
  (∀ b : List Byte, dec1 b = .fault .range ↔
    ∃ k x, b[k]? = some x ∧ x.toNat < 128 ∧ (∀ j y, j < k → b[j]? = some y → 128 ≤ y.toNat) ∧
      (10 ≤ k ∨ (k = 9 ∧ x.toNat / 2 ≠ 0))) ∧
  (∀ (d : Dec) (x : Byte), 128 ≤ x.toNat → (d.byteStep x).st = .run ∧ (d.byteStep x).cause = d.cause)

/-- `41_decode.md` R130, R138, `60_exceptions.md` R202: an `OK` value is the mathematical sum of the payloads, its byte
count is that of the run, and nothing was truncated. -/
def Obligations.OkValueIsTheMathematicalSum : Prop :=
  ∀ (b : List Byte) (v : Value) (n : Nat), dec1 b = .ok v n →
    1 ≤ n ∧ n ≤ 10 ∧ n ≤ b.length ∧
    v.toNat = ((List.range n).map fun j => ((b.getD j 0).toNat % 128) * 2 ^ (7 * j)).sum ∧
    (b.getD (n - 1) 0).toNat < 128 ∧ ∀ j, j + 1 < n → 128 ≤ (b.getD j 0).toNat

/-- `41_decode.md` R131, R137: what follows a terminated run is not looked at; on `OK` the rest is what follows the
terminated run; after the terminating byte, in DONE and in FAULT, no token is accepted. -/
def Obligations.DecodeOneLeavesTheRest : Prop :=
  (∀ s e : List Byte, termIndex s ≠ none → dec1 (s ++ e) = dec1 s) ∧
  (∀ (b : List Byte) (v : Value) (n : Nat), dec1 b = .ok v n →
    b = b.take n ++ b.drop n ∧ isRun (b.take n) = true ∧ (b.take n).length = n ∧ dec1 (b.take n) = .ok v n) ∧
  (∀ (d : Dec) (b : Byte), b.toNat < 128 → (d.byteStep b).inReady = false) ∧
  (∀ s : State, (s.dec.st = .done ∨ s.dec.st = .fault) → s.outLines.inReady = false ∧
    ∀ (i : Instr) (t : State), i.token?.isSome = true → exec i s = .next t → t = s)

/-- `40_encode.md` R119: every Value decodes back from its form, whatever bytes follow, and they are the rest. -/
def Obligations.RoundTripWithAnyRest : Prop :=
  ∀ (v : Value) (e : List Byte),
    dec1 (enc1 v ++ e) = .ok v (enc1 v).length ∧ (enc1 v ++ e).drop (enc1 v).length = e

/-- `41_decode.md` R139: a terminated run that passes the Range test decodes to its mathematical value, canonical or not,
and encodes back to itself exactly when it is canonical. -/
def Obligations.NonCanonicalRunsDecode : Prop :=
  (∀ run : List Byte, isRun run = true → dec1 run ≠ .fault .range →
    ∃ v, dec1 run = .ok v run.length ∧ v.toNat = runValue run ∧ (enc1 v = run ↔ canonical run = true)) ∧
  dec1 [0x80, 0x00] = .ok 0 2 ∧ dec1 [0xFF, 0x80, 0x00] = .ok 127 3 ∧
  dec1 [0x80, 0x80, 0x80, 0x80, 0x80, 0x80, 0x80, 0x80, 0x80, 0x00] = .ok 0 10

/-- `30_encoding.md` R91: no form begins another form, and a concatenation of forms is cut back in one way only. -/
def Obligations.FormsCutBackInOneWay : Prop :=
  (∀ (v w : Value) (e f : List Byte), enc1 v ++ e = enc1 w ++ f → v = w ∧ e = f) ∧
  (∀ l m : List Value, encMany l = encMany m → l = m)

/-! ### Batch operations -/

/-- `42_batch.md` R160, R161, R163, R164, R166, R167: each composite starts its host procedure, with nothing taken,
accepted, consumed or collected yet, and moves no unit. The value of the result meanwhile, none, and that a composite waits
while its unit has another procedure in progress, are the model's (log entry 2). -/
def Obligations.BatchInstructionsStartTheirProcedures : Prop :=
  ∀ (s : State) (l : List Value) (b : List Byte) (n : Nat),
    (s.encProc = none →
      exec (.encm l) s = .next { s with encProc := some ⟨l, [], false⟩, encResult := none }) ∧
    (s.decProc = none →
      exec (.decm b) s = .next { s with decProc := some ⟨none, b, 0, 0, [], false⟩, decResult := none } ∧
      exec (.decn n b) s = .next { s with decProc := some ⟨some n, b, 0, 0, [], false⟩, decResult := none }) ∧
    (s.encProc ≠ none → exec (.encm l) s = .next s) ∧
    (s.decProc ≠ none → exec (.decm b) s = .next s ∧ exec (.decn n b) s = .next s)

/-- `42_batch.md` R160, R161: the procedure of ENCM takes exactly `enc_many(L)`, leaves ENC ready and DEC untouched. -/
def Obligations.EncmProcedureGivesEncMany : Prop :=
  ∀ (l : List Value) (s : State) (rest : List Line), s.Sequential → s.enc = ⟨.idle, 0⟩ →
    s.script = .encm l :: rest →
    ∃ k, runFor k s = .next { s with
      script := rest, out := s.out ++ encMany l, encResult := some (encMany l) }

/-- `42_batch.md` R163, R164, `60_exceptions.md` R201: the procedure of DECM ends with `dec_many(B)`; on a fault DEC holds
it and a clear is owed; ENC and `OUT` are untouched. -/
def Obligations.DecmProcedureGivesDecMany : Prop :=
  ∀ (b : List Byte) (s : State) (rest : List Line), s.Sequential → s.clrDue = false → s.dec.cause = none →
    (s.dec.st = .idle ∨ s.dec.st = .done) → s.script = .decm b :: rest →
    ∃ k t, runFor k s = .next t ∧ t.decResult = some (decMany b) ∧
      t = { s with dec := t.dec, script := rest, decResult := t.decResult, clrDue := t.clrDue } ∧
      (∀ c, decMany b = .fault c → t.dec.st = .fault ∧ t.dec.cause = some c ∧ t.clrDue = true) ∧
      ((∀ c, decMany b ≠ .fault c) →
        (t.dec.st = .idle ∨ t.dec.st = .done) ∧ t.dec.cause = none ∧ t.clrDue = false)

/-- `42_batch.md` R166, R167, `60_exceptions.md` R201: the procedure of DECN ends with `dec_n(B, n)`. -/
def Obligations.DecnProcedureGivesDecN : Prop :=
  ∀ (n : Nat) (b : List Byte) (s : State) (rest : List Line), s.Sequential → s.clrDue = false →
    s.dec.cause = none → (s.dec.st = .idle ∨ s.dec.st = .done) → s.script = .decn n b :: rest →
    ∃ k t, runFor k s = .next t ∧ t.decResult = some (decN b n) ∧
      t = { s with dec := t.dec, script := rest, decResult := t.decResult, clrDue := t.clrDue } ∧
      (∀ c, decN b n = .fault c → t.dec.st = .fault ∧ t.dec.cause = some c ∧ t.clrDue = true) ∧
      ((∀ c, decN b n ≠ .fault c) →
        (t.dec.st = .idle ∨ t.dec.st = .done) ∧ t.dec.cause = none ∧ t.clrDue = false)

/-- `42_batch.md` R169: every list of Values round-trips; the converse holds exactly for buffers of canonical runs. -/
def Obligations.ListsRoundTrip : Prop :=
  (∀ l : List Value, decMany (encMany l) = .decm l ∧ decN (encMany l) l.length = .decn l []) ∧
  (∀ (b : List Byte) (l : List Value), decMany b = .decm l →
    (encMany l = b ↔ ∀ run ∈ runsOf b, canonical run = true))

/-- `42_batch.md` R170: on a well-formed buffer DECM succeeds, DECN succeeds for every count up to the number of values
and is Truncated above it. -/
def Obligations.WellFormedBuffersDecode : Prop :=
  ∀ (l : List Value) (n : Nat), decMany (encMany l) = .decm l ∧
    (n ≤ l.length → decN (encMany l) n = .decn (l.take n) (encMany (l.drop n))) ∧
    (l.length < n → decN (encMany l) n = .fault .truncated)

/-- `42_batch.md` R165: the empty buffer is the empty list; the list has one Value per byte with bit 7 clear; a fault of
DECM is that of `dec1` on a rest of the buffer, and no list comes with it. -/
def Obligations.DecManyCountsTerminatingBytes : Prop :=
  decMany [] = .decm [] ∧
  (∀ (b : List Byte) (l : List Value), decMany b = .decm l →
    l.length = (b.filter fun x => decide (x.toNat < 128)).length) ∧
  (∀ (b : List Byte) (c : FaultCode), decMany b = .fault c →
    ∃ used rest, b = used ++ rest ∧ rest ≠ [] ∧ dec1 rest = .fault c ∧ ∃ l, decMany used = .decm l)

/-- `42_batch.md` R160: `enc_many` is the concatenation; its length is the sum of the lengths, between `len(L)` and
`10·len(L)`. -/
def Obligations.EncManyConcatenates : Prop :=
  (∀ l m : List Value, encMany (l ++ m) = encMany l ++ encMany m) ∧
  (∀ v, encMany [v] = enc1 v) ∧ encMany [] = [] ∧
  (∀ l : List Value, (encMany l).length = (l.map formLength).sum ∧
    l.length ≤ (encMany l).length ∧ (encMany l).length ≤ 10 * l.length)

/-- `42_batch.md` R166, R168: DECN gives exactly `n` Values and the unlooked-at rest; `n = 0` decodes nothing; too few
values are one Truncated or Range fault of `dec1`. -/
def Obligations.DecNLeavesTheRest : Prop :=
  (∀ b, decN b 0 = .decn [] b) ∧
  (∀ (b rest : List Byte) (n : Nat) (l : List Value), decN b n = .decn l rest →
    l.length = n ∧ ∃ used, b = used ++ rest ∧ decMany used = .decm l) ∧
  (∀ (b : List Byte) (n : Nat) (c : FaultCode), decN b n = .fault c →
    ∃ used rest l, b = used ++ rest ∧ dec1 rest = .fault c ∧ decMany used = .decm l ∧ l.length < n)

/-! ### Housekeeping, edges, faults -/

/-- `43_system.md` R180: ENC.CLR in every state, as the instruction and as an edge, above every handshake of ENC. It
touches nothing of DEC, and in IDLE it changes nothing at all. Of an ENCM in progress in EMIT (log entry 19) this statement
says nothing. -/
def Obligations.EncClrResetsEnc : Prop :=
  ∀ s : State, (∃ p, exec .encClr s = .next { s with enc := ⟨.idle, 0⟩, encProc := p }) ∧
    (State.outLines { s with enc := ⟨.idle, 0⟩ }).encReady = true ∧
    (State.outLines { s with enc := ⟨.idle, 0⟩ }).outValid = false ∧
    (∀ l : InLines, l.rst = false → l.encClr = true →
      (State.edge s l).enc = ⟨.idle, 0⟩ ∧ (State.edge s l).out = s.out) ∧
    (s.Inv → s.enc.st = .idle → exec .encClr s = .next s ∧ State.edge s { encClr := true } = s)

/-- `43_system.md` R181: DEC.CLR in every state, as the instruction and as an edge, above every handshake of DEC. It
touches nothing of ENC. Of a DECM or DECN in progress (log entry 19, O59) and of what the host owes (log entry 3) this
statement says nothing. -/
def Obligations.DecClrResetsDec : Prop :=
  ∀ s : State,
    (∃ p c, exec .decClr s = .next { s with dec := ⟨.idle, 0, 0, false, none⟩, decProc := p, clrDue := c }) ∧
    (State.outLines { s with dec := ⟨.idle, 0, 0, false, none⟩ }).decDone = false ∧
    (State.outLines { s with dec := ⟨.idle, 0, 0, false, none⟩ }).decFault = false ∧
    (State.outLines { s with dec := ⟨.idle, 0, 0, false, none⟩ }).inReady = false ∧
    (State.outLines { s with dec := ⟨.idle, 0, 0, false, none⟩ }).decReady = true ∧
    ∀ l : InLines, l.rst = false → l.decClr = true →
      (State.edge s l).dec = ⟨.idle, 0, 0, false, none⟩

/-- `60_exceptions.md` R199: at one edge only the highest of `rst`, the unit's clear and the one handshake its state
allows applies; two handshakes of a unit are never enabled together; between the units either order gives the same. -/
def Obligations.EdgePriorityAndIndependence : Prop :=
  ∀ (s : State) (l : InLines),
    (l.rst = true → (State.edge s l).enc = Enc.reset ∧ (State.edge s l).dec = Dec.reset ∧
      (State.edge s l).out = s.out) ∧
    (l.rst = false → l.encClr = true → (State.edge s l).enc = s.enc.clear ∧ (State.edge s l).out = s.out) ∧
    (l.rst = false → l.decClr = true → (State.edge s l).dec = s.dec.clear) ∧
    ¬(s.outLines.encReady = true ∧ s.outLines.outValid = true) ∧
    ¬(s.outLines.decReady = true ∧ s.outLines.inReady = true) ∧
    (l.rst = false → l.encClr = false →
      (l.encValid = false ∨ s.enc.st = .emit) → (l.outReady = false ∨ s.enc.st = .idle) →
      (State.edge s l).enc = s.enc ∧ (State.edge s l).out = s.out) ∧
    (l.rst = false → l.decClr = false →
      (l.decStart = false ∨ s.dec.st = .run ∨ s.dec.st = .fault) → (l.inValid = false ∨ s.dec.st ≠ .run) →
      (State.edge s l).dec = s.dec) ∧
    (l.rst = false →
      State.edge s l = State.edge (State.edge s (encLines l)) (decLines l) ∧
      State.edge s l = State.edge (State.edge s (decLines l)) (encLines l))

/-- `30_encoding.md` R89, `20_memory.md` R54, R56, R60: an edge at which only one port is asserted is that port's
instruction, completed or not. -/
def Obligations.EdgeOfOnePortIsTheInstruction : Prop :=
  ∀ s : State,
    (∀ v, exec (.enc1 v) s = .next (State.edge s { encValid := true, encValue := v })) ∧
    exec .dec1 s = .next (State.edge s { decStart := true }) ∧
    (∀ p, exec (.byteCont p) s = .next (State.edge s { inValid := true, inData := byteOf true p })) ∧
    (∀ p, exec (.byteTerm p) s = .next (State.edge s { inValid := true, inData := byteOf false p })) ∧
    (∀ x, exec (.eob x) s = .next (State.edge s { inValid := true, inEob := true, inData := x })) ∧
    exec .encClr s = .next (State.edge s { encClr := true }) ∧
    exec .decClr s = .next (State.edge s { decClr := true }) ∧
    State.edge s {} = s

/-- `60_exceptions.md` R196, R197: while a fault is latched DEC takes no step but a clear or a reset; both put it into its
reset state. -/
def Obligations.FaultLatchesUntilCleared : Prop :=
  ∀ s : State, s.dec.st = .fault →
    (∀ i t, i ≠ .decClr → exec i s = .next t → t.dec = s.dec) ∧
    (∀ l : InLines, l.rst = false → l.decClr = false → (State.edge s l).dec = s.dec) ∧
    (∀ t, step s = .next t → t.dec = s.dec ∨ t.dec = Dec.reset) ∧
    (∃ t, exec .decClr s = .next t ∧ t.dec = Dec.reset) ∧
    (∀ l : InLines, l.rst = true ∨ l.decClr = true → (State.edge s l).dec = Dec.reset)

/-- `60_exceptions.md` R190, R193, R194, R195: an instruction brings DEC into FAULT only as its table says: EOB with
Truncated, writing the state and the cause alone, or a terminating byte with Range, under the condition of
`41_decode.md` R134. ENC is not affected. -/
def Obligations.FaultsAreRaisedOnlyByTheirSteps : Prop :=
  ∀ (i : Instr) (s t : State), exec i s = .next t → s.dec.st ≠ .fault → t.dec.st = .fault →
    s.dec.st = .run ∧
    ((∃ x, i = .eob x ∧ t = { s with dec := { s.dec with st := .fault, cause := some .truncated } }) ∨
     (∃ p : Payload, i = .byteTerm p ∧ t = { s with dec := t.dec } ∧ t.dec.cause = some .range ∧ t.dec.ovf = true ∧
       (9 < s.dec.i.toNat ∨ (s.dec.i.toNat = 9 ∧ p.toNat / 2 ≠ 0) ∨ s.dec.ovf = true)))

/-- `00_scope.md` R8, `20_memory.md` R64, `40_encode.md` R112, `41_decode.md` R141, `42_batch.md` R161, R164, R167: what
each group of instructions leaves unchanged. That ENCM, DECM and DECN start the host's procedure and move no unit by
themselves, so that they leave both units, `OUT` and the lines after them as they were, is the model's choice (log
entry 2). -/
def Obligations.InstructionsKeepTheirFrames : Prop :=
  ∀ (i : Instr) (s t : State), exec i s = .next t →
    (t.script = s.script ∧ t.out = s.out ∧ t.turns = s.turns) ∧
    ((∃ v, i = .enc1 v) ∨ i = .encClr →
      t.dec = s.dec ∧ t.decProc = s.decProc ∧ t.encResult = s.encResult ∧ t.decResult = s.decResult ∧
      t.clrDue = s.clrDue) ∧
    ((∃ v, i = .enc1 v) → t.encProc = s.encProc) ∧
    (i = .dec1 ∨ i.token?.isSome = true →
      t.enc = s.enc ∧ t.encProc = s.encProc ∧ t.decProc = s.decProc ∧ t.encResult = s.encResult ∧
      t.decResult = s.decResult ∧ t.clrDue = s.clrDue) ∧
    (i = .decClr →
      t.enc = s.enc ∧ t.encProc = s.encProc ∧ t.encResult = s.encResult ∧ t.decResult = s.decResult) ∧
    ((∃ l, i = .encm l) →
      t.enc = s.enc ∧ t.dec = s.dec ∧ t.decProc = s.decProc ∧ t.decResult = s.decResult ∧ t.clrDue = s.clrDue) ∧
    ((∃ b, i = .decm b) ∨ (∃ n b, i = .decn n b) →
      t.enc = s.enc ∧ t.dec = s.dec ∧ t.encProc = s.encProc ∧ t.encResult = s.encResult ∧ t.clrDue = s.clrDue)

/-- `20_memory.md` R64, R67 (c), `00_scope.md` R8: ENC and DEC share nothing. What an instruction or an edge does to one
unit depends on that unit's registers alone. -/
def Obligations.UnitsShareNothing : Prop :=
  (∀ (i : Instr) (s s' t t' : State), exec i s = .next t → exec i s' = .next t' →
    (s.dec = s'.dec → t.dec = t'.dec) ∧ (s.enc = s'.enc → t.enc = t'.enc)) ∧
  (∀ (l : InLines) (s s' : State),
    (s.dec = s'.dec → (State.edge s l).dec = (State.edge s' l).dec) ∧
    (s.enc = s'.enc → s.out = s'.out →
      (State.edge s l).enc = (State.edge s' l).enc ∧ (State.edge s l).out = (State.edge s' l).out))

/-- `20_memory.md` R67 (d), `40_encode.md` R119, `41_decode.md` R130: with the lines `out_*` of ENC wired to the lines
`in_*` of DEC, the Value ENC is sending arrives in DEC whole, in as many edges as its form has bytes, and DEC is DONE with
it at the edge at which ENC becomes IDLE. -/
def Obligations.WiredUnitsTransportTheValue : Prop :=
  ∀ (v : Value) (s : State), s.enc = ⟨.emit, v⟩ → s.dec = ⟨.run, 0, 0, false, none⟩ →
    wiredEdges (enc1 v).length s = { s with
      enc := ⟨.idle, 0⟩
      dec := ⟨.done, v, BitVec.ofNat 4 (enc1 v).length, false, none⟩
      out := s.out ++ enc1 v } ∧
    ∀ k, k < (enc1 v).length → (wiredEdges k s).enc.st = .emit ∧ (wiredEdges k s).dec.st = .run

/-! ### The step -/

/-- `30_encoding.md` R92, `70_reset_and_hazards.md` R241: when it is the script's turn the step performs its next line. A
word that decodes to an instruction is performed by `exec`, the line being used up, when its handshake can complete. The
model's choices in this are: a line that cannot be performed, or no line, leaves the state as it is (log entry 5); a
composite's line is used up as its procedure starts (log entry 2); an edge is a line, and passes at once (log entry 8); a
clear line at 0 passes (log entry 12); lines on a port that a procedure in progress uses wait (log entry 18); whose turn it
is where none is given (log entry 17). -/
def Obligations.StepPerformsTheNextLine : Prop :=
  (∀ (s : State) (rest : List Line), s.turn = .line →
    (∀ w i, s.script = .word w :: rest → decode w = .ok i → s.held i = false → s.owesClear i = false →
      step s = if s.completes i then exec i { s with script := rest, turns := s.turns.tail }
        else .next { s with turns := s.turns.tail }) ∧
    (∀ w i, s.script = .word w :: rest → decode w = .ok i → s.held i = true →
      step s = .next { s with turns := s.turns.tail }) ∧
    (∀ l, s.script = .encm l :: rest → s.encProc = none →
      step s = exec (.encm l) { s with script := rest, turns := s.turns.tail }) ∧
    (∀ b, s.script = .decm b :: rest → s.decProc = none → s.clrDue = false →
      step s = exec (.decm b) { s with script := rest, turns := s.turns.tail }) ∧
    (∀ n b, s.script = .decn n b :: rest → s.decProc = none → s.clrDue = false →
      step s = exec (.decn n b) { s with script := rest, turns := s.turns.tail }) ∧
    (∀ l, s.script = .edge l :: rest → s.edgeHeld l = false →
      step s = .next (State.edge { s with script := rest, turns := s.turns.tail } l)) ∧
    (∀ p, (p = .encClr ∨ p = .decClr) → s.script = .word ⟨p, 0⟩ :: rest →
      step s = .next { s with script := rest, turns := s.turns.tail }) ∧
    (s.script = [] → step s = .next { s with turns := s.turns.tail })) ∧
  (∀ (s : State) (j : EncJob), s.turn = .enc → s.encProc = some j →
    step s = .next (stepEncJob j { s with turns := s.turns.tail })) ∧
  (∀ (s : State) (j : DecJob), s.turn = .dec → s.decProc = some j →
    step s = .next (stepDecJob j { s with turns := s.turns.tail })) ∧
  (∀ (s : State) (u : Turn) (us : List Turn), s.turns = u :: us → s.turn = u) ∧
  (∀ s : State, s.Sequential → s.turn = .line)

/-- `42_batch.md` R164: after a batch operation that faulted, the host performs DEC.CLR before it uses DEC again. That it
does so at the next line that starts a decode is the model's reading (log entry 3). The line itself is performed by the
step after it, if that is the script's turn too. -/
def Obligations.OwedClearComesFirst : Prop :=
  ∀ (s : State) (line : Line) (rest : List Line) (i : Instr), s.turn = .line → s.decProc = none → s.clrDue = true →
    s.script = line :: rest → line.fetch = .instr i →
    (i = .dec1 ∨ (∃ b, i = .decm b) ∨ ∃ n b, i = .decn n b) →
    let d : State := { s with dec := ⟨.idle, 0, 0, false, none⟩, clrDue := false, turns := s.turns.tail }
    step s = .next d ∧
    (d.turn = .line → runFor 2 s = exec i { d with script := rest, turns := s.turns.tail.tail })

/-- `30_encoding.md` R90, `40_encode.md` R112: every instruction answers a next state in every state. That the machine has
no fault that stops it (log entry 16), and that a step refuses a word that no host can present, and nothing else, by the
name unpresentable (log entry 12), are the model's. -/
def Obligations.OnlyUnpresentableWordsAreRefused : Prop :=
  (∀ (i : Instr) (s : State), ∃ t, exec i s = .next t) ∧
  (∀ (s : State) (f : Fault), step s ≠ .fault f) ∧
  (∀ (s : State) (r : Refusal), step s = .refused r ↔
    s.turn = .line ∧ ∃ w rest, s.script = .word w :: rest ∧ 2 ^ w.port.width ≤ w.bits ∧ r = .unpresentable w.port)

/-- `10_state.md` R20, R28, R29, `20_memory.md` R54 to R57, `60_exceptions.md` R190: the output lines are functions of the
registers, the codes of the states and causes among them; a line without a meaning is not exposed. -/
def Obligations.OutputLinesFollowTheRegisters : Prop :=
  ∀ s : State,
    (s.outLines.encReady = true ↔ s.enc.st = .idle) ∧ (s.outLines.outValid = true ↔ s.enc.st = .emit) ∧
    (s.outLines.decReady = true ↔ s.dec.st = .idle ∨ s.dec.st = .done) ∧
    (s.outLines.inReady = true ↔ s.dec.st = .run) ∧ (s.outLines.decDone = true ↔ s.dec.st = .done) ∧
    (s.outLines.decFault = true ↔ s.dec.st = .fault) ∧ s.outLines.decCause = causeBits s.dec.cause ∧
    (s.enc.st = .emit → ∃ b, s.outLines.outData = some b ∧ b.toNat % 128 = s.enc.rem.toNat % 128 ∧
      (128 ≤ b.toNat ↔ 128 ≤ s.enc.rem.toNat) ∧ s.outLines.outLast = some (decide (b.toNat < 128))) ∧
    (s.enc.st = .idle → s.outLines.outData = none ∧ s.outLines.outLast = none) ∧
    (s.dec.st = .done → s.outLines.decValue = some s.dec.acc ∧ s.outLines.decNbytes = some s.dec.i) ∧
    (s.dec.st ≠ .done → s.outLines.decValue = none ∧ s.outLines.decNbytes = none) ∧
    (s.dec.cause = none → s.outLines.decCause = 0) ∧ (s.dec.cause = some .truncated → s.outLines.decCause = 1) ∧
    (s.dec.cause = some .range → s.outLines.decCause = 2) ∧
    (EncSt.code .idle = 0 ∧ EncSt.code .emit = 1) ∧
    (DecSt.code .idle = 0 ∧ DecSt.code .run = 1 ∧ DecSt.code .done = 2 ∧ DecSt.code .fault = 3)

/-- `30_encoding.md` R92, `70_reset_and_hazards.md` R234, R236: a line whose handshake cannot complete, of the script or of
a procedure, is presented for ever, and nothing changes but the turns given, which are used up. That the waiting is a step
(log entry 5), that the script waits for a procedure in progress where no turn is given (log entries 2, 17), and that lines
on a procedure's port wait (log entry 18), are the model's. -/
def Obligations.BlockedLinesWaitForEver : Prop :=
  (∀ s : State, s.Quiet → ∀ k, runFor k s = .next { s with turns := s.turns.drop k }) ∧
  (∀ s : State, s.turns = [] → (s.encProc ≠ none ∨ s.decProc ≠ none) → s.encMoves = false → s.decMoves = false →
    ∀ k, runFor k s = .next s) ∧
  (∀ (s : State) (j : EncJob), s.encProc = some j →
    ((j.busy = false ∧ j.left ≠ [] ∧ s.enc.st = .emit) ∨ (j.busy = true ∧ s.enc.st = .idle)) → s.encMoves = false) ∧
  (∀ (s : State) (j : DecJob), s.decProc = some j →
    ((j.busy = false ∧ j.wantsMore = true ∧ (s.dec.st = .run ∨ s.dec.st = .fault)) ∨
      (j.busy = true ∧ s.dec.st = .idle)) → s.decMoves = false) ∧
  (∀ (s : State) (line : Line),
    ((∃ i, line.fetch = .instr i ∧ (s.held i = true ∨ (s.owesClear i = false ∧ s.completes i = false))) ∨
      (line.fetch = .take ∧ (s.enc.st = .idle ∨ s.encProc ≠ none)) ∨
      (∃ l, line.fetch = .edge l ∧ s.edgeHeld l = true)) → s.canPerform line.fetch = false)

/-- `70_reset_and_hazards.md` R234, R240: if the host takes the bytes, an `ENC1` in progress is over after at most 10
ENC.EMIT steps. -/
def Obligations.EncFinishesWithinTenTakes : Prop :=
  ∀ (s : State) (rest : List Line), s.Sequential → s.enc.st = .emit →
    s.script = List.replicate 10 .take ++ rest →
    ∃ k t, 1 ≤ k ∧ k ≤ 10 ∧ runFor k s = .next t ∧ t.enc.st = .idle ∧
      t.script = List.replicate (10 - k) .take ++ rest ∧ t.out.length = s.out.length + k ∧ t.dec = s.dec

/-- `70_reset_and_hazards.md` R234, R240: if the host presents a buffer's tokens, a `DEC1` in progress is over, with a
result or a fault, after at most `len(B) + 1` token steps. -/
def Obligations.DecFinishesWithinTheBuffer : Prop :=
  ∀ (b : List Byte) (s : State) (rest : List Line), s.Sequential → s.dec.st = .run →
    s.script = tokenLines (bufferTokens b) ++ rest →
    ∃ k t, 1 ≤ k ∧ k ≤ b.length + 1 ∧ runFor k s = .next t ∧ (t.dec.st = .done ∨ t.dec.st = .fault) ∧
      t.script = tokenLines ((bufferTokens b).drop k) ++ rest ∧ t.enc = s.enc ∧ t.out = s.out

/-- `70_reset_and_hazards.md` R241, R234: with the script exhausted and no procedure in progress the run is either at an
end or stuck, never both; where nobody can go on and a unit is in EMIT or RUN it is stuck, whatever lines are left; and what
is stuck stays so and never becomes an end. That every step then answers the state as it is, but for the turns used up, is
the model's (log entries 5, 17). -/
def Obligations.StuckStatesAreNoEnds : Prop :=
  (∀ s : State, s.ScriptDone →
    (∀ k, runFor k s = .next { s with turns := s.turns.drop k }) ∧
    (s.RunEnded ∨ s.Stuck) ∧ ¬(s.RunEnded ∧ s.Stuck)) ∧
  (∀ s : State, s.Quiet → (s.enc.st = .emit ∨ s.dec.st = .run) → s.Stuck) ∧
  (∀ s : State, s.Stuck → ∀ k t, runFor k s = .next t → t.Stuck ∧ ¬t.RunEnded)

/-! ### Interleaving and progress -/

/-- `00_scope.md` R7, R12, `20_memory.md` R59, R64: every step of the machine, the steps of the procedures among them, is
one clock edge with the lines that the host has at it (`State.presents`): it moves the units as that edge does, and `OUT`
grows by the byte taken at it. -/
def Obligations.EveryStepIsOneEdge : Prop :=
  ∀ s t : State, step s = .next t →
    t.enc = (s.enc.edge s.presents).1 ∧ t.dec = s.dec.edge s.presents ∧
    t.out = s.out ++ (s.enc.edge s.presents).2.toList

/-- `00_scope.md` R13, `20_memory.md` R52: a token that DEC accepts at a step is `Take()` of `IN`, and `IN` is afterwards
what `Take()` leaves. What `IN` holds of a buffer in progress and of edge lines is the model's reading (log entry 20). -/
def Obligations.TokensAreTakenFromIn : Prop :=
  ∀ (s t : State) (k : Token), s.Inv → step s = .next t → s.dec.takesOn s.presents = some k →
    take? s.inTokens = some (k, t.inTokens) ∧ t.dec = s.dec.tokenStep k

/-- `00_scope.md` R8, `20_memory.md` R64, R67, `42_batch.md` R161, R164, R167: a batch procedure ends in the result of its
operation whatever falls between its steps. Each step of the machine, whoever's turn it is, leaves what the procedure will
give as it was, or ends it with exactly that, or is a reset, or a clear during the procedure's own `ENC1` or `DEC1`, which
abandons it. At the start of a procedure that result is `enc_many`, `dec_many` or `dec_n`. The model's in this: that the
procedure goes on step by step (log entry 2), that no line of the host on its unit's ports falls between its steps, since
such lines are held (log entry 18), and that a clear abandons the whole procedure then and only then (log entry 19). -/
def Obligations.BatchProceduresKeepTheirResults : Prop :=
  (∀ (s t : State) (j : EncJob), step s = .next t → s.encProc = some j → j.Inv s.enc →
    (∃ j', t.encProc = some j' ∧ j'.Inv t.enc ∧ j'.outlook t.enc = j.outlook s.enc) ∨
    (t.encProc = none ∧ t.encResult = some (j.outlook s.enc)) ∨
    (t.encProc = none ∧ (s.presents.rst = true ∨ (s.presents.encClr = true ∧ j.busy = true)))) ∧
  (∀ (s t : State) (j : DecJob), step s = .next t → s.decProc = some j → j.Inv s.dec → s.dec.Inv → j.Tracks s.dec →
    (∃ j', t.decProc = some j' ∧ j'.Inv t.dec ∧ t.dec.Inv ∧ j'.Tracks t.dec ∧ j'.outlook = j.outlook) ∨
    (t.decProc = none ∧ t.decResult = some j.outlook ∧ ((∃ c, j.outlook = .fault c) → t.clrDue = true)) ∨
    (t.decProc = none ∧ (s.presents.rst = true ∨ (s.presents.decClr = true ∧ j.busy = true)))) ∧
  (∀ (l : List Value) (e : Enc), (EncJob.mk l [] false).outlook e = encMany l) ∧
  (∀ (b : List Byte) (n : Nat) (d : Dec),
    (DecJob.mk none b 0 0 [] false).outlook = decMany b ∧ (DecJob.mk (some n) b 0 0 [] false).outlook = decN b n ∧
    (DecJob.mk none b 0 0 [] false).Tracks d ∧ (DecJob.mk (some n) b 0 0 [] false).Tracks d)

/-- `00_scope.md` R8, `20_memory.md` R67 (c), `60_exceptions.md` R199: a step of ENC and a step of DEC, of procedures or of
instructions, give the same in either order. -/
def Obligations.StepsOfTheUnitsCommute : Prop :=
  (∀ (s : State) (us : List Turn),
    runFor 2 { s with turns := .enc :: .dec :: us } = runFor 2 { s with turns := .dec :: .enc :: us }) ∧
  (∀ (s t t' u u' : State) (i i' : Instr),
    ((∃ v, i = .enc1 v) ∨ i = .encClr ∨ ∃ l, i = .encm l) →
    (i' = .dec1 ∨ i'.token?.isSome = true ∨ i' = .decClr ∨ (∃ b, i' = .decm b) ∨ ∃ n b, i' = .decn n b) →
    exec i s = .next t → exec i' t = .next u → exec i' s = .next t' → exec i t' = .next u' → u = u')

/-- `70_reset_and_hazards.md` R236, `30_encoding.md` R92: a procedure that waits to start an operation on a unit that does
not accept one waits as long as nothing resets or clears the unit, whoever else goes on. The model's in this: the procedure
and its waiting are steps (log entries 2, 5), and nothing else moves the unit, since the host's lines and edges on its ports
are held (log entry 18). -/
def Obligations.WaitingProceduresWaitUntilCleared : Prop :=
  (∀ (s : State) (j : DecJob), s.decProc = some j → j.busy = false → j.wantsMore = true →
    (s.dec.st = .run ∨ s.dec.st = .fault) → ∀ k t, runFor k s = .next t →
    (t.dec = s.dec ∧ t.decProc = some j) ∨
      ∃ m u, m < k ∧ runFor m s = .next u ∧ (u.presents.rst = true ∨ u.presents.decClr = true)) ∧
  (∀ (s : State) (j : EncJob), s.encProc = some j → j.busy = false → j.left ≠ [] →
    s.enc.st = .emit → ∀ k t, runFor k s = .next t →
    (t.enc = s.enc ∧ t.encProc = some j) ∨
      ∃ m u, m < k ∧ runFor m s = .next u ∧ (u.presents.rst = true ∨ u.presents.encClr = true))

/-- `70_reset_and_hazards.md` R234, R240, decision D18: under the fairness of the host (`State.Fair`, the premise named),
an `ENC1` in progress is over after at most 10 bytes taken, and a `DEC1` in progress that accepts, as long as it is in
progress, tokens of a buffer `B` in their order, after at most `len(B) + 1` of them, whatever else happens in between; a fair
run is never stuck; and a run that comes to an end is fair. -/
def Obligations.FairHostsFinishOperations : Prop :=
  (∀ s : State, s.Fair → s.enc.st = .emit →
    ∃ k t, runFor k s = .next t ∧ t.enc.st = .idle ∧ t.out.length ≤ s.out.length + 10) ∧
  (∀ (s : State) (b : List Byte), s.Fair → s.dec.st = .run →
    (∀ k, (∀ m u, m < k → runFor m s = .next u → u.dec.st = .run) → tokensIn k s <+: bufferTokens b) →
    ∃ k t, runFor k s = .next t ∧ t.dec.st ≠ .run ∧ (tokensIn k s).length ≤ b.length + 1) ∧
  (∀ s : State, s.Fair → ∀ k t, runFor k s = .next t → ¬t.Stuck) ∧
  (∀ (s : State) (k : Nat) (t : State), runFor k s = .next t → t.RunEnded → s.Fair)

/-- `70_reset_and_hazards.md` R221, `43_system.md` R180, R181, `93_implementation_defined.md` U7: a reset abandons a batch
operation in progress, and so does a clear during the procedure's own `ENC1` or `DEC1`, its result not read yet; it has no
result then. No other clear ends it: not one between two Values, nor one of the other unit. That a clear abandons the batch
operation together with its `ENC1` or `DEC1`, and that DECM and DECN go on after a DEC.CLR between two `DEC1`, is the
model's reading (log entry 19). -/
def Obligations.AbandonedBatchOperationsHaveNoResult : Prop :=
  ∀ s : State, s.Inv →
    (∀ j, s.encProc = some j →
      (∃ t, exec .decClr s = .next t ∧ t.encProc = some j) ∧
      (∃ t, exec .encClr s = .next t ∧
        if j.busy then t.encProc = none ∧ t.encResult = none else t.encProc = some j) ∧
      ∀ l : InLines,
        if l.rst = true ∨ (l.encClr = true ∧ j.busy = true) then
          (State.edge s l).encProc = none ∧ (State.edge s l).encResult = none
        else (State.edge s l).encProc = some j) ∧
    (∀ j, s.decProc = some j →
      (∃ t, exec .encClr s = .next t ∧ t.decProc = some j) ∧
      (∃ t, exec .decClr s = .next t ∧
        if j.busy then t.decProc = none ∧ t.decResult = none else t.decProc = some j) ∧
      ∀ l : InLines,
        if l.rst = true ∨ (l.decClr = true ∧ j.busy = true) then
          (State.edge s l).decProc = none ∧ (State.edge s l).decResult = none
        else (State.edge s l).decProc = some j)
end

