-- ==== Sys2Proof/Laws/State.lean ====
section
/-!
SUPPORT. What each update of the state leaves in each field, once, so that no later proof unfolds a record update.
-/
namespace Sys2Proof.Machine

@[simp] theorem memWrite_length (b : List Byte) (v : Byte) : memWrite b b.length v = b ++ [v] := by
  simp [memWrite]

@[simp] theorem State.put_out (s : State) (b : Byte) : (s.put b).out = s.out ++ [b] := by
  simp [State.put]

@[simp] theorem State.encEmit_out (s : State) : s.encEmit.out = s.out ++ [s.enc.outByte] := by
  simp [State.encEmit]

@[simp] theorem State.put_enc (s : State) (b : Byte) : (s.put b).enc = s.enc := rfl
@[simp] theorem State.put_dec (s : State) (b : Byte) : (s.put b).dec = s.dec := rfl
@[simp] theorem State.put_script (s : State) (b : Byte) : (s.put b).script = s.script := rfl
@[simp] theorem State.put_encProc (s : State) (b : Byte) : (s.put b).encProc = s.encProc := rfl
@[simp] theorem State.put_decProc (s : State) (b : Byte) : (s.put b).decProc = s.decProc := rfl
@[simp] theorem State.put_encResult (s : State) (b : Byte) : (s.put b).encResult = s.encResult := rfl
@[simp] theorem State.put_decResult (s : State) (b : Byte) : (s.put b).decResult = s.decResult := rfl
@[simp] theorem State.put_clrDue (s : State) (b : Byte) : (s.put b).clrDue = s.clrDue := rfl
@[simp] theorem State.put_turns (s : State) (b : Byte) : (s.put b).turns = s.turns := rfl

@[simp] theorem State.encAccept_enc (s : State) (v : Value) : (s.encAccept v).enc = s.enc.accept v := rfl
@[simp] theorem State.encAccept_dec (s : State) (v : Value) : (s.encAccept v).dec = s.dec := rfl
@[simp] theorem State.encAccept_script (s : State) (v : Value) : (s.encAccept v).script = s.script := rfl
@[simp] theorem State.encAccept_out (s : State) (v : Value) : (s.encAccept v).out = s.out := rfl
@[simp] theorem State.encAccept_encProc (s : State) (v : Value) : (s.encAccept v).encProc = s.encProc := rfl
@[simp] theorem State.encAccept_decProc (s : State) (v : Value) : (s.encAccept v).decProc = s.decProc := rfl
@[simp] theorem State.encAccept_encResult (s : State) (v : Value) : (s.encAccept v).encResult = s.encResult := rfl
@[simp] theorem State.encAccept_decResult (s : State) (v : Value) : (s.encAccept v).decResult = s.decResult := rfl
@[simp] theorem State.encAccept_clrDue (s : State) (v : Value) : (s.encAccept v).clrDue = s.clrDue := rfl
@[simp] theorem State.encAccept_turns (s : State) (v : Value) : (s.encAccept v).turns = s.turns := rfl

@[simp] theorem State.encEmit_enc (s : State) : s.encEmit.enc = s.enc.emitStep := rfl
@[simp] theorem State.encEmit_dec (s : State) : s.encEmit.dec = s.dec := rfl
@[simp] theorem State.encEmit_script (s : State) : s.encEmit.script = s.script := rfl
@[simp] theorem State.encEmit_encProc (s : State) : s.encEmit.encProc = s.encProc := rfl
@[simp] theorem State.encEmit_decProc (s : State) : s.encEmit.decProc = s.decProc := rfl
@[simp] theorem State.encEmit_encResult (s : State) : s.encEmit.encResult = s.encResult := rfl
@[simp] theorem State.encEmit_decResult (s : State) : s.encEmit.decResult = s.decResult := rfl
@[simp] theorem State.encEmit_clrDue (s : State) : s.encEmit.clrDue = s.clrDue := rfl
@[simp] theorem State.encEmit_turns (s : State) : s.encEmit.turns = s.turns := rfl

@[simp] theorem State.encClear_enc (s : State) : s.encClear.enc = s.enc.clear := rfl
@[simp] theorem State.encClear_dec (s : State) : s.encClear.dec = s.dec := rfl
@[simp] theorem State.encClear_script (s : State) : s.encClear.script = s.script := rfl
@[simp] theorem State.encClear_out (s : State) : s.encClear.out = s.out := rfl
@[simp] theorem State.encClear_encProc (s : State) : s.encClear.encProc = afterEncClr s.encProc := rfl
@[simp] theorem State.encClear_decProc (s : State) : s.encClear.decProc = s.decProc := rfl
@[simp] theorem State.encClear_encResult (s : State) : s.encClear.encResult = s.encResult := rfl
@[simp] theorem State.encClear_decResult (s : State) : s.encClear.decResult = s.decResult := rfl
@[simp] theorem State.encClear_clrDue (s : State) : s.encClear.clrDue = s.clrDue := rfl
@[simp] theorem State.encClear_turns (s : State) : s.encClear.turns = s.turns := rfl

@[simp] theorem State.decStart_enc (s : State) : s.decStart.enc = s.enc := rfl
@[simp] theorem State.decStart_dec (s : State) : s.decStart.dec = s.dec.start := rfl
@[simp] theorem State.decStart_script (s : State) : s.decStart.script = s.script := rfl
@[simp] theorem State.decStart_out (s : State) : s.decStart.out = s.out := rfl
@[simp] theorem State.decStart_encProc (s : State) : s.decStart.encProc = s.encProc := rfl
@[simp] theorem State.decStart_decProc (s : State) : s.decStart.decProc = s.decProc := rfl
@[simp] theorem State.decStart_encResult (s : State) : s.decStart.encResult = s.encResult := rfl
@[simp] theorem State.decStart_decResult (s : State) : s.decStart.decResult = s.decResult := rfl
@[simp] theorem State.decStart_clrDue (s : State) : s.decStart.clrDue = s.clrDue := rfl
@[simp] theorem State.decStart_turns (s : State) : s.decStart.turns = s.turns := rfl

@[simp] theorem State.decToken_enc (s : State) (t : Token) : (s.decToken t).enc = s.enc := rfl
@[simp] theorem State.decToken_dec (s : State) (t : Token) : (s.decToken t).dec = s.dec.tokenStep t := rfl
@[simp] theorem State.decToken_script (s : State) (t : Token) : (s.decToken t).script = s.script := rfl
@[simp] theorem State.decToken_out (s : State) (t : Token) : (s.decToken t).out = s.out := rfl
@[simp] theorem State.decToken_encProc (s : State) (t : Token) : (s.decToken t).encProc = s.encProc := rfl
@[simp] theorem State.decToken_decProc (s : State) (t : Token) : (s.decToken t).decProc = s.decProc := rfl
@[simp] theorem State.decToken_encResult (s : State) (t : Token) : (s.decToken t).encResult = s.encResult := rfl
@[simp] theorem State.decToken_decResult (s : State) (t : Token) : (s.decToken t).decResult = s.decResult := rfl
@[simp] theorem State.decToken_clrDue (s : State) (t : Token) : (s.decToken t).clrDue = s.clrDue := rfl
@[simp] theorem State.decToken_turns (s : State) (t : Token) : (s.decToken t).turns = s.turns := rfl

@[simp] theorem State.decClear_enc (s : State) : s.decClear.enc = s.enc := rfl
@[simp] theorem State.decClear_dec (s : State) : s.decClear.dec = s.dec.clear := rfl
@[simp] theorem State.decClear_script (s : State) : s.decClear.script = s.script := rfl
@[simp] theorem State.decClear_out (s : State) : s.decClear.out = s.out := rfl
@[simp] theorem State.decClear_encProc (s : State) : s.decClear.encProc = s.encProc := rfl
@[simp] theorem State.decClear_decProc (s : State) : s.decClear.decProc = afterDecClr s.decProc := rfl
@[simp] theorem State.decClear_encResult (s : State) : s.decClear.encResult = s.encResult := rfl
@[simp] theorem State.decClear_decResult (s : State) : s.decClear.decResult = s.decResult := rfl
@[simp] theorem State.decClear_clrDue (s : State) : s.decClear.clrDue = false := rfl
@[simp] theorem State.decClear_turns (s : State) : s.decClear.turns = s.turns := rfl

@[simp] theorem State.encBegin_enc (s : State) (j : EncJob) : (s.encBegin j).enc = s.enc := rfl
@[simp] theorem State.encBegin_dec (s : State) (j : EncJob) : (s.encBegin j).dec = s.dec := rfl
@[simp] theorem State.encBegin_script (s : State) (j : EncJob) : (s.encBegin j).script = s.script := rfl
@[simp] theorem State.encBegin_out (s : State) (j : EncJob) : (s.encBegin j).out = s.out := rfl
@[simp] theorem State.encBegin_encProc (s : State) (j : EncJob) : (s.encBegin j).encProc = some j := rfl
@[simp] theorem State.encBegin_decProc (s : State) (j : EncJob) : (s.encBegin j).decProc = s.decProc := rfl
@[simp] theorem State.encBegin_encResult (s : State) (j : EncJob) : (s.encBegin j).encResult = none := rfl
@[simp] theorem State.encBegin_decResult (s : State) (j : EncJob) : (s.encBegin j).decResult = s.decResult := rfl
@[simp] theorem State.encBegin_clrDue (s : State) (j : EncJob) : (s.encBegin j).clrDue = s.clrDue := rfl
@[simp] theorem State.encBegin_turns (s : State) (j : EncJob) : (s.encBegin j).turns = s.turns := rfl

@[simp] theorem State.decBegin_enc (s : State) (j : DecJob) : (s.decBegin j).enc = s.enc := rfl
@[simp] theorem State.decBegin_dec (s : State) (j : DecJob) : (s.decBegin j).dec = s.dec := rfl
@[simp] theorem State.decBegin_script (s : State) (j : DecJob) : (s.decBegin j).script = s.script := rfl
@[simp] theorem State.decBegin_out (s : State) (j : DecJob) : (s.decBegin j).out = s.out := rfl
@[simp] theorem State.decBegin_encProc (s : State) (j : DecJob) : (s.decBegin j).encProc = s.encProc := rfl
@[simp] theorem State.decBegin_decProc (s : State) (j : DecJob) : (s.decBegin j).decProc = some j := rfl
@[simp] theorem State.decBegin_encResult (s : State) (j : DecJob) : (s.decBegin j).encResult = s.encResult := rfl
@[simp] theorem State.decBegin_decResult (s : State) (j : DecJob) : (s.decBegin j).decResult = none := rfl
@[simp] theorem State.decBegin_clrDue (s : State) (j : DecJob) : (s.decBegin j).clrDue = s.clrDue := rfl
@[simp] theorem State.decBegin_turns (s : State) (j : DecJob) : (s.decBegin j).turns = s.turns := rfl

@[simp] theorem State.encFinish_enc (s : State) (bs : List Byte) : (s.encFinish bs).enc = s.enc := rfl
@[simp] theorem State.encFinish_dec (s : State) (bs : List Byte) : (s.encFinish bs).dec = s.dec := rfl
@[simp] theorem State.encFinish_script (s : State) (bs : List Byte) : (s.encFinish bs).script = s.script := rfl
@[simp] theorem State.encFinish_out (s : State) (bs : List Byte) : (s.encFinish bs).out = s.out := rfl
@[simp] theorem State.encFinish_encProc (s : State) (bs : List Byte) : (s.encFinish bs).encProc = none := rfl
@[simp] theorem State.encFinish_decProc (s : State) (bs : List Byte) : (s.encFinish bs).decProc = s.decProc := rfl
@[simp] theorem State.encFinish_encResult (s : State) (bs : List Byte) : (s.encFinish bs).encResult = some bs := rfl
@[simp] theorem State.encFinish_decResult (s : State) (bs : List Byte) :
    (s.encFinish bs).decResult = s.decResult := rfl
@[simp] theorem State.encFinish_clrDue (s : State) (bs : List Byte) : (s.encFinish bs).clrDue = s.clrDue := rfl
@[simp] theorem State.encFinish_turns (s : State) (bs : List Byte) : (s.encFinish bs).turns = s.turns := rfl

@[simp] theorem State.decFinish_enc (s : State) (r : Result) : (s.decFinish r).enc = s.enc := rfl
@[simp] theorem State.decFinish_dec (s : State) (r : Result) : (s.decFinish r).dec = s.dec := rfl
@[simp] theorem State.decFinish_script (s : State) (r : Result) : (s.decFinish r).script = s.script := rfl
@[simp] theorem State.decFinish_out (s : State) (r : Result) : (s.decFinish r).out = s.out := rfl
@[simp] theorem State.decFinish_encProc (s : State) (r : Result) : (s.decFinish r).encProc = s.encProc := rfl
@[simp] theorem State.decFinish_decProc (s : State) (r : Result) : (s.decFinish r).decProc = none := rfl
@[simp] theorem State.decFinish_encResult (s : State) (r : Result) : (s.decFinish r).encResult = s.encResult := rfl
@[simp] theorem State.decFinish_decResult (s : State) (r : Result) : (s.decFinish r).decResult = some r := rfl
@[simp] theorem State.decFinish_clrDue (s : State) (r : Result) : (s.decFinish r).clrDue = s.clrDue := rfl
@[simp] theorem State.decFinish_turns (s : State) (r : Result) : (s.decFinish r).turns = s.turns := rfl

/-- A clear of ENC leaves a procedure that is at no `ENC1` of its own, and no other. -/
@[simp] theorem afterEncClr_some (j : EncJob) : afterEncClr (some j) = if j.busy then none else some j := by
  cases hb : j.busy <;> simp [afterEncClr, hb]

@[simp] theorem afterEncClr_none : afterEncClr none = none := rfl

/-- The same, read from what is left. -/
theorem afterEncClr_eq_some {p : Option EncJob} {j : EncJob} :
    afterEncClr p = some j ↔ p = some j ∧ j.busy = false := by
  simp [afterEncClr, Option.filter_eq_some_iff]

/-- A clear of DEC leaves a procedure that is at no `DEC1` of its own, and no other. -/
@[simp] theorem afterDecClr_some (j : DecJob) : afterDecClr (some j) = if j.busy then none else some j := by
  cases hb : j.busy <;> simp [afterDecClr, hb]

@[simp] theorem afterDecClr_none : afterDecClr none = none := rfl

/-- The same, read from what is left. -/
theorem afterDecClr_eq_some {p : Option DecJob} {j : DecJob} :
    afterDecClr p = some j ↔ p = some j ∧ j.busy = false := by
  simp [afterDecClr, Option.filter_eq_some_iff]

@[simp] theorem State.edge_enc (s : State) (l : InLines) : (s.edge l).enc = (s.enc.edge l).1 := rfl
@[simp] theorem State.edge_dec (s : State) (l : InLines) : (s.edge l).dec = s.dec.edge l := rfl
@[simp] theorem State.edge_script (s : State) (l : InLines) : (s.edge l).script = s.script := rfl
@[simp] theorem State.edge_out (s : State) (l : InLines) : (s.edge l).out = s.out ++ (s.enc.edge l).2.toList := rfl
@[simp] theorem State.edge_encProc (s : State) (l : InLines) :
    (s.edge l).encProc = if l.rst then none else if l.encClr then afterEncClr s.encProc else s.encProc := rfl
@[simp] theorem State.edge_decProc (s : State) (l : InLines) :
    (s.edge l).decProc = if l.rst then none else if l.decClr then afterDecClr s.decProc else s.decProc := rfl
@[simp] theorem State.edge_encResult (s : State) (l : InLines) : (s.edge l).encResult = s.encResult := rfl
@[simp] theorem State.edge_decResult (s : State) (l : InLines) : (s.edge l).decResult = s.decResult := rfl
@[simp] theorem State.edge_clrDue (s : State) (l : InLines) :
    (s.edge l).clrDue = (s.clrDue && !(l.rst || l.decClr)) := rfl
@[simp] theorem State.edge_turns (s : State) (l : InLines) : (s.edge l).turns = s.turns := rfl

end Sys2Proof.Machine
end

