-- ==== Sys2Proof/Laws/Ops.lean ====
section
/-!
SUPPORT. One lemma per shared operation that says everything it can do: the handshake, the steps of the units, a clock
edge, a step of a batch procedure, a step of the machine. Proofs cite these and do not unfold the operations.
-/
namespace Sys2Proof.Machine

/-- A handshake always answers a next state: its effect, or the same state. -/
theorem handshake_eq_next {s t : State} {ready : Bool} {f : State → State}
    (h : s.handshake ready f = .next t) : (ready = true ∧ t = f s) ∨ (ready = false ∧ t = s) := by
  unfold State.handshake at h
  cases ready <;> simp_all

@[simp] theorem handshake_true (s : State) (f : State → State) : s.handshake true f = .next (f s) := rfl

@[simp] theorem handshake_false (s : State) (f : State → State) : s.handshake false f = .next s := rfl

@[simp] theorem Enc.ready_iff (e : Enc) : e.ready = true ↔ e.st = .idle := by simp [Enc.ready]

@[simp] theorem Enc.outValid_iff (e : Enc) : e.outValid = true ↔ e.st = .emit := by simp [Enc.outValid]

@[simp] theorem Dec.ready_iff (d : Dec) : d.ready = true ↔ d.st = .idle ∨ d.st = .done := by simp [Dec.ready]

@[simp] theorem Dec.inReady_iff (d : Dec) : d.inReady = true ↔ d.st = .run := by simp [Dec.inReady]

@[simp] theorem Enc.ready_false_iff (e : Enc) : e.ready = false ↔ e.st = .emit := by
  cases h : e.st <;> simp [Enc.ready, h]

@[simp] theorem Enc.outValid_false_iff (e : Enc) : e.outValid = false ↔ e.st = .idle := by
  cases h : e.st <;> simp [Enc.outValid, h]

@[simp] theorem Dec.ready_false_iff (d : Dec) : d.ready = false ↔ d.st = .run ∨ d.st = .fault := by
  cases h : d.st <;> simp [Dec.ready, h]

@[simp] theorem Dec.inReady_false_iff (d : Dec) : d.inReady = false ↔ d.st ≠ .run := by
  cases h : d.st <;> simp [Dec.inReady, h]

/-- What DEC.BYTE leaves, by where it goes: on, to a fault, or to a result. -/
theorem Dec.byteStep_cases (d : Dec) (b : Byte) :
    (contBit b = true ∧ d.byteStep b = { d.absorb (payload b) with st := .run }) ∨
    (contBit b = false ∧ nextOvf d (payload b) = true ∧
      d.byteStep b = { d.absorb (payload b) with st := .fault, cause := some .range }) ∨
    (contBit b = false ∧ nextOvf d (payload b) = false ∧
      d.byteStep b = { d.absorb (payload b) with st := .done }) := by
  cases hc : contBit b
  · cases ho : nextOvf d (payload b) <;> simp [Dec.byteStep, Dec.absorb, Dec.raise, hc, ho]
  · simp [Dec.byteStep, hc]

/-- What one edge does to ENC. -/
theorem Enc.edge_cases (e : Enc) (l : InLines) :
    ((l.rst = true ∨ l.encClr = true) ∧ e.edge l = (Enc.reset, none)) ∨
    (l.rst = false ∧ l.encClr = false ∧ l.encValid = true ∧ e.st = .idle ∧ e.edge l = (e.accept l.encValue, none)) ∨
    (l.rst = false ∧ l.encClr = false ∧ l.outReady = true ∧ e.st = .emit ∧
      e.edge l = (e.emitStep, some e.outByte)) ∨
    e.edge l = (e, none) := by
  unfold Enc.edge
  split
  · simp_all
  · split
    · simp_all [Enc.clear, Enc.reset]
    · split
      · simp_all
      · split <;> simp_all

/-- What one edge does to DEC. -/
theorem Dec.edge_cases (d : Dec) (l : InLines) :
    ((l.rst = true ∨ l.decClr = true) ∧ d.edge l = Dec.reset) ∨
    (l.rst = false ∧ l.decClr = false ∧ l.decStart = true ∧ (d.st = .idle ∨ d.st = .done) ∧ d.edge l = d.start) ∨
    (l.rst = false ∧ l.decClr = false ∧ l.inValid = true ∧ d.st = .run ∧
      d.edge l = d.tokenStep (tokenOf l.inEob l.inData)) ∨
    d.edge l = d := by
  unfold Dec.edge
  split
  · simp_all
  · split
    · simp_all [Dec.clear, Dec.reset]
    · split
      · simp_all
      · split <;> simp_all

/-- A clock edge steps ENC exactly when it says so; otherwise it leaves it, and no byte is taken. -/
theorem Enc.edge_of_not_steps {e : Enc} {l : InLines} (h : e.stepsOn l = false) : e.edge l = (e, none) := by
  simp only [Enc.stepsOn, Bool.or_eq_false_iff] at h
  obtain ⟨⟨⟨h1, h2⟩, h3⟩, h4⟩ := h
  simp [Enc.edge, h1, h2, h3, h4]

/-- A clock edge steps DEC exactly when it says so; otherwise it leaves it. -/
theorem Dec.edge_of_not_steps {d : Dec} {l : InLines} (h : d.stepsOn l = false) : d.edge l = d := by
  simp only [Dec.stepsOn, Bool.or_eq_false_iff] at h
  obtain ⟨⟨⟨h1, h2⟩, h3⟩, h4⟩ := h
  simp [Dec.edge, h1, h2, h3, h4]

/-- DEC in its own words: no result while it runs. -/
theorem Dec.result_cases (d : Dec) :
    (d.result = none ∧ (d.st = .idle ∨ d.st = .run ∨ (d.st = .fault ∧ d.cause = none))) ∨
    (d.st = .done ∧ d.result = some (.ok d.acc d.i.toNat)) ∨
    (∃ c, d.st = .fault ∧ d.cause = some c ∧ d.result = some (.fault c)) := by
  cases h : d.st <;> cases hc : d.cause <;> simp [Dec.result, h, hc]

/-- A token alone on DEC's lines: accepted in RUN, and otherwise not. -/
theorem Dec.edge_token (d : Dec) (t : Token) : d.edge t.lines = if d.inReady then d.tokenStep t else d := by
  cases t <;> simp [Dec.edge, Token.lines, tokenOf]

/-- The tokens of a procedure's buffer, as long as bytes are left. -/
theorem DecJob.nextToken_of_lt {j : DecJob} (h : j.accepted < j.buf.length) : j.nextToken = .byte j.buf[j.accepted] := by
  unfold DecJob.nextToken DecJob.input bufferTokens
  rw [List.drop_append_of_le_length (by simp; omega), ← List.map_drop, List.drop_eq_getElem_cons h]
  rfl

/-- After the last byte comes `EOB`. -/
theorem DecJob.nextToken_of_ge {j : DecJob} (h : j.buf.length ≤ j.accepted) : j.nextToken = .eob := by
  unfold DecJob.nextToken DecJob.input bufferTokens
  rw [List.drop_append, List.drop_eq_nil_of_le (by simpa using h)]
  cases hx : j.accepted - j.buf.length <;> simp [hx, take?]

theorem DecJob.nextAccepted_eq (j : DecJob) : j.nextAccepted = min (j.accepted + 1) (j.buf.length + 1) := by
  simp [DecJob.nextAccepted, bufferTokens]

/-- What one step of the ENCM procedure does. -/
theorem stepEncJob_cases (j : EncJob) (s : State) :
    (j.busy = true ∧ s.enc.st = .emit ∧ j.canMove s.enc = true ∧ stepEncJob j s =
      { s.encEmit with encProc := some { j with taken := j.taken ++ [s.enc.outByte], busy := s.enc.more } }) ∨
    (j.busy = false ∧ j.left = [] ∧ j.canMove s.enc = true ∧ stepEncJob j s = s.encFinish j.taken) ∨
    (∃ v vs, j.busy = false ∧ j.left = v :: vs ∧ s.enc.st = .idle ∧ j.canMove s.enc = true ∧ stepEncJob j s =
      { s.encAccept v with encProc := some { j with left := vs, busy := true } }) ∨
    (j.canMove s.enc = false ∧ stepEncJob j s = s) := by
  unfold stepEncJob EncJob.canMove
  cases hb : j.busy
  · cases hl : j.left with
    | nil => simp
    | cons v vs => cases he : s.enc.st <;> simp [Enc.ready, he]
  · cases he : s.enc.st <;> simp [Enc.outValid, Enc.outLast, he]

/-- What one step of a DECM or DECN procedure does. -/
theorem stepDecJob_cases (j : DecJob) (s : State) :
    (j.busy = true ∧ s.dec.st = .done ∧ j.canMove s.dec = true ∧
      stepDecJob j s = { s with decProc := some (j.collect s.dec.acc s.dec.i.toNat) }) ∨
    (∃ c, j.busy = true ∧ s.dec.st = .fault ∧ s.dec.cause = some c ∧ j.canMove s.dec = true ∧
      stepDecJob j s = { s.decFinish (.fault c) with clrDue := true }) ∨
    (j.busy = true ∧ s.dec.st = .run ∧ j.canMove s.dec = true ∧ stepDecJob j s =
      { s.decToken j.nextToken with decProc := some { j with accepted := j.nextAccepted } }) ∨
    (j.busy = false ∧ j.wantsMore = true ∧ (s.dec.st = .idle ∨ s.dec.st = .done) ∧ j.canMove s.dec = true ∧
      stepDecJob j s = { s.decStart with decProc := some { j with busy := true } }) ∨
    (j.busy = false ∧ j.wantsMore = false ∧ j.canMove s.dec = true ∧ stepDecJob j s = s.decFinish j.outcome) ∨
    (j.canMove s.dec = false ∧ stepDecJob j s = s) := by
  unfold stepDecJob DecJob.canMove
  cases hb : j.busy
  · cases hw : j.wantsMore
    · simp
    · cases hd : s.dec.st <;> simp [Dec.ready, hd]
  · cases hd : s.dec.st <;> cases hc : s.dec.cause <;> simp [Dec.result, Dec.inReady, hd, hc]

/-- What one step of the machine does: nothing, but for the turn used up; a step of a procedure; an instruction of the
script, or the clear owed before it; a byte taken; an edge or an idle line; or it refuses a word no host can present. In
each case, the lines that the host has at it (`State.presents`). -/
theorem step_cases (s : State) :
    (s.presents = {} ∧ step s = .next { s with turns := s.turns.tail }) ∨
    (∃ j, s.turn = .enc ∧ s.encProc = some j ∧ s.presents = j.lines ∧
      step s = .next (stepEncJob j { s with turns := s.turns.tail })) ∨
    (∃ j, s.turn = .dec ∧ s.decProc = some j ∧ s.presents = j.lines s.dec ∧
      step s = .next (stepDecJob j { s with turns := s.turns.tail })) ∨
    (∃ line rest i, s.turn = .line ∧ s.script = line :: rest ∧ line.fetch = .instr i ∧ s.held i = false ∧
      s.owesClear i = true ∧ s.presents = { decClr := true } ∧
      step s = .next (State.decClear { s with turns := s.turns.tail })) ∨
    (∃ line rest i, s.turn = .line ∧ s.script = line :: rest ∧ line.fetch = .instr i ∧ s.held i = false ∧
      s.owesClear i = false ∧ s.completes i = true ∧ s.presents = i.lines ∧
      step s = exec i { s with script := rest, turns := s.turns.tail }) ∨
    (∃ line rest, s.turn = .line ∧ s.script = line :: rest ∧ line.fetch = .take ∧ s.encProc = none ∧
      s.enc.st = .emit ∧ s.presents = { outReady := true } ∧
      step s = .next (State.encEmit { s with script := rest, turns := s.turns.tail })) ∨
    (∃ line rest l, s.turn = .line ∧ s.script = line :: rest ∧ line.fetch = .edge l ∧ s.edgeHeld l = false ∧
      s.presents = l ∧ step s = .next (State.edge { s with script := rest, turns := s.turns.tail } l)) ∨
    (∃ line rest, s.turn = .line ∧ s.script = line :: rest ∧ line.fetch = .idle ∧ s.presents = {} ∧
      step s = .next { s with script := rest, turns := s.turns.tail }) ∨
    (∃ line rest p, s.turn = .line ∧ s.script = line :: rest ∧ line.fetch = .unpresentable p ∧ s.presents = {} ∧
      step s = .refused (.unpresentable p)) := by
  have hw : ∀ f rest, s.canPerform f = false →
      performLine f rest { s with turns := s.turns.tail } = .next { s with turns := s.turns.tail } := by
    intro f rest h
    have h' : State.canPerform { s with turns := s.turns.tail } f = false := h
    simp [performLine, h']
  have hd : ∀ f rest, s.canPerform f = true →
      performLine f rest { s with turns := s.turns.tail } =
        match f with
        | .instr i => performInstr i rest { s with turns := s.turns.tail }
        | .take => takeByte { s with script := rest, turns := s.turns.tail }
        | .edge l => .next (State.edge { s with script := rest, turns := s.turns.tail } l)
        | .idle => .next { s with script := rest, turns := s.turns.tail }
        | .unpresentable p => .refused (.unpresentable p) := by
    intro f rest h
    have h' : State.canPerform { s with turns := s.turns.tail } f = true := h
    cases f <;> simp [performLine, h']
  cases ht : s.turn with
  | wait => simp [step, hostStep, takeTurn, State.presents, ht]
  | enc =>
    cases hp : s.encProc with
    | none => simp [step, hostStep, takeTurn, State.presents, ht, hp]
    | some j => simp [step, hostStep, takeTurn, State.presents, ht, hp]
  | dec =>
    cases hp : s.decProc with
    | none => simp [step, hostStep, takeTurn, State.presents, ht, hp]
    | some j => simp [step, hostStep, takeTurn, State.presents, ht, hp]
  | line =>
    cases hs : s.script with
    | nil => simp [step, hostStep, takeTurn, State.presents, ht, hs]
    | cons line rest =>
      have hst : step s = performLine line.fetch rest { s with turns := s.turns.tail } := by
        simp [step, hostStep, takeTurn, ht, hs]
      have hpr : s.presents = s.scriptLines line.fetch := by simp [State.presents, ht, hs]
      cases hc : s.canPerform line.fetch
      · left
        exact ⟨by rw [hpr]; simp [State.scriptLines, hc], by rw [hst, hw _ _ hc, hs]⟩
      · right; right; right
        rw [hst, hd _ _ hc, hpr]
        cases hf : line.fetch with
        | instr i =>
          rw [hf] at hc
          simp only [State.canPerform, Bool.and_eq_true, Bool.not_eq_true', Bool.or_eq_true] at hc
          obtain ⟨hh, hc⟩ := hc
          cases ho : s.owesClear i
          · right; left
            have hcc : s.completes i = true := by simpa [ho] using hc
            have ho' : State.owesClear { s with turns := s.turns.tail } i = false := ho
            exact ⟨line, rest, i, rfl, rfl, hf, hh, ho, hcc,
              by simp [State.scriptLines, State.canPerform, hh, ho, hcc], by simp [performInstr, ho']⟩
          · left
            have ho' : State.owesClear { s with turns := s.turns.tail } i = true := ho
            exact ⟨line, rest, i, rfl, rfl, hf, hh, ho,
              by simp [State.scriptLines, State.canPerform, hh, ho], by
                show performInstr i rest _ = _
                rw [hs] at ho' ⊢
                rw [performInstr, if_pos ho', execDecClr, handshake_true]⟩
        | take =>
          rw [hf] at hc
          have hc' := hc
          simp only [State.canPerform, Bool.and_eq_true, Option.isNone_iff_eq_none, Enc.outValid_iff] at hc'
          right; right; left
          have hv : s.enc.outValid = true := by simp [hc'.2]
          exact ⟨line, rest, rfl, rfl, hf, hc'.1, hc'.2, by simp [State.scriptLines, hc],
            by simp [takeByte, hv]⟩
        | edge l =>
          rw [hf] at hc
          have hc' := hc
          simp only [State.canPerform, Bool.not_eq_true'] at hc'
          right; right; right; left
          exact ⟨line, rest, l, rfl, rfl, hf, hc', by simp [State.scriptLines, hc], rfl⟩
        | idle =>
          right; right; right; right; left
          exact ⟨line, rest, rfl, rfl, hf, by simp [State.scriptLines], rfl⟩
        | unpresentable p =>
          right; right; right; right; right
          exact ⟨line, rest, p, rfl, rfl, hf, by simp [State.scriptLines], rfl⟩

/-! What is claimed of a procedure that is at no operation of its own does not depend on its unit's registers, so it
outlasts a clear. -/

theorem EncJob.inv_of_not_busy {j : EncJob} (hb : j.busy = false) (e : Enc) : j.Inv e := by
  simp [EncJob.Inv, hb]

theorem EncJob.outlook_of_not_busy {j : EncJob} (hb : j.busy = false) (e e' : Enc) : j.outlook e = j.outlook e' := by
  simp [EncJob.outlook, hb]

theorem DecJob.inv_of_not_busy {j : DecJob} {d : Dec} (h : j.Inv d) (hb : j.busy = false) (d' : Dec) : j.Inv d' := by
  simpa [DecJob.Inv, hb] using h

theorem DecJob.tracks_of_not_busy {j : DecJob} (hb : j.busy = false) (d : Dec) : j.Tracks d := by
  simp [DecJob.Tracks, hb]

end Sys2Proof.Machine
end

