-- ==== Sys2Proof/Laws/Bits.lean ====
section
/-!
SUPPORT. The bit fields as numbers: what the operand forms and the flags give, in natural numbers (`40_encode.md` R115,
`41_decode.md` R138).
-/
namespace Sys2Proof.Machine

open Sys2Proof

@[simp] theorem contBit_byteOf (c : Bool) (p : Payload) : contBit (byteOf c p) = c := by
  revert p
  cases c <;> decide

@[simp] theorem payload_byteOf (c : Bool) (p : Payload) : payload (byteOf c p) = p := by
  revert p
  cases c <;> decide

theorem byteOf_fields (b : Byte) : byteOf (contBit b) (payload b) = b := by
  revert b
  decide

theorem byteOf_toNat (c : Bool) (p : Payload) : (byteOf c p).toNat = c.toNat * 128 + p.toNat := by
  unfold byteOf
  rw [BitVec.toNat_append, Nat.shiftLeft_eq, Nat.mul_comm, ← Nat.two_pow_add_eq_or_of_lt p.isLt]
  cases c <;> simp

theorem tokenBits_toNat (e : Bool) (b : Byte) : (tokenBits e b).toNat = e.toNat * 256 + b.toNat := by
  unfold tokenBits
  rw [BitVec.toNat_append, Nat.shiftLeft_eq, Nat.mul_comm, ← Nat.two_pow_add_eq_or_of_lt b.isLt]
  cases e <;> simp

theorem payload_toNat (b : Byte) : (payload b).toNat = b.toNat % 128 := by
  simp [payload, BitVec.extractLsb'_toNat]

theorem contBit_eq_decide (b : Byte) : contBit b = decide (128 ≤ b.toNat) := by
  have h := byteOf_toNat (contBit b) (payload b)
  rw [byteOf_fields] at h
  have hp := (payload b).isLt
  cases hc : contBit b <;> simp [hc] at h ⊢ <;> omega

theorem highPayload_toNat (p : Payload) : (highPayload p).toNat = p.toNat / 2 := by
  have := p.isLt
  simp [highPayload, BitVec.extractLsb'_toNat, Nat.shiftRight_eq_div_pow]
  omega

theorem shiftGroup_toNat (v : Value) : (shiftGroup v).toNat = v.toNat / 128 := by
  simp [shiftGroup, Config.payloadWidth, Nat.shiftRight_eq_div_pow]

theorem lowGroup_toNat (v : Value) : (lowGroup v).toNat = v.toNat % 128 := by
  simp [lowGroup, BitVec.extractLsb'_toNat]

theorem group_toNat (v : Value) (k : Nat) : (group v k).toNat = v.toNat / 2 ^ (7 * k) % 128 := by
  simp [group, BitVec.extractLsb'_toNat, Config.payloadWidth, Nat.shiftRight_eq_div_pow]

/-- `(v >> 7) = 0` exactly below 128. -/
theorem shiftGroup_eq_zero_iff (v : Value) : shiftGroup v = 0 ↔ v.toNat < 128 := by
  rw [← BitVec.toNat_inj, shiftGroup_toNat]
  simp only [BitVec.ofNat_eq_ofNat, BitVec.toNat_ofNat, Nat.zero_mod]
  omega

theorem Enc.more_eq_decide (e : Enc) : e.more = decide (128 ≤ e.rem.toNat) := by
  unfold Enc.more
  rw [bne, Bool.eq_iff_iff, Bool.not_eq_true', beq_eq_false_iff_ne, ne_eq, shiftGroup_eq_zero_iff]
  simp

theorem Enc.outByte_toNat (e : Enc) :
    e.outByte.toNat = e.rem.toNat % 128 + if e.rem.toNat < 128 then 0 else 128 := by
  rw [Enc.outByte, byteOf_toNat, lowGroup_toNat, Enc.more_eq_decide]
  by_cases h : e.rem.toNat < 128
  · simp [h, Nat.not_le.2 h]
  · simp [h, Nat.not_lt.1 h]
    omega

/-- The field write of indexes 0 to 8: nothing is lost. -/
theorem orGroup_toNat (acc : Value) (p : Payload) (i : ByteIndex) (hi : i.toNat ≤ 8) :
    (orGroup acc p i).toNat = acc.toNat ||| (p.toNat <<< (7 * i.toNat)) := by
  have hp := p.isLt
  have h64 : p.toNat % 2 ^ 64 = p.toNat := by omega
  have hlt : p.toNat <<< (7 * i.toNat) < 2 ^ 64 := by
    rw [Nat.shiftLeft_eq]
    calc p.toNat * 2 ^ (7 * i.toNat) < 2 ^ 7 * 2 ^ (7 * i.toNat) :=
          Nat.mul_lt_mul_of_pos_right hp (by positivity)
      _ = 2 ^ (7 + 7 * i.toNat) := (pow_add _ _ _).symm
      _ ≤ 2 ^ 64 := Nat.pow_le_pow_right (by omega) (by omega)
  simp only [orGroup, Config.payloadWidth, BitVec.toNat_or, BitVec.toNat_shiftLeft, BitVec.toNat_setWidth, h64,
    Nat.mod_eq_of_lt hlt]

theorem orTopBit_toNat (acc : Value) (p : Payload) :
    (orTopBit acc p).toNat = acc.toNat ||| ((p.toNat % 2) <<< 63) := by
  have h : p.toNat % 2 = 0 ∨ p.toNat % 2 = 1 := by omega
  simp only [orTopBit, BitVec.toNat_or, BitVec.toNat_shiftLeft, BitVec.toNat_setWidth, BitVec.extractLsb'_toNat,
    Nat.shiftRight_zero, pow_one]
  rcases h with h | h <;> simp [h]

theorem nextIndex_toNat (i : ByteIndex) : (nextIndex i).toNat = min (i.toNat + 1) 10 := by
  simp only [nextIndex, Config.indexMax, BitVec.toNat_ofNat]
  omega

theorem index_le_eight_iff (i : ByteIndex) : i ≤ 8 ↔ i.toNat ≤ 8 := by
  simp [BitVec.le_def]

theorem index_eq_nine_iff (i : ByteIndex) : i = 9 ↔ i.toNat = 9 := by
  simp [← BitVec.toNat_inj]

/-- `D.acc` after a byte, as a number. -/
theorem nextAcc_toNat (d : Dec) (p : Payload) : (nextAcc d p).toNat =
    if d.i.toNat ≤ 8 then d.acc.toNat ||| (p.toNat <<< (7 * d.i.toNat))
    else if d.i.toNat = 9 then d.acc.toNat ||| ((p.toNat % 2) <<< 63)
    else d.acc.toNat := by
  simp only [nextAcc, index_le_eight_iff, index_eq_nine_iff]
  split
  · exact orGroup_toNat _ _ _ ‹_›
  · split
    · exact orTopBit_toNat _ _
    · rfl

/-- `D.ovf` after a byte, by the index as a number. -/
theorem nextOvf_eq (d : Dec) (p : Payload) : nextOvf d p =
    if d.i.toNat ≤ 8 then d.ovf else if d.i.toNat = 9 then (p.toNat / 2 != 0) || d.ovf else true := by
  have h : (highPayload p != 0) = (p.toNat / 2 != 0) := by
    rw [Bool.eq_iff_iff, bne_iff_ne, bne_iff_ne, ne_eq, ← BitVec.toNat_inj, highPayload_toNat]
    simp
  simp only [nextOvf, index_le_eight_iff, index_eq_nine_iff, h]

/-- An or with a field above `a` is a sum. -/
theorem or_shiftLeft_eq_add (a p k : Nat) (h : a < 2 ^ k) : a ||| (p <<< k) = a + p * 2 ^ k := by
  rw [Nat.shiftLeft_eq, Nat.or_comm, Nat.mul_comm p, ← Nat.two_pow_add_eq_or_of_lt h, Nat.add_comm]

end Sys2Proof.Machine
end

