-- ==== Sys2Proof/Laws/Codec.lean ====
section
/-!
SUPPORT. The operation level in lemmas: the recursion of `enc1`, lengths, the sum of a run, the terminating byte, what
`dec1` answers and when, and the recursions of `dec_many` and `dec_n` (`40_encode.md` R110, R111, `41_decode.md` R130,
R136, `42_batch.md` R163, R166).
-/
namespace Sys2Proof.Machine

open Sys2Proof

/-- The bound on the iterations of `enc1Loop` does not matter once it is large enough. -/
theorem enc1Loop_succ (n : Nat) (v : Value) (h : v.toNat < 2 ^ (7 * (n+1))) :
    enc1Loop (n + 2) v = enc1Loop (n + 1) v := by
  induction n generalizing v with
  | zero =>
    have : shiftGroup v = 0 := by rw [shiftGroup_eq_zero_iff]; simpa using h
    simp [enc1Loop, this]
  | succ n ih =>
    rw [enc1Loop]
    conv_rhs => rw [enc1Loop]
    rw [ih]
    rw [shiftGroup_toNat, Nat.div_lt_iff_lt_mul (by omega)]
    calc _ < _ := h
      _ = _ := by rw [show 7 * (n+1+1) = 7*(n+1) + 7 by ring, pow_add]; rfl

/-- The recursion of `enc1` (`40_encode.md` R110). -/
theorem enc1_eq (v : Value) : enc1 v = if shiftGroup v = 0 then [byteOf false (lowGroup v)]
    else byteOf true (lowGroup v) :: enc1 (shiftGroup v) := by
  have : (shiftGroup v).toNat < 2 ^ (7 * (8+1)) := by
    rw [shiftGroup_toNat]; have := v.isLt; omega
  conv_rhs => rw [enc1, Config.maxBytes, enc1Loop_succ 8 _ this]
  rfl

/-- A Value below 128 is one byte. -/
theorem enc1_last (v : Value) (h : v.toNat < 128) : enc1 v = [byteOf false (lowGroup v)] := by
  rw [enc1_eq, if_pos ((shiftGroup_eq_zero_iff v).2 h)]

/-- A Value from 128 on: its low group, then the form of the rest. -/
theorem enc1_more (v : Value) (h : 128 ≤ v.toNat) : enc1 v = byteOf true (lowGroup v) :: enc1 (shiftGroup v) := by
  rw [enc1_eq, if_neg]; rw [shiftGroup_eq_zero_iff]; omega

/-- Induction over the groups of a Value. -/
theorem value_induction {P : Value → Prop} (last : ∀ v : Value, v.toNat < 128 → P v)
    (more : ∀ v : Value, 128 ≤ v.toNat → P (shiftGroup v) → P v) (v : Value) : P v := by
  have : ∀ n (v : Value), v.toNat < n → P v := by
    intro n
    induction n with
    | zero => intro v h; omega
    | succ n ih =>
      intro v h
      by_cases hv : v.toNat < 128
      · exact last v hv
      · apply more v (by omega); apply ih; rw [shiftGroup_toNat]; omega
  exact this _ v (Nat.lt_succ_self _)

theorem bitLength_le_iff (v n : Nat) : bitLength v ≤ n ↔ v < 2 ^ n := by
  unfold bitLength
  split
  · rename_i h; subst h; simp
  · rename_i h
    rw [Nat.add_one_le_iff, Nat.log2_lt h]

/-- The length of a form is at most `n` exactly for the Values of `7n` bits. -/
theorem formLength_le_iff (v : Value) (n : Nat) : formLength v ≤ n ↔ 1 ≤ n ∧ v.toNat < 2 ^ (7 * n) := by
  rw [← bitLength_le_iff, formLength, Config.minBytes, Config.payloadWidth, ceilDiv]
  omega

theorem formLength_last (v : Value) (h : v.toNat < 128) : formLength v = 1 := by
  have h1 := (formLength_le_iff v 1).2 ⟨by omega, by simpa using h⟩
  have h2 := (formLength_le_iff v 0)
  omega

theorem formLength_more (v : Value) (h : 128 ≤ v.toNat) : formLength v = formLength (shiftGroup v) + 1 := by
  have key : ∀ n, formLength v ≤ n + 1 ↔ formLength (shiftGroup v) ≤ n := by
    intro n
    rw [formLength_le_iff, formLength_le_iff, shiftGroup_toNat, show 7 * (n+1) = 7 * n + 7 by ring, pow_add]
    constructor
    · rintro ⟨_, h2⟩
      refine ⟨?_, by omega⟩
      by_contra hn
      have : n = 0 := by omega
      subst this; omega
    · rintro ⟨_, h2⟩; omega
  have h1 := key (formLength (shiftGroup v))
  have h2 := key (formLength v - 1)
  have h3 := (formLength_le_iff v 0)
  omega

theorem formLength_bounds (v : Value) : 1 ≤ formLength v ∧ formLength v ≤ 10 := by
  have h1 := (formLength_le_iff v 0)
  have h2 := (formLength_le_iff v 10).2 ⟨by omega, by have := v.isLt; omega⟩
  omega

/-- The sum of a run that starts at index `j`. -/
theorem runSum_eq (j : Nat) (bs : List Byte) : runSum j bs = 2 ^ (7 * j) * runValue bs := by
  induction bs generalizing j with
  | nil => simp [runSum, runValue]
  | cons b bs ih =>
    rw [runValue, runSum, runSum, ih, ih, Config.payloadWidth, Nat.shiftLeft_eq, Nat.shiftLeft_eq]
    simp only [Nat.mul_zero, pow_zero]
    rw [show 7 * (j+1) = 7 * j + 7 by ring, pow_add]
    ring

theorem runValue_nil : runValue [] = 0 := rfl

theorem runValue_cons (b : Byte) (bs : List Byte) : runValue (b :: bs) = b.toNat % 128 + 128 * runValue bs := by
  rw [runValue, runSum, runSum_eq, payload_toNat]; simp [Config.payloadWidth]

theorem runValue_append (a b : List Byte) : runValue (a ++ b) = runValue a + 2 ^ (7 * a.length) * runValue b := by
  induction a with
  | nil => simp [runValue_nil]
  | cons x a ih =>
    rw [List.cons_append, runValue_cons, runValue_cons, ih, List.length_cons,
      show 7 * (a.length+1) = 7 * a.length + 7 by ring, pow_add]
    ring

/-- A run of `n` bytes is a number of `7n` bits. -/
theorem runValue_lt (a : List Byte) : runValue a < 2 ^ (7 * a.length) := by
  induction a with
  | nil => simp [runValue_nil]
  | cons x a ih =>
    rw [runValue_cons, List.length_cons, show 7 * (a.length+1) = 7 * a.length + 7 by ring, pow_add]
    omega

theorem termIndex_cons (b : Byte) (bs) :
    termIndex (b :: bs) = if contBit b then (termIndex bs).map (· + 1) else some 0 := rfl

/-- What follows a terminated run does not matter. -/
theorem termIndex_append (s e : List Byte) (h : termIndex s ≠ none) : termIndex (s ++ e) = termIndex s := by
  induction s with
  | nil => simp [termIndex] at h
  | cons b s ih =>
    rw [List.cons_append, termIndex_cons, termIndex_cons] at *
    split <;> simp_all

theorem termIndex_none_iff (b : List Byte) : termIndex b = none ↔ ∀ x ∈ b, contBit x = true := by
  induction b with
  | nil => simp [termIndex]
  | cons x b ih => rw [termIndex_cons]; split <;> simp_all

/-- The terminating byte is the first with continuation bit 0. -/
theorem termIndex_some_iff (b : List Byte) (k : Nat) : termIndex b = some k ↔
    ∃ x, b[k]? = some x ∧ contBit x = false ∧ ∀ j y, j < k → b[j]? = some y → contBit y = true := by
  induction b generalizing k with
  | nil => simp [termIndex]
  | cons x b ih =>
    rw [termIndex_cons]
    split <;> rename_i h
    · cases k with
      | zero => simp [h]
      | succ k =>
        simp only [Option.map_eq_some_iff, Nat.add_right_cancel_iff, exists_eq_right, ih, List.getElem?_cons_succ]
        constructor
        · rintro ⟨y, h1, h2, h3⟩
          refine ⟨y, h1, h2, ?_⟩
          intro j z hj hz
          cases j with
          | zero => simp at hz; subst hz; exact h
          | succ j => exact h3 j z (by omega) (by simpa using hz)
        · rintro ⟨y, h1, h2, h3⟩
          exact ⟨y, h1, h2, fun j z hj hz => h3 (j+1) z (by omega) (by simpa using hz)⟩
    · cases k with
      | zero => simp [h]
      | succ k =>
        simp only [Option.some.injEq, reduceCtorEq, false_iff, List.getElem?_cons_succ]
        rintro ⟨y, _, _, h3⟩
        exact h (h3 0 x (by omega) (by simp))

theorem termIndex_lt {b : List Byte} {k : Nat} (h : termIndex b = some k) : k < b.length := by
  obtain ⟨x, h1, _⟩ := (termIndex_some_iff b k).1 h
  exact (List.getElem?_eq_some_iff.1 h1).1

theorem highBitsAt_ne (b : List Byte) (a : Nat) (x : Byte) (h : b[a]? = some x) :
    (highBitsAt b a != 0) = decide (x.toNat % 128 / 2 ≠ 0) := by
  simp only [highBitsAt, memRead, h]
  rw [Bool.eq_iff_iff, bne_iff_ne, ne_eq, ← BitVec.toNat_inj, highPayload_toNat, payload_toNat]
  simp

/-- The Range condition at a terminating byte (`41_decode.md` R136). -/
theorem outOfRange_iff (b : List Byte) (k x) (hx : b[k]? = some x) (h : contBit x = false) :
    outOfRange b k = true ↔ 10 ≤ k ∨ (k = 9 ∧ x.toNat / 2 ≠ 0) := by
  have hc : x.toNat < 128 := by rw [contBit_eq_decide] at h; simpa using h
  by_cases hk : k = 9
  · subst hk
    have : (highBitsAt b 9 != 0) = decide (x.toNat % 128 / 2 ≠ 0) := highBitsAt_ne b 9 x hx
    rw [outOfRange, this, Nat.mod_eq_of_lt hc]
    simp [Config.maxBytes]
  · simp [outOfRange, Config.maxBytes, hk]

theorem dec1_range_iff (b : List Byte) :
    dec1 b = .fault .range ↔ ∃ k, termIndex b = some k ∧ outOfRange b k = true := by
  unfold dec1
  split
  · simp_all
  · rename_i k hk
    split <;> simp_all

/-- When `dec1` succeeds, and with what. -/
theorem dec1_ok_iff (b : List Byte) (v n) :
    dec1 b = .ok v n ↔ ∃ k, termIndex b = some k ∧ outOfRange b k = false ∧ n = k + 1 ∧
      v = BitVec.ofNat 64 (runValue (b.take (k+1))) := by
  unfold dec1
  split
  · simp_all
  · rename_i k hk
    split
    · simp_all
    · simp_all; tauto

/-- When `dec1` answers Truncated. -/
theorem dec1_truncated_iff (b : List Byte) : dec1 b = .fault .truncated ↔ termIndex b = none := by
  unfold dec1
  split
  · simp_all
  · split <;> simp_all

/-- A successful `dec1` consumes at least one byte and no more than there are. -/
theorem dec1_ok_bounds {b : List Byte} {v : Value} {n : Nat} (h : dec1 b = .ok v n) : 1 ≤ n ∧ n ≤ b.length := by
  obtain ⟨k, hk, -, rfl, -⟩ := (dec1_ok_iff b v n).1 h
  have := termIndex_lt hk
  omega

/-- The bound on the iterations of `decManyLoop` does not matter once it is large enough. -/
theorem decManyLoop_fuel (fuel : Nat) :
    ∀ (b : List Byte) (acc), b.length ≤ fuel → decManyLoop fuel b acc = decManyLoop b.length b acc := by
  induction fuel using Nat.strongRecOn with
  | ind fuel ih =>
    intro b acc h
    cases b with
    | nil => cases fuel <;> rfl
    | cons x b =>
      cases fuel with
      | zero => simp at h
      | succ fuel =>
        simp only [List.length_cons] at h ⊢
        rw [decManyLoop, decManyLoop]
        split
        · rfl
        · rename_i v n hd
          have := dec1_ok_bounds hd
          simp only [List.length_cons] at this
          have hl : ((x :: b).drop n).length ≤ b.length := by simp; omega
          rw [ih fuel (by omega) _ _ (by omega), ih b.length (by omega) _ _ hl]

theorem decManyLoop_acc (fuel : Nat) :
    ∀ (b : List Byte) (acc), decManyLoop fuel b acc =
      match decManyLoop fuel b [] with | .decm l => .decm (acc ++ l) | r => r := by
  induction fuel with
  | zero => intro b acc; cases b <;> simp [decManyLoop]
  | succ fuel ih =>
    intro b acc
    cases b with
    | nil => simp [decManyLoop]
    | cons x b =>
      rw [decManyLoop, decManyLoop]
      split
      · rfl
      · rename_i v n hd
        rw [ih _ (acc ++ [v]), ih _ ([] ++ [v])]
        cases decManyLoop fuel (List.drop n (x :: b)) [] <;> simp

theorem decMany_fault {b c} (h : dec1 b = .fault c) (hb : b ≠ []) : decMany b = .fault c := by
  cases b with
  | nil => exact absurd rfl hb
  | cons x b => simp [decMany, decManyLoop, h]

/-- One turn of `dec_many`. -/
theorem decMany_ok {b v n} (h : dec1 b = .ok v n) :
    decMany b = match decMany (b.drop n) with | .decm l => .decm (v :: l) | r => r := by
  have hn := dec1_ok_bounds h
  cases b with
  | nil => simp at hn; omega
  | cons x b =>
    rw [decMany, List.length_cons, decManyLoop, h]
    simp only
    rw [decManyLoop_acc, decManyLoop_fuel, ← decMany]
    · simp
    · simp at hn ⊢; omega

theorem decNLoop_acc (n : Nat) :
    ∀ b acc, decNLoop n b acc = match decNLoop n b [] with | .decn l r => .decn (acc ++ l) r | r => r := by
  induction n with
  | zero => intro b acc; simp [decNLoop]
  | succ n ih =>
    intro b acc
    rw [decNLoop, decNLoop]
    split
    · rfl
    · rename_i v k hd
      rw [ih _ (acc ++ [v]), ih _ ([] ++ [v])]
      cases decNLoop n (List.drop k b) [] <;> simp

theorem decN_fault {b c} (n) (h : dec1 b = .fault c) : decN b (n+1) = .fault c := by simp [decN, decNLoop, h]

/-- One turn of `dec_n`. -/
theorem decN_ok {b v k} (n) (h : dec1 b = .ok v k) :
    decN b (n+1) = match decN (b.drop k) n with | .decn l r => .decn (v :: l) r | r => r := by
  rw [decN, decNLoop, h]
  simp only
  rw [decNLoop_acc, ← decN]; simp

end Sys2Proof.Machine
end

