-- ==== Sys2Proof/Laws/PerInstr.lean ====
section
/-!
SUPPORT. A statement about every instruction as it is written: the word its encoding puts on a port, if it has one, can
stand there, and it is a token's word exactly when the instruction is a token (`30_encoding.md` R80, R88, R89).
-/
namespace Sys2Proof.Laws.WordOnItsPort

open Sys2Proof

def Statement (i : Instr) : Prop :=
  ∀ w, encode i = some w → w.wf = true ∧ (w.port = .token ↔ i.token?.isSome = true)

theorem tokenWord_wf (b : BitVec 9) : PortWord.wf ⟨.token, b.toNat⟩ = true := by
  have h : b.toNat < 2 ^ Port.token.width := b.isLt
  simp only [PortWord.wf, PortWord.fits, PortWord.asserted, decide_eq_true h, Bool.and_self]

theorem enc1 (v : Value) : Statement (.enc1 v) := by
  intro w h
  obtain rfl : _ = w := by simpa [encode] using h
  have h : v.toNat < 2 ^ Port.encOperand.width := v.isLt
  refine ⟨?_, by simp [Instr.token?]⟩
  simp only [PortWord.wf, PortWord.fits, PortWord.asserted, decide_eq_true h, Bool.and_self]

theorem dec1 : Statement .dec1 := by
  intro w h
  obtain rfl : _ = w := by simpa [encode] using h
  simp [PortWord.wf, PortWord.fits, PortWord.asserted, Port.width, Instr.token?]

theorem byteCont (p : Payload) : Statement (.byteCont p) := by
  intro w h
  obtain rfl : _ = w := by simpa only [encode, Option.some.injEq] using h
  exact ⟨tokenWord_wf _, by simp [Instr.token?]⟩

theorem byteTerm (p : Payload) : Statement (.byteTerm p) := by
  intro w h
  obtain rfl : _ = w := by simpa only [encode, Option.some.injEq] using h
  exact ⟨tokenWord_wf _, by simp [Instr.token?]⟩

theorem eob (x : Byte) : Statement (.eob x) := by
  intro w h
  obtain rfl : _ = w := by simpa only [encode, Option.some.injEq] using h
  exact ⟨tokenWord_wf _, by simp [Instr.token?]⟩

theorem encm (values : List Value) : Statement (.encm values) := by
  intro w h
  simp [encode] at h

theorem decm (buffer : List Byte) : Statement (.decm buffer) := by
  intro w h
  simp [encode] at h

theorem decn (count : Nat) (buffer : List Byte) : Statement (.decn count buffer) := by
  intro w h
  simp [encode] at h

theorem encClr : Statement .encClr := by
  intro w h
  obtain rfl : _ = w := by simpa [encode] using h
  simp [PortWord.wf, PortWord.fits, PortWord.asserted, Port.width, Instr.token?]

theorem decClr : Statement .decClr := by
  intro w h
  obtain rfl : _ = w := by simpa [encode] using h
  simp [PortWord.wf, PortWord.fits, PortWord.asserted, Port.width, Instr.token?]

end Sys2Proof.Laws.WordOnItsPort
end

