-- ==== Sys2Proof/Laws/Run.lean ====
section
/-!
SUPPORT. What an instruction can do (`exec_cases`), what a step does on each kind of line, and several steps in a row.
-/
namespace Sys2Proof.Machine

open Sys2Proof

/-- Everything an instruction can do. -/
theorem exec_cases {i : Instr} {s t : State} (h : exec i s = .next t) :
  (t = s) ∨ (∃ v, i = .enc1 v ∧ s.enc.st = .idle ∧ t = s.encAccept v) ∨
  (i = .dec1 ∧ (s.dec.st = .idle ∨ s.dec.st = .done) ∧ t = s.decStart) ∨
  (∃ k, i.token? = some k ∧ s.dec.st = .run ∧ t = s.decToken k) ∨
  (∃ vs, i = .encm vs ∧ s.encProc = none ∧ t = s.encBegin (EncJob.first vs)) ∨
  (∃ b, i = .decm b ∧ s.decProc = none ∧ t = s.decBegin (DecJob.first none b)) ∨
  (∃ n b, i = .decn n b ∧ s.decProc = none ∧ t = s.decBegin (DecJob.first (some n) b)) ∨
  (i = .encClr ∧ t = s.encClear) ∨ (i = .decClr ∧ t = s.decClear) := by
  cases i <;> simp only [exec, execEnc1, execDec1, execByteCont, execByteTerm, execEob,
      execEncm, execDecm, execDecn, execEncClr, execDecClr, presentToken] at h <;>
    rcases handshake_eq_next h with ⟨h1, rfl⟩ | ⟨h1, rfl⟩ <;> simp_all [Instr.token?, tokenOf]

theorem decodeToken_byteOf (c : Bool) (p : Payload) :
    decodeToken (tokenBits false (byteOf c p)) = if c then .byteCont p else .byteTerm p := by
  revert p
  cases c <;> decide

theorem decodeToken_eob (x : Byte) : decodeToken (tokenBits true x) = .eob x := by
  revert x; decide

theorem decode_token_bits (b : BitVec 9) : decode ⟨.token, b.toNat⟩ = .ok (decodeToken b) := by
  have h : b.toNat < 2 ^ Port.token.width := b.isLt
  simp [decode, PortWord.fits, decodeOn, h]

/-- The word of a token is read as an instruction that presents it. -/
theorem word_token (t : Token) : ∃ i, Line.fetch (.word t.word) = .instr i ∧ i.token? = some t := by
  cases t with
  | byte b =>
    have := decode_token_bits (tokenBits false b)
    have hb := byteOf_fields b
    refine ⟨decodeToken (tokenBits false b), by simp [Line.fetch, Token.word, this], ?_⟩
    rw [← hb, decodeToken_byteOf]
    cases contBit b <;> simp [Instr.token?]
  | eob =>
    have := decode_token_bits (tokenBits true 0)
    exact ⟨_, by simp only [Line.fetch, Token.word, this]; rw [decodeToken_eob], rfl⟩

/-- In RUN an instruction that presents a token has it accepted. -/
theorem exec_token {i : Instr} {t} (h : i.token? = some t) (s : State) (hr : s.dec.st = .run) :
    exec i s = .next (s.decToken t) := by
  have hr : s.dec.inReady = true := by simpa using hr
  cases i <;> simp [Instr.token?] at h <;> subst h <;>
    simp [exec, execByteCont, execByteTerm, execEob, presentToken, hr, tokenOf]

/-- Whose turn it is in a host that performs its script line by line. -/
theorem State.Sequential.turn {s : State} (h : s.Sequential) : s.turn = .line := by
  obtain ⟨h1, h2, h3⟩ := h
  simp [State.turn, State.defaultTurn, State.encMoves, State.decMoves, h1, h2, h3]

/-- The turn given by default to a procedure of ENCM that can go on. -/
theorem turn_enc {s : State} {j : EncJob} (ht : s.turns = []) (hp : s.encProc = some j) (hm : j.canMove s.enc = true) :
    s.turn = .enc := by
  simp [State.turn, State.defaultTurn, State.encMoves, ht, hp, hm]

/-- The turn given by default to a procedure of DECM or DECN that can go on beside no other. -/
theorem turn_dec {s : State} {j : DecJob} (ht : s.turns = []) (he : s.encProc = none) (hp : s.decProc = some j)
    (hm : j.canMove s.dec = true) : s.turn = .dec := by
  simp [State.turn, State.defaultTurn, State.encMoves, State.decMoves, ht, he, hp, hm]

theorem step_enc {s : State} {j : EncJob} (ht : s.turn = .enc) (hp : s.encProc = some j) :
    step s = .next (stepEncJob j { s with turns := s.turns.tail }) := by
  simp [step, hostStep, takeTurn, ht, hp]

theorem step_dec {s : State} {j : DecJob} (ht : s.turn = .dec) (hp : s.decProc = some j) :
    step s = .next (stepDecJob j { s with turns := s.turns.tail }) := by
  simp [step, hostStep, takeTurn, ht, hp]

theorem step_line {s : State} {line : Line} {rest : List Line} (ht : s.turn = .line) (hs : s.script = line :: rest) :
    step s = performLine line.fetch rest { s with turns := s.turns.tail } := by
  simp [step, hostStep, takeTurn, ht, hs]

theorem step_take {s : State} {rest : List Line} (ht : s.turn = .line) (hp : s.encProc = none)
    (hs : s.script = .take :: rest) (he : s.enc.st = .emit) :
    step s = .next { s with
      script := rest, enc := s.enc.emitStep, out := s.out ++ [s.enc.outByte], turns := s.turns.tail } := by
  have hv : s.enc.outValid = true := by simp [he]
  rw [step_line ht hs]
  simp [performLine, State.canPerform, Line.fetch, hv, hp, takeByte, State.encEmit, State.put]

theorem step_token {s : State} {t : Token} {rest : List Line} (hn : s.turn = .line) (hp : s.decProc = none)
    (hs : s.script = .word (Token.word t) :: rest) (hr : s.dec.st = .run) :
    step s = .next { s with script := rest, dec := s.dec.tokenStep t, turns := s.turns.tail } := by
  obtain ⟨i, hf, ht⟩ := word_token t
  have h1 : ∀ u : State, u.decProc = none → u.dec.st = .run → u.held i = false ∧ u.completes i = true ∧ u.owesClear i = false := by
    intro u h h'
    cases i <;> simp_all [Instr.token?, State.completes, State.held, State.owesClear]
  obtain ⟨a, b, c⟩ := h1 { s with turns := s.turns.tail } hp hr
  rw [step_line hn hs, hf]
  simp only [performLine, State.canPerform, performInstr, a, b, c]
  exact exec_token ht { s with script := rest, turns := s.turns.tail } hr

theorem step_start {s : State} {rest : List Line} (hn : s.turn = .line) (hp : s.decProc = none) (hc : s.clrDue = false)
    (hs : s.script = .word ⟨.decStart, 0⟩ :: rest) (hr : s.dec.st = .idle ∨ s.dec.st = .done) :
    step s = .next { s with script := rest, dec := s.dec.start, turns := s.turns.tail } := by
  have hr : s.dec.ready = true := by simpa using hr
  have hf : Line.fetch (.word ⟨.decStart, 0⟩) = .instr .dec1 := rfl
  rw [step_line hn hs, hf]
  simp [performLine, State.canPerform, State.held, performInstr, State.owesClear, State.completes, hr, hp, hc,
    exec, execDec1, State.decStart]

/-- Runs compose. -/
theorem runFor_add {a : Nat} {s t : State} (h : runFor a s = .next t) (b : Nat) : runFor (a + b) s = runFor b t := by
  induction a generalizing s with
  | zero => simp [runFor] at h; subst h; simp
  | succ a ih =>
    rw [Nat.add_right_comm, runFor]
    rw [runFor] at h
    cases hs : step s with
    | next u => rw [hs] at h; exact ih h
    | fault f => cases f
    | refused r => rw [hs] at h; simp at h

theorem runFor_one {s t : State} (h : step s = .next t) : runFor 1 s = .next t := by simp [runFor, h]

theorem runFor_step {s t : State} (h : step s = .next t) (b : Nat) :
    runFor (1 + b) s = runFor b t := runFor_add (runFor_one h) b

/-- A state that a step leaves as it is stays so. -/
theorem runFor_fix {s : State} (h : step s = .next s) : ∀ k, runFor k s = .next s := by
  intro k
  induction k with
  | zero => rfl
  | succ k ih => simp [runFor, h, ih]

end Sys2Proof.Machine
end

