-- ==== Sys2Proof/Tests/Slice0.lean ====
section
/-!
SUPPORT. The package's own tests, each about one step or one word, with the expected results taken from the encodings of
`30_encoding.md` R88, R89 and the vectors and programs of `95_test_vectors.md`; and, for every statement of
`Certificates/Slice0/Obligations.lean` that has hypotheses, concrete states and operands that meet them.
-/
namespace Sys2Proof.Tests

open Sys2Proof Sys2Proof.Machine

/-! ### Helpers -/

/-- The next state of an outcome, where it has one. -/
def after : Host.Outcome State Fault Refusal → Option State
  | .next t => some t
  | .fault _ => none
  | .refused _ => none

/-- The reset state with a script. -/
def scripted (script : List Line) : State := { State.reset with script := script }

/-- ENC sending `v`, and a script. -/
def sending (v : Value) (script : List Line) : State := { scripted script with enc := ⟨.emit, v⟩ }

/-- DEC in RUN with these registers, and a script. -/
def running (acc : Value) (i : ByteIndex) (ovf : Bool) (script : List Line) : State :=
  { scripted script with dec := ⟨.run, acc, i, ovf, none⟩ }

/-- DEC in DONE with 300 in two bytes. -/
def doneWith300 (script : List Line) : State :=
  { scripted script with dec := ⟨.done, 300, 2, false, none⟩ }

/-- DEC in FAULT with cause Truncated. -/
def faulted (script : List Line) : State :=
  { scripted script with dec := ⟨.fault, 0, 1, false, some .truncated⟩ }

/-- `TOK b`. -/
def tok (b : Byte) : Line := .word (Token.word (.byte b))

/-- `TOK EOB`. -/
def tokEob : Line := .word (Token.word .eob)

/-! ### Well-formedness: an ill-formed word for each check -/

/-- `PortWord.fits` refuses a tenth bit on the token port (`20_memory.md` R56). -/
theorem test_wellFormed_refuses_wide_token :
    PortWord.fits ⟨.token, 512⟩ = false ∧ PortWord.fits ⟨.token, 511⟩ = true := by decide

/-- The start port has no data bits, a clear line one, the operand port 64 (`20_memory.md` R54, R56, R60). -/
theorem test_wellFormed_refuses_wide_others :
    PortWord.wf ⟨.decStart, 1⟩ = false ∧ PortWord.wf ⟨.encClr, 2⟩ = false ∧
    PortWord.wf ⟨.encOperand, 2 ^ 64⟩ = false ∧ PortWord.wf ⟨.encOperand, 2 ^ 64 - 1⟩ = true := by decide

/-- `PortWord.asserted` refuses a clear line at 0 (`30_encoding.md` R89). -/
theorem test_wellFormed_refuses_low_clear_line :
    PortWord.asserted ⟨.encClr, 0⟩ = false ∧ PortWord.asserted ⟨.decClr, 0⟩ = false ∧
    PortWord.wf ⟨.decClr, 1⟩ = true := by decide

/-- `Line.wf` and `scriptWf` refuse a script with one such word. -/
theorem test_wellFormed_refuses_script :
    scriptWf [.word ⟨.decStart, 0⟩, .word ⟨.token, 512⟩] = false ∧
    Line.wf (.word ⟨.encClr, 0⟩) = false ∧ scriptWf [.take, .word ⟨.token, 0x0AC⟩] = true := by decide

/-! ### Decoding: words written out bit by bit -/

/-- ENC1 (R89, and P3: `000000000000012C`). -/
theorem test_decode_enc1 :
    decode ⟨.encOperand, 0b0000000000000000000000000000000000000000000000000000000100101100⟩ = .ok (.enc1 300) := by
  rfl

/-- DEC1 has no operand bits (R89). -/
theorem test_decode_dec1 : decode ⟨.decStart, 0⟩ = .ok .dec1 := by rfl

/-- `01ppppppp` (R88): the token AC, payload 2C. -/
theorem test_decode_byteCont : decode ⟨.token, 0b010101100⟩ = .ok (.byteCont 0b0101100) := by rfl

/-- `00ppppppp` (R88): the token 7F. -/
theorem test_decode_byteTerm : decode ⟨.token, 0b001111111⟩ = .ok (.byteTerm 0b1111111) := by rfl

/-- `1xxxxxxxx` (R88): the data bits do not matter. -/
theorem test_decode_eob :
    decode ⟨.token, 0b100000000⟩ = .ok (.eob 0) ∧ decode ⟨.token, 0b110000000⟩ = .ok (.eob 0b10000000) :=
  ⟨rfl, rfl⟩

/-- The two clears, each on its own level line (R89). -/
theorem test_decode_clears : decode ⟨.encClr, 1⟩ = .ok .encClr ∧ decode ⟨.decClr, 1⟩ = .ok .decClr := ⟨rfl, rfl⟩

/-- ENCM, DECM, DECN have no word; the script names them (`42_batch.md` R160, R163, R166). -/
theorem test_fetch_composites :
    Line.fetch (.encm [5]) = .instr (.encm [5]) ∧ Line.fetch (.decm [5]) = .instr (.decm [5]) ∧
    Line.fetch (.decn 1 [5]) = .instr (.decn 1 [5]) ∧ encode (.decn 1 [5]) = none := by decide

/-- Table words: 64 bits, a token in two bytes, a clear line in one. -/
theorem test_decodeTableWord :
    decodeTableWord 64 0x12C = some (.enc1 300) ∧ decodeTableWord 16 0x080 = some (.byteCont 0) ∧
    decodeTableWord 16 0x000 = some (.byteTerm 0) ∧ decodeTableWord 16 0x100 = some (.eob 0) ∧
    decodeTableWord 8 1 = some .encClr ∧ decodeTableWord 0 0 = some .dec1 ∧
    decodeTableWord 16 0x200 = none := by decide

/-! ### One step of each instruction -/

/-- P3 line 1: `E.st = EMIT`, `E.rem = 0x12C`; in EMIT `enc_ready = 0` and the line is not used up (`40_encode.md` R112). -/
theorem test_enc1_step :
    (after (step (scripted [.word ⟨.encOperand, 0x12C⟩]))).map (·.enc) = some ⟨.emit, 0x12C⟩ ∧
    (after (step (sending 5 [.word ⟨.encOperand, 7⟩]))).map (fun t => (t.enc.rem, t.script.length)) = some (5, 1) := by
  decide

/-- P3 line 2: byte AC, `out_last = 0`, `E.rem = 0x2`. -/
theorem test_take_continuing :
    (after (step (sending 0x12C [.take]))).map (fun t => (t.enc, t.out)) = some (⟨.emit, 2⟩, [0xAC]) ∧
    (sending 0x12C []).outLines.outLast = some false := by decide

/-- P6: the tenth byte 01, `out_last = 1`, then `E.st = IDLE`. -/
theorem test_take_last :
    (after (step (sending 1 [.take]))).map (fun t => (t.enc, t.out)) = some (⟨.idle, 0⟩, [0x01]) ∧
    (sending 1 []).outLines.outLast = some true := by decide

/-- V-F4: a new start discards the result; P4: after the fault a `DEC1` line blocks. -/
theorem test_dec1_step :
    (after (step (doneWith300 [.word ⟨.decStart, 0⟩]))).map (·.dec) = some ⟨.run, 0, 0, false, none⟩ ∧
    (after (step (faulted [.word ⟨.decStart, 0⟩]))).map (fun t => (t.dec.st, t.script.length)) = some (.fault, 1) := by
  decide

/-- P5 line 10: `TOK FF` at `D.i = 8`. -/
theorem test_byteCont_ninth_byte :
    (after (step (running 0xFFFFFFFFFFFFFF 8 false [tok 0xFF]))).map (·.dec) =
      some ⟨.run, 0x7FFFFFFFFFFFFFFF, 9, false, none⟩ := by decide

/-- P7 (b): `TOK FE` at `D.i = 9` sets `D.ovf` and stays in RUN. -/
theorem test_byteCont_overflow :
    (after (step (running 0x7FFFFFFFFFFFFFFF 9 false [tok 0xFE]))).map (·.dec) =
      some ⟨.run, 0x7FFFFFFFFFFFFFFF, 10, true, none⟩ := by decide

/-- P6: `TOK 01` at `D.i = 9` writes bit 63. -/
theorem test_byteTerm_tenth_byte :
    (after (step (running 0x7FFFFFFFFFFFFFFF 9 false [tok 0x01]))).map (·.dec) =
      some ⟨.done, 0xFFFFFFFFFFFFFFFF, 10, false, none⟩ := by decide

/-- P7 (a): `TOK 00` at `D.i = 10` is Range although the sum is 0. -/
theorem test_byteTerm_eleventh_byte :
    (after (step (running 0 10 false [tok 0x00]))).map (·.dec) = some ⟨.fault, 0, 10, true, some .range⟩ := by decide

/-- P4 line 3: Truncated, `D.acc` and `D.i` as they were. -/
theorem test_eob_truncates :
    (after (step (running 0 1 false [tokEob]))).map (·.dec) = some ⟨.fault, 0, 1, false, some .truncated⟩ := by decide

/-- P7 (b): with the overflow noted the fault is still Truncated. -/
theorem test_eob_after_overflow :
    (after (step (running 0x7FFFFFFFFFFFFFFF 10 true [tokEob]))).map (·.dec.cause) = some (some .truncated) := by decide

/-- V-B2. -/
theorem test_encm_result : encMany [0, 13, 130, 16769023] = [0x00, 0x0D, 0x82, 0x01, 0xFF, 0xBF, 0xFF, 0x07] := by decide

/-- P1, third `TAKE`: byte 82, `out_last = 0`, so the procedure goes on taking. -/
theorem test_encm_takes :
    (stepEncJob ⟨[], [0x00, 0x0D], true⟩ (sending 0x82 [])).encProc = some ⟨[], [0x00, 0x0D, 0x82], true⟩ := by decide

/-- P2, the third value, 2 bytes, is collected. -/
theorem test_decm_collects :
    (stepDecJob ⟨none, [0x82, 0x01], 2, 0, [], true⟩ { State.reset with dec := ⟨.done, 0x82, 2, false, none⟩ }).decProc =
      some ⟨none, [0x82, 0x01], 2, 2, [0x82], false⟩ := by decide

/-- V-B5: the fault of the second value is the fault of the whole, with no list. -/
theorem test_decm_faults :
    decMany [0x05, 0x80] = .fault .truncated ∧
    (stepDecJob ⟨none, [0x05, 0x80], 3, 1, [5], true⟩ (faulted [])).decResult = some (.fault .truncated) ∧
    (stepDecJob ⟨none, [0x05, 0x80], 3, 1, [5], true⟩ (faulted [])).clrDue = true := by decide

/-- P8 (a): two values collected, the rest `82 01` is never presented. P8 (b): all bytes accepted and DEC still asks, so
EOB. -/
theorem test_decn_step :
    (stepDecJob ⟨some 2, [0x00, 0x0D, 0x82, 0x01], 2, 2, [0, 13], false⟩ (scripted [])).decResult =
      some (.decn [0, 13] [0x82, 0x01]) ∧
    (stepDecJob ⟨some 3, [0x05, 0x80], 2, 1, [5], true⟩ (running 0 1 false [])).dec.cause = some .truncated := by decide

/-- `00_scope.md` R8: the script's `ENC1` between two steps of a DECM procedure, and both procedures in progress at once. -/
theorem test_interleaving :
    (let s : State := { running 0 0 false [.word ⟨.encOperand, 9⟩] with
        decProc := some ⟨none, [0x05], 0, 0, [], true⟩, turns := [.line] }
     (after (step s)).map (fun t => (t.enc, t.dec, t.decProc.isSome)) =
       some (⟨.emit, 9⟩, ⟨.run, 0, 0, false, none⟩, true)) ∧
    (let s : State := { running 0 0 false [] with
        encProc := some ⟨[9], [], false⟩, decProc := some ⟨none, [0x05], 0, 0, [], true⟩, turns := [.enc, .dec] }
     (after (runFor 2 s)).map (fun t => (t.enc, t.dec)) = some (⟨.emit, 9⟩, ⟨.done, 5, 1, false, none⟩)) := by decide

/-- `70_reset_and_hazards.md` R221: a reset edge during DECM abandons it; a clear of ENC does not. -/
theorem test_reset_abandons_batch :
    (let s : State := { running 0 0 false [.edge { rst := true }, .decm [0x05]] with
        decProc := some ⟨none, [0x05], 0, 0, [], true⟩, turns := [.line, .line] }
     (after (step s)).map (fun t => (t.dec.st, t.decProc, t.decResult)) = some (.idle, none, none) ∧
     (after (runFor 2 s)).map (fun t => t.decProc.isSome) = some true) ∧
    (State.edge { State.reset with decProc := some ⟨none, [0x05], 0, 0, [], true⟩ } { encClr := true }).decProc ≠ none := by
  decide

/-- `43_system.md` R180: in IDLE a clear changes nothing, so an ENCM between two Values goes on; in EMIT, after the
example's byte `0xAC`, it abandons the `ENC1`, and here its ENCM. -/
theorem test_encClr_batch :
    (let s : State := { State.reset with encProc := some ⟨[3], [1], false⟩ }
     after (execEncClr s) = some s ∧ State.edge s { encClr := true } = s) ∧
    (after (execEncClr { sending 2 [] with encProc := some ⟨[3], [0xAC], true⟩ })).map
      (fun t => (t.enc, t.encProc, t.encResult)) = some (⟨.idle, 0⟩, none, none) := by
  decide

/-- `00_scope.md` R13: `IN` is the tokens of a procedure not yet accepted, then those of the lines, edges and buffers among
them. -/
theorem test_inTokens :
    State.inTokens { scripted [tok 1, .take, .edge { inValid := true, inData := 2 }, .decm [3]] with
        decProc := some ⟨none, [0x05, 0x06], 1, 0, [], true⟩ } =
      [.byte 6, .eob, .byte 1, .byte 2, .byte 3, .eob] ∧
    take? [Token.byte 6, .eob] = some (.byte 6, [.eob]) ∧ take? [] = none := by decide

/-- V-F1, last line. -/
theorem test_encClr :
    (after (step (sending 2 [.word ⟨.encClr, 1⟩]))).map (fun t => (t.enc, t.out)) = some (⟨.idle, 0⟩, []) := by decide

/-- V-F3. -/
theorem test_decClr :
    (after (step (faulted [.word ⟨.decClr, 1⟩]))).map (·.dec) = some ⟨.idle, 0, 0, false, none⟩ := by decide

/-- V-F5, with every other line asserted. -/
theorem test_reset_edge :
    (State.edge (running 7 1 false []) { rst := true, inValid := true, decStart := true, encValid := true }).dec = Dec.reset := by
  decide

/-- `60_exceptions.md` R199: at one edge ENC accepts and DEC takes a token, both from the state before the edge. -/
theorem test_edge_both_units :
    let t := State.edge (running 0x2C 1 false []) { encValid := true, encValue := 9, inValid := true, inData := 0x02 }
    t.enc = ⟨.emit, 9⟩ ∧ t.dec = ⟨.done, 300, 2, false, none⟩ := by decide

/-- The step of a word placed for the host's checks runs that instruction, at reset. -/
theorem test_withFetchWord :
    (after (step (State.reset.withFetchWord 16 0x080))).map (·.dec) = some ⟨.run, 0, 1, false, none⟩ ∧
    (after (step (State.reset.withFetchWord 64 5))).map (·.enc) = some ⟨.emit, 5⟩ ∧
    (after (step (State.reset.withFetchWord 16 0x1FF))).map (·.dec.cause) = some (some .truncated) := by decide

/-! ### The operation level on the boundary vectors -/

/-- V-E26, V-E27, V-E28. -/
theorem test_enc1_longest :
    enc1 0xFFFFFFFFFFFFFFFF = [0xFF, 0xFF, 0xFF, 0xFF, 0xFF, 0xFF, 0xFF, 0xFF, 0xFF, 0x01] ∧
    (enc1 0x7FFFFFFFFFFFFFFF).length = 9 ∧ (enc1 0x8000000000000000).length = 10 := by decide

/-- V-D9, V-D12, V-D15, V-D17. -/
theorem test_dec1_boundaries :
    dec1 [0xFF, 0xFF, 0xFF, 0xFF, 0xFF, 0xFF, 0xFF, 0xFF, 0xFF, 0x01] = .ok 18446744073709551615 10 ∧
    dec1 [0xFF, 0xFF, 0xFF, 0xFF, 0xFF, 0xFF, 0xFF, 0xFF, 0xFF, 0x02] = .fault .range ∧
    dec1 [0x80, 0x80, 0x80, 0x80, 0x80, 0x80, 0x80, 0x80, 0x80, 0x81, 0x00] = .fault .range ∧
    dec1 [0xFF, 0xFF, 0xFF, 0xFF, 0xFF, 0xFF, 0xFF, 0xFF, 0xFF, 0xFF, 0xFF, 0xFF] = .fault .truncated := by decide

/-- V-B8, V-B10, V-B11. -/
theorem test_decn_results :
    decN [0x00, 0x0D, 0x82, 0x01, 0xFF] 3 = .decn [0, 13, 130] [0xFF] ∧
    decN [0x05, 0x80] 2 = .fault .truncated ∧ decN [0x05, 0x06] 0 = .decn [] [0x05, 0x06] := by decide

/-- `00_scope.md` R13, `20_memory.md` R72: the next index appends, an index in range is set. -/
theorem test_memWrite : memWrite [1, 2] 2 3 = [1, 2, 3] ∧ memWrite [1, 2] 0 3 = [3, 2] := by decide

/-! ### Witnesses: states and operands that meet the hypotheses of the statements, clause by clause -/

/-- O2: operands at the ends of their ranges. -/
theorem witness_EncodeThenDecodeGivesTheInstruction :
    encode (.enc1 0xFFFFFFFFFFFFFFFF) = some ⟨.encOperand, 2 ^ 64 - 1⟩ ∧ encode (.byteCont 0x7F) = some ⟨.token, 0x0FF⟩ ∧
    encode (.byteTerm 0) = some ⟨.token, 0⟩ ∧ encode (.eob 0xFF) = some ⟨.token, 0x1FF⟩ ∧
    encode .decClr = some ⟨.decClr, 1⟩ ∧ encode (.decm []) = none := by decide

/-- O3. -/
theorem witness_DecodeThenEncodeGivesTheWord :
    decode ⟨.token, 0x1FF⟩ = .ok (.eob 0xFF) ∧ decode ⟨.encOperand, 2 ^ 64 - 1⟩ = .ok (.enc1 0xFFFFFFFFFFFFFFFF) ∧
    decode ⟨.decStart, 0⟩ = .ok .dec1 := ⟨rfl, rfl, rfl⟩

/-- O4: each side of each equivalence. -/
theorem witness_IllFormedWordsAreRefusedByName :
    2 ^ Port.token.width ≤ (PortWord.mk .token 512).bits ∧ (PortWord.mk .decClr 0).bits = 0 ∧
    PortWord.wf ⟨.token, 511⟩ = true := by decide

/-- O5: both ends of each class, and DEC in RUN. -/
theorem witness_TokenClassesPartitionThePatterns :
    (256 ≤ 256 ∧ 256 < 512) ∧ (256 ≤ 511 ∧ 511 < 512) ∧ (128 ≤ 128 ∧ 128 < 256) ∧ (128 ≤ 255 ∧ 255 < 256) ∧
    (0 < 128 ∧ 127 < 128) ∧ (running 0 10 true []).dec.st = .run := by decide

/-- O6: a state after a reset edge that is not the reset state. -/
theorem witness_ResetLeavesEveryRegisterAtItsValue :
    ∃ s l, l.rst = true ∧ s.dec.st = .fault ∧ State.edge s l ≠ State.reset :=
  ⟨{ faulted [] with out := [1] }, { rst := true }, rfl, rfl, by decide⟩

/-- O7. -/
theorem witness_ResetEdgeOverridesEverything :
    ∃ l l' : InLines, l.rst = true ∧ l'.rst = true ∧ l.encValid = true ∧ l.inValid = true ∧ l'.decStart = true :=
  ⟨{ rst := true, encValid := true, inValid := true }, { rst := true, decStart := true }, rfl, rfl, rfl, rfl, rfl⟩

/-- O8: both units busy, each with a procedure in progress, at a step of either. -/
theorem witness_UnitAndHostInvariantIsKept :
    let j : EncJob := ⟨[3], [], true⟩
    let k : DecJob := ⟨none, [0xFF, 0x01], 1, 0, [], true⟩
    let s : State := { running 0x7F 1 false [] with enc := ⟨.emit, 5⟩, encProc := some j, decProc := some k }
    s.Inv ∧ step s = .next (stepEncJob j s) ∧
      step { s with turns := [.dec] } = .next (stepDecJob k s) := by
  refine ⟨⟨by decide, by decide, by decide, ?_, ?_⟩, rfl, rfl⟩ <;> intro j hj <;> cases hj <;> decide

/-- O10: each clause. -/
theorem witness_EncAcceptTakesTheOperand :
    State.reset.enc.st = .idle ∧ (sending 0 []).enc.st = .emit ∧
    ∃ l : InLines, l.rst = false ∧ l.encClr = false ∧ l.encValid = true ∧ l.encValue = 0xFFFFFFFFFFFFFFFF :=
  ⟨rfl, rfl, { encValid := true, encValue := 0xFFFFFFFFFFFFFFFF }, rfl, rfl, rfl, rfl⟩

/-- O11: remaining values 127 and 128, and ENC in IDLE; with no turn given, and with a turn given. -/
theorem witness_EncEmitSendsTheNextGroup :
    (∀ s ∈ [sending 127 [.take], sending 128 [.take], scripted [.take], { sending 127 [.take] with turns := [.line, .dec] }],
      s.turn = .line ∧ s.encProc = none ∧ s.script = .take :: []) ∧
    (sending 127 [.take]).enc.st = .emit ∧ (sending 128 [.take]).enc.st = .emit ∧ (scripted [.take]).enc.st = .idle ∧
    ∃ l : InLines, l.rst = false ∧ l.encClr = false ∧ l.outReady = true :=
  ⟨by decide, rfl, rfl, rfl, { outReady := true }, rfl, rfl, rfl⟩

/-- O12: one byte and two, and an instruction that answers a next state in between. -/
theorem witness_EncodeOneAgreesOnBothLevels :
    let s := scripted (.word ⟨.encOperand, (128 : Value).toNat⟩ :: (List.replicate (enc1 128).length .take ++ [tokEob]))
    s.Sequential ∧ s.enc.st = .idle ∧
    s.script = .word ⟨.encOperand, (128 : Value).toNat⟩ :: (List.replicate (enc1 128).length .take ++ [tokEob]) ∧
    1 < (enc1 128).length ∧ Instr.dec1 ≠ .encClr ∧ ∃ t', exec .dec1 (sending 1 []) = .next t' :=
  ⟨⟨rfl, rfl, rfl⟩, rfl, rfl, by decide, by decide, _, rfl⟩

/-- O14: lengths 1 and 10 at the ends of their ranges. -/
theorem witness_EncodedLengthIsMinimal :
    (enc1 0).length = 1 ∧ (enc1 127).length = 1 ∧ (enc1 128).length = 2 ∧ (enc1 0x7FFFFFFFFFFFFFFF).length = 9 ∧
    (enc1 0x8000000000000000).length = 10 ∧ (enc1 0xFFFFFFFFFFFFFFFF).length = 10 := by decide

/-- O15: runs that are canonical and runs that are not; a canonical run of value `v`. -/
theorem witness_CanonicalRunsAreTheEncodedForms :
    isRun [0x00] = true ∧ isRun [0x80, 0x00] = true ∧ canonical [0x80, 0x00] = false ∧
    canonical [0x80, 0x01] = true ∧ runValue [0x80, 0x01] = (128 : Value).toNat ∧
    isRun [0xFF, 0xFF, 0xFF, 0xFF, 0xFF, 0xFF, 0xFF, 0xFF, 0xFF, 0x01] = true := by decide

/-- O16: each state of DEC, an edge, and the invariant. -/
theorem witness_DecStartBeginsADecode :
    State.reset.dec.st = .idle ∧ (doneWith300 []).dec.st = .done ∧ (running 0 0 false []).dec.st = .run ∧
    (faulted []).dec.st = .fault ∧ (doneWith300 []).Inv ∧
    ∃ l : InLines, l.rst = false ∧ l.decClr = false ∧ l.decStart = true := by
  refine ⟨rfl, rfl, rfl, rfl, ⟨by decide, by decide, by decide, ?_, ?_⟩, { decStart := true }, rfl, rfl, rfl⟩ <;>
    intro j hj <;> cases hj

/-- O17: RUN at indices 0, 8, 9 and 10, the other states, an edge, and the invariant at index 8. -/
theorem witness_DecByteFollowsItsPseudocode :
    (∀ s ∈ [running 0 0 false [], running 0 8 false [], running 0 9 false [], running 0 10 true []], s.dec.st = .run) ∧
    (doneWith300 []).dec.st ≠ .run ∧ (running 0xFFFFFFFFFFFFFF 8 false []).dec.Inv ∧
    (running 0xFFFFFFFFFFFFFF 8 false []).dec.i.toNat ≤ 8 ∧
    ∃ l : InLines, l.rst = false ∧ l.decClr = false ∧ l.inValid = true ∧ l.inEob = false :=
  ⟨by decide, by decide, by decide, by decide, { inValid := true }, rfl, rfl, rfl, rfl⟩

/-- O18. -/
theorem witness_DecEobEndsInTruncated :
    (running 0x7F 10 true [tokEob]).dec.st = .run ∧ (running 0x7F 10 true [tokEob]).turn = .line ∧
    (running 0x7F 10 true [tokEob]).decProc = none ∧
    (running 0x7F 10 true [tokEob]).script = .word Token.eob.word :: [] ∧ State.reset.dec.st ≠ .run ∧
    ∃ l : InLines, l.rst = false ∧ l.decClr = false ∧ l.inValid = true ∧ l.inEob = true ∧ l.inData = 0xFF :=
  ⟨rfl, rfl, rfl, rfl, by decide, { inValid := true, inEob := true, inData := 0xFF }, rfl, rfl, rfl, rfl, rfl⟩

/-- O19: from IDLE and from DONE; a buffer for each result; an instruction that is no token. -/
theorem witness_DecodeOneAgreesOnBothLevels :
    (∀ b ∈ [[], [0x00], [0x80, 0x00, 0x55], [0x80], [0x80, 0x80, 0x80, 0x80, 0x80, 0x80, 0x80, 0x80, 0x80, 0x02, 0x07]],
      let s := scripted (.word ⟨.decStart, 0⟩ :: (tokenLines (bufferTokens b) ++ [.take]))
      s.Sequential ∧ s.clrDue = false ∧ s.dec.cause = none ∧ s.dec.st = .idle ∧
      s.script = .word ⟨.decStart, 0⟩ :: (tokenLines (bufferTokens b) ++ [.take])) ∧
    (doneWith300 []).dec.st = .done ∧ (doneWith300 []).dec.cause = none ∧
    dec1 [0x80, 0x00, 0x55] = .ok 0 2 ∧ dec1 [] = .fault .truncated ∧
    dec1 [0x80, 0x80, 0x80, 0x80, 0x80, 0x80, 0x80, 0x80, 0x80, 0x02, 0x07] = .fault .range ∧
    (Instr.enc1 5).token? = none ∧ ∃ t, exec (.enc1 5) (running 0 0 false []) = .next t :=
  ⟨by decide, rfl, rfl, by decide, by decide, by decide, rfl, _, rfl⟩

/-- O20: a buffer in which every byte has bit 7 set, longer than 10 bytes. -/
theorem witness_TruncatedExactlyWhenNothingTerminates :
    (∀ x ∈ List.replicate 12 (0xFF : Byte), 128 ≤ x.toNat) ∧ ¬∀ x ∈ [(0xFF : Byte), 0x7F], 128 ≤ x.toNat := by decide

/-- O21: index 9 with payload 2, index 10 with payload 0; a byte with bit 7 set. -/
theorem witness_RangeExactlyWhenTheRunIsTooLong :
    (List.replicate 9 (0xFF : Byte) ++ [0x02])[9]? = some 0x02 ∧ (0x02 : Byte).toNat / 2 ≠ 0 ∧
    (List.replicate 10 (0x80 : Byte) ++ [0x00])[10]? = some 0x00 ∧ 128 ≤ (0x80 : Byte).toNat := by decide

/-- O22: one byte and ten. -/
theorem witness_OkValueIsTheMathematicalSum :
    dec1 [0x00] = .ok 0 1 ∧
    dec1 [0x80, 0x80, 0x80, 0x80, 0x80, 0x80, 0x80, 0x80, 0x80, 0x01] = .ok 9223372036854775808 10 := by decide

/-- O23. -/
theorem witness_DecodeOneLeavesTheRest :
    termIndex [0xAC, 0x02] ≠ none ∧ dec1 [0xAC, 0x02, 0x55] = .ok 300 2 ∧ (0x7F : Byte).toNat < 128 ∧
    (doneWith300 []).dec.st = .done ∧ (faulted []).dec.st = .fault ∧ (Instr.byteTerm 5).token?.isSome = true ∧
    (∃ t, exec (.byteTerm 5) (doneWith300 []) = .next t) ∧ ∃ t, exec (.byteTerm 5) (faulted []) = .next t :=
  ⟨by decide, by decide, by decide, rfl, rfl, rfl, ⟨_, rfl⟩, _, rfl⟩

/-- O25: a run that is not canonical, a canonical one, and one of 10 bytes. -/
theorem witness_NonCanonicalRunsDecode :
    (isRun [0x80, 0x00] = true ∧ dec1 [0x80, 0x00] ≠ .fault .range ∧ canonical [0x80, 0x00] = false) ∧
    (isRun [0x80, 0x01] = true ∧ dec1 [0x80, 0x01] ≠ .fault .range ∧ canonical [0x80, 0x01] = true) ∧
    dec1 [0x80, 0x80, 0x80, 0x80, 0x80, 0x80, 0x80, 0x80, 0x80, 0x00] ≠ .fault .range := by decide

/-- O26: two ways to write one concatenation. -/
theorem witness_FormsCutBackInOneWay :
    enc1 300 ++ [0x55] = enc1 300 ++ [0x55] ∧ encMany [127, 128] = encMany [127] ++ enc1 128 := by decide

/-- O27: a host with no procedure, and one carrying out a procedure on each unit. -/
theorem witness_BatchInstructionsStartTheirProcedures :
    State.reset.encProc = none ∧ State.reset.decProc = none ∧
    ({ State.reset with encProc := some ⟨[], [], false⟩ } : State).encProc ≠ none ∧
    ({ State.reset with decProc := some ⟨none, [], 0, 0, [], false⟩ } : State).decProc ≠ none := by decide

/-- O28. -/
theorem witness_EncmProcedureGivesEncMany :
    let s := scripted [.encm [0, 128], .take]
    s.Sequential ∧ s.enc = ⟨.idle, 0⟩ ∧ s.script = .encm [0, 128] :: [.take] := ⟨⟨rfl, rfl, rfl⟩, rfl, rfl⟩

/-- O29: a buffer that faults and one that does not, from IDLE and from DONE. -/
theorem witness_DecmProcedureGivesDecMany :
    (let s := scripted [.decm [0x05, 0x80]]
     s.Sequential ∧ s.clrDue = false ∧ s.dec.cause = none ∧ s.dec.st = .idle ∧ s.script = .decm [0x05, 0x80] :: []) ∧
    (let s := doneWith300 [.decm [0x05, 0x06]]
     s.Sequential ∧ s.clrDue = false ∧ s.dec.cause = none ∧ s.dec.st = .done ∧ s.script = .decm [0x05, 0x06] :: []) ∧
    decMany [0x05, 0x80] = .fault .truncated ∧ decMany [0x05, 0x06] = .decm [5, 6] := by decide

/-- O30: count 0, a count that is met, a count that is not. -/
theorem witness_DecnProcedureGivesDecN :
    (∀ n ∈ [0, 1, 2],
      let s := scripted [.decn n [0x05]]
      s.Sequential ∧ s.clrDue = false ∧ s.dec.cause = none ∧ s.dec.st = .idle ∧ s.script = .decn n [0x05] :: []) ∧
    decN [0x05] 0 = .decn [] [0x05] ∧ decN [0x05] 1 = .decn [5] [] ∧ decN [0x05] 2 = .fault .truncated := by decide

/-- O31: a buffer that decodes and is not canonical. -/
theorem witness_ListsRoundTrip :
    decMany [0x80, 0x00, 0x01] = .decm [0, 1] ∧ runsOf [0x80, 0x00, 0x01] = [[0x80, 0x00], [0x01]] ∧
    canonical [0x80, 0x00] = false := by decide

/-- O32: a count at the number of values, and one above it. -/
theorem witness_WellFormedBuffersDecode :
    (2 ≤ [(0 : Value), 128].length) ∧ ([(0 : Value), 128].length < 3) := by decide

/-- O33. -/
theorem witness_DecManyCountsTerminatingBytes :
    decMany [0x80, 0x00, 0x01] = .decm [0, 1] ∧ decMany [0x05, 0x80] = .fault .truncated := by decide

/-- O35. -/
theorem witness_DecNLeavesTheRest :
    decN [0x05, 0x06, 0x80] 2 = .decn [5, 6] [0x80] ∧ decN [0x05, 0x80] 2 = .fault .truncated := by decide

/-- O36: an edge with ENC.CLR and both handshakes of ENC; a state in IDLE, an ENCM between two Values in it. -/
theorem witness_EncClrResetsEnc :
    (∃ l : InLines, l.rst = false ∧ l.encClr = true ∧ l.encValid = true ∧ l.outReady = true) ∧
    (let s : State := { State.reset with encProc := some ⟨[3], [1], false⟩ }
     s.Inv ∧ s.enc.st = .idle) := by
  refine ⟨⟨{ encClr := true, encValid := true, outReady := true }, rfl, rfl, rfl, rfl⟩,
    ⟨⟨by decide, by decide, by decide, ?_, ?_⟩, rfl⟩⟩ <;> intro j hj <;> cases hj
  decide

/-- O37. -/
theorem witness_DecClrResetsDec :
    ∃ l : InLines, l.rst = false ∧ l.decClr = true ∧ l.decStart = true ∧ l.inValid = true :=
  ⟨{ decClr := true, decStart := true, inValid := true }, rfl, rfl, rfl, rfl⟩

/-- O38: each clause. -/
theorem witness_EdgePriorityAndIndependence :
    (∃ l : InLines, l.rst = true ∧ l.encClr = true ∧ l.decClr = true) ∧
    (∃ l : InLines, l.rst = false ∧ l.encClr = true ∧ l.decClr = true) ∧
    (∃ l : InLines, l.rst = false ∧ l.encClr = false ∧ l.decClr = false ∧ l.encValid = true ∧ l.outReady = false ∧
      l.decStart = true ∧ l.inValid = false ∧ (sending 5 []).enc.st = .emit ∧ (faulted []).dec.st = .fault) :=
  ⟨⟨{ rst := true, encClr := true, decClr := true }, rfl, rfl, rfl⟩,
   ⟨{ encClr := true, decClr := true }, rfl, rfl, rfl⟩,
   ⟨{ encValid := true, decStart := true }, rfl, rfl, rfl, rfl, rfl, rfl, rfl, rfl, rfl⟩⟩

/-- O40: a latched fault, an instruction and a step that answer a next state in it, and a clearing edge. -/
theorem witness_FaultLatchesUntilCleared :
    (faulted [tok 5]).dec.st = .fault ∧ (∃ t, exec (.byteTerm 5) (faulted []) = .next t) ∧
    (∃ t, step (faulted [tok 5]) = .next t) ∧
    (∃ l : InLines, l.rst = false ∧ l.decClr = false ∧ l.inValid = true) ∧ ∃ l : InLines, l.decClr = true :=
  ⟨rfl, ⟨_, rfl⟩, ⟨_, rfl⟩, ⟨{ inValid := true }, rfl, rfl, rfl⟩, { decClr := true }, rfl⟩

/-- O41: Truncated, and Range at index 9 and at index 10. -/
theorem witness_FaultsAreRaisedOnlyByTheirSteps :
    (∃ t, exec (.eob 0xFF) (running 0 0 false []) = .next t ∧ t.dec.st = .fault) ∧
    (∃ t, exec (.byteTerm 2) (running 0 9 false []) = .next t ∧ t.dec.st = .fault) ∧
    (∃ t, exec (.byteTerm 0) (running 0 10 false []) = .next t ∧ t.dec.st = .fault) ∧
    (running 0 10 false []).dec.st ≠ .fault :=
  ⟨⟨_, rfl, by decide⟩, ⟨_, rfl, by decide⟩, ⟨_, rfl, by decide⟩, by decide⟩

/-- O42: an instruction of each group. -/
theorem witness_InstructionsKeepTheirFrames :
    (∃ t, exec (.enc1 5) State.reset = .next t) ∧ (∃ t, exec .encClr (sending 5 []) = .next t) ∧
    (∃ t, exec (.byteCont 5) (running 0 0 false []) = .next t) ∧ (∃ t, exec .decClr (faulted []) = .next t) ∧
    (∃ t, exec (.encm [5]) State.reset = .next t) ∧ (∃ t, exec (.decm [5]) State.reset = .next t) ∧
    (∃ t, exec (.decn 1 [5]) State.reset = .next t) ∧ (Instr.byteCont 5).token?.isSome = true :=
  ⟨⟨_, rfl⟩, ⟨_, rfl⟩, ⟨_, rfl⟩, ⟨_, rfl⟩, ⟨_, rfl⟩, ⟨_, rfl⟩, ⟨_, rfl⟩, rfl⟩

/-- O43: states that differ in the other unit. -/
theorem witness_UnitsShareNothing :
    (sending 5 []).dec = State.reset.dec ∧ (sending 5 []) ≠ State.reset ∧ (faulted []).enc = State.reset.enc ∧
    (faulted []).out = State.reset.out ∧ (∃ t, exec .dec1 (sending 5 []) = .next t) ∧
    ∃ t, exec .dec1 State.reset = .next t :=
  ⟨rfl, by decide, rfl, rfl, ⟨_, rfl⟩, _, rfl⟩

/-- O44: the largest Value, in 10 edges. -/
theorem witness_WiredUnitsTransportTheValue :
    let s : State := { State.reset with enc := ⟨.emit, 0xFFFFFFFFFFFFFFFF⟩, dec := ⟨.run, 0, 0, false, none⟩ }
    s.enc = ⟨.emit, 0xFFFFFFFFFFFFFFFF⟩ ∧ s.dec = ⟨.run, 0, 0, false, none⟩ ∧ 9 < (enc1 0xFFFFFFFFFFFFFFFF).length :=
  ⟨rfl, rfl, by decide⟩

/-- O45: a script head for each clause, with a line that completes, one that does not, and one that is held; a step of each
procedure; a turn given. -/
theorem witness_StepPerformsTheNextLine :
    (∀ s ∈ [scripted [.word ⟨.decStart, 0⟩], scripted [.word ⟨.token, 0x100⟩], scripted [.encm [5]],
        scripted [.decm []], scripted [.decn 0 []], scripted [.edge {}], scripted [.word ⟨.encClr, 0⟩], scripted []],
      s.turn = .line ∧ s.Sequential ∧ s.clrDue = false) ∧
    decode ⟨.decStart, 0⟩ = .ok .dec1 ∧ (scripted []).held .dec1 = false ∧ (scripted []).owesClear .dec1 = false ∧
    (scripted []).completes .dec1 = true ∧
    decode ⟨.token, 0x100⟩ = .ok (.eob 0) ∧ (scripted []).completes (.eob 0) = false ∧
    (scripted []).edgeHeld { rst := true } = false ∧
    (let s : State := { scripted [.word ⟨.decStart, 0⟩] with
        encProc := some ⟨[5], [], false⟩, decProc := some ⟨none, [5], 0, 0, [], false⟩ }
     s.turn = .enc ∧ { s with turns := [.dec, .enc] }.turn = .dec ∧ { s with turns := [.line] }.turn = .line ∧
     s.held .dec1 = true) := by
  decide

/-- O46: the three instructions that use DEC again, with and without turns given. -/
theorem witness_OwedClearComesFirst :
    ∀ line ∈ [Line.word ⟨.decStart, 0⟩, .decm [5], .decn 1 [5]], ∀ us ∈ [[], [Turn.line, .line, .enc]],
      let s : State := { faulted [line] with clrDue := true, turns := us }
      s.turn = .line ∧ s.decProc = none ∧ s.clrDue = true ∧ s.script = line :: [] ∧
      (line.fetch = .instr .dec1 ∨ line.fetch = .instr (.decm [5]) ∨ line.fetch = .instr (.decn 1 [5])) ∧
      State.turn { s with dec := ⟨.idle, 0, 0, false, none⟩, clrDue := false, turns := s.turns.tail } = .line := by
  decide

/-- O47: a word with a tenth token bit, at the script's turn. -/
theorem witness_OnlyUnpresentableWordsAreRefused :
    step (scripted [.word ⟨.token, 512⟩]) = .refused (.unpresentable .token) ∧
    (scripted [.word ⟨.token, 512⟩]).turn = .line ∧ 2 ^ Port.token.width ≤ 512 := ⟨rfl, rfl, by decide⟩

/-- O48: each state of each unit, each cause. -/
theorem witness_OutputLinesFollowTheRegisters :
    (sending 128 []).enc.st = .emit ∧ State.reset.enc.st = .idle ∧ (doneWith300 []).dec.st = .done ∧
    (running 0 0 false []).dec.st ≠ .done ∧ State.reset.dec.cause = none ∧ (faulted []).dec.cause = some .truncated ∧
    (running 0 9 false []).dec.cause = none ∧ ((running 0 9 false []).dec.byteStep 0x02).cause = some .range := by decide

/-- O49: in the order of the clauses, a host in which nobody can go on, whatever turns are given; a procedure that waits
before other lines; a procedure of each unit that waits for the unit; and lines that block: a `DEC1` in FAULT, a token in
IDLE, a `TAKE` in IDLE, a token and an edge while a procedure uses the port. -/
theorem witness_BlockedLinesWaitForEver :
    let j : DecJob := ⟨none, [5], 0, 0, [], false⟩
    let k : EncJob := ⟨[1], [], false⟩
    let d : State := { faulted [tok 5] with decProc := some j }
    let r : State := { running 0 0 false [.word ⟨.encClr, 1⟩] with decProc := some j }
    let e : State := { sending 5 [.take] with encProc := some k }
    (∀ s ∈ [d, e, { d with turns := [.line, .dec, .wait] }, faulted [.word ⟨.decStart, 0⟩], scripted [.take], scripted []],
      s.encMoves = false ∧ s.decMoves = false ∧
      ∀ line rest, s.script = line :: rest → s.canPerform line.fetch = false) ∧
    (r.turns = [] ∧ r.decProc ≠ none ∧ r.encMoves = false ∧ r.decMoves = false) ∧
    (e.encProc = some k ∧ k.busy = false ∧ k.left ≠ [] ∧ e.enc.st = .emit) ∧
    (d.decProc = some j ∧ j.busy = false ∧ j.wantsMore = true ∧ r.dec.st = .run ∧ d.dec.st = .fault) ∧
    (Line.fetch (.word ⟨.decStart, 0⟩) = .instr .dec1 ∧ (faulted []).owesClear .dec1 = false ∧
      (faulted []).completes .dec1 = false) ∧
    (Line.fetch (tok 5) = .instr (.byteTerm 5) ∧ State.reset.owesClear (.byteTerm 5) = false ∧
      State.reset.completes (.byteTerm 5) = false ∧ r.held (.byteTerm 5) = true) ∧
    (Line.fetch .take = .take ∧ State.reset.enc.st = .idle ∧ r.edgeHeld { inValid := true } = true) := by
  refine ⟨?_, by decide, by decide, by decide, by decide, by decide, by decide⟩
  intro s hs
  simp only [List.mem_cons, List.not_mem_nil, or_false] at hs
  rcases hs with rfl | rfl | rfl | rfl | rfl | rfl <;> refine ⟨rfl, rfl, ?_⟩ <;> intro line rest h <;> cases h <;> rfl

/-- O50: the longest form. -/
theorem witness_EncFinishesWithinTenTakes :
    let s := sending 0xFFFFFFFFFFFFFFFF (List.replicate 10 .take ++ [.take])
    s.Sequential ∧ s.enc.st = .emit ∧ s.script = List.replicate 10 .take ++ [.take] := ⟨⟨rfl, rfl, rfl⟩, rfl, rfl⟩

/-- O51: the empty buffer, and one with a rest. -/
theorem witness_DecFinishesWithinTheBuffer :
    ∀ b ∈ [[], [0x80], [0x05, 0x06]],
      let s := running 0 10 true (tokenLines (bufferTokens b) ++ [.take])
      s.Sequential ∧ s.dec.st = .run ∧ s.script = tokenLines (bufferTokens b) ++ [.take] := by decide

/-- O52: an end and a faulted end; a script that is done with ENC in EMIT; a host in which nobody can go on, ENC in EMIT and
a line left; and a stuck state, which also answers a next state. -/
theorem witness_StuckStatesAreNoEnds :
    ((doneWith300 []).ScriptDone ∧ (doneWith300 []).RunEnded ∧ (faulted []).FaultedEnd ∧ (sending 5 []).ScriptDone) ∧
    (let s : State := { sending 5 [.take] with encProc := some ⟨[1], [], false⟩ }
     s.Quiet ∧ s.enc.st = .emit) ∧
    (sending 5 []).Stuck ∧ runFor 3 (sending 5 []) = .next (sending 5 []) := by
  refine ⟨by decide, ⟨⟨rfl, rfl, ?_⟩, rfl⟩, Or.inl ⟨rfl, ?_⟩, rfl⟩
  · intro line rest h
    cases h
    rfl
  · intro k t h
    rw [runFor_fix (s := sending 5 []) rfl] at h
    cases h
    rfl

/-- A state whose one step completes the handshake that its unit offers, and leads to an end, is fair. -/
theorem fair_of_end {s t : State} (h : step s = .next t) (he : t.enc.st ≠ .emit) (hd : t.dec.st ≠ .run)
    (hf : step t = .next t) (hs : s.enc.st = .emit → s.enc.stepsOn s.presents = true)
    (hr : s.dec.st = .run → s.dec.stepsOn s.presents = true) : s.Fair := by
  intro k u hk
  cases k with
  | zero =>
    cases hk
    exact ⟨fun h => ⟨0, s, rfl, hs h⟩, fun h => ⟨0, s, rfl, hr h⟩⟩
  | succ k =>
    simp only [runFor, h, runFor_fix hf] at hk
    cases hk
    exact ⟨fun h => absurd h he, fun h => absurd h hd⟩

/-- O53: a step of each kind: of a procedure, of the script, and a line that waits. -/
theorem witness_EveryStepIsOneEdge :
    (∃ t, step { sending 5 [] with encProc := some ⟨[], [], true⟩ } = .next t ∧ t.out = [5]) ∧
    (∃ t, step (running 0 0 false [tok 5]) = .next t ∧ t.dec.st = .done) ∧
    ∃ t, step (scripted [.take]) = .next t := ⟨⟨_, rfl, rfl⟩, ⟨_, rfl, rfl⟩, _, rfl⟩

/-- O54: a token of the script, and one of a procedure, the `EOB` after the last byte. -/
theorem witness_TokensAreTakenFromIn :
    (let s := running 0 0 false [tok 5]
     s.Inv ∧ (∃ t, step s = .next t) ∧ s.dec.takesOn s.presents = some (.byte 5)) ∧
    (let s : State := { running 0 1 false [] with decProc := some ⟨none, [0x80], 1, 0, [], true⟩ }
     s.Inv ∧ (∃ t, step s = .next t) ∧ s.dec.takesOn s.presents = some .eob) := by
  refine ⟨⟨⟨by decide, by decide, by decide, ?_, ?_⟩, ⟨_, rfl⟩, by decide⟩,
    ⟨⟨by decide, by decide, by decide, ?_, ?_⟩, ⟨_, rfl⟩, by decide⟩⟩ <;> (intro j hj; cases hj)
  decide

/-- O55: each procedure at a step of its own, at its end, and at a clear or reset of its unit by the script; a fault as the
result. -/
theorem witness_BatchProceduresKeepTheirResults :
    (∀ j ∈ [(⟨[3], [1], true⟩ : EncJob), ⟨[], [1], true⟩, ⟨[3], [1], false⟩], j.Inv (⟨.emit, 5⟩ : Enc)) ∧
    (∀ us ∈ [[], [Turn.line]], ∃ t, step { sending 5 [.word ⟨.encClr, 1⟩] with
      encProc := some ⟨[3], [1], true⟩, turns := us } = .next t) ∧
    (let j : DecJob := ⟨none, [0x05, 0xFF], 2, 1, [5], true⟩
     let d : Dec := ⟨.run, 0x7F, 1, false, none⟩
     j.Inv d ∧ d.Inv ∧ j.Tracks d ∧ j.outlook = .fault .truncated ∧
     ∀ us ∈ [[], [Turn.line]], ∃ t, step { scripted [.edge { rst := true }] with
       dec := d, decProc := some j, turns := us } = .next t) := by
  refine ⟨by decide, ?_, by decide, by decide, fun _ => by decide, by decide, ?_⟩ <;> intro us hu <;>
    simp only [List.mem_cons, List.not_mem_nil, or_false] at hu <;> rcases hu with rfl | rfl <;> exact ⟨_, rfl⟩

/-- O56: an instruction of each unit, in both orders. -/
theorem witness_StepsOfTheUnitsCommute :
    ∃ t u t' u', exec (.enc1 5) State.reset = .next t ∧ exec .dec1 t = .next u ∧ exec .dec1 State.reset = .next t' ∧
      exec (.enc1 5) t' = .next u' := ⟨_, _, _, _, rfl, rfl, rfl, rfl⟩

/-- O57: a waiting procedure of each unit, in each state it waits in, while the script goes on with the other unit. -/
theorem witness_WaitingProceduresWaitUntilCleared :
    (let j : DecJob := ⟨some 1, [5], 0, 0, [], false⟩
     j.wantsMore = true ∧ ∀ s ∈ [faulted [.word ⟨.encOperand, 5⟩], running 0 0 false [.edge { encClr := true }]],
       (s.dec.st = .run ∨ s.dec.st = .fault) ∧
       (after (runFor 1 { s with decProc := some j, turns := [.line] })).isSome = true) ∧
    (let s : State := { sending 5 [.word ⟨.decStart, 0⟩] with encProc := some ⟨[1], [], false⟩, turns := [.line] }
     s.enc.st = .emit ∧ (after (runFor 2 s)).isSome = true) := by decide

/-- O58: fair states in EMIT and in RUN, the tokens accepted while DEC runs being a buffer's; and a run that comes to an
end. -/
theorem witness_FairHostsFinishOperations :
    ((sending 5 [.take]).Fair ∧ (sending 5 [.take]).enc.st = .emit) ∧
    ((running 0 0 false [tok 5]).Fair ∧ (running 0 0 false [tok 5]).dec.st = .run ∧
      ∀ k, (∀ m u, m < k → runFor m (running 0 0 false [tok 5]) = .next u → u.dec.st = .run) →
        tokensIn k (running 0 0 false [tok 5]) <+: bufferTokens [5]) ∧
    ∃ t, runFor 1 (running 0 0 false [tok 5]) = .next t ∧ t.RunEnded := by
  refine ⟨⟨fair_of_end rfl (by decide) (by decide) rfl (by decide) (by decide), rfl⟩,
    ⟨fair_of_end rfl (by decide) (by decide) rfl (by decide) (by decide), rfl, ?_⟩, _, rfl, by decide⟩
  rintro (_ | _ | k) h
  · exact List.nil_prefix
  · decide
  · exact absurd (h 1 _ (by omega) rfl) (by decide)

/-- O59: a procedure in progress on each unit, at an operation of its own and between two; edges that reset, that clear,
and that do neither. -/
theorem witness_AbandonedBatchOperationsHaveNoResult :
    (let s : State := { running 0x7F 1 false [] with
      enc := ⟨.emit, 5⟩, encProc := some ⟨[3], [], true⟩, decProc := some ⟨none, [0xFF, 0x01], 1, 0, [], true⟩ }
     s.Inv) ∧
    (let s : State := { State.reset with
      encProc := some ⟨[3], [5], false⟩, decProc := some ⟨none, [0x05, 0x01], 1, 1, [5], false⟩ }
     s.Inv) ∧
    (∃ l : InLines, l.rst = true) ∧ (∃ l : InLines, l.rst = false ∧ l.encClr = true ∧ l.decClr = true) ∧
      ∃ l : InLines, l.rst = false ∧ l.encClr = false ∧ l.decClr = false := by
  refine ⟨⟨by decide, by decide, by decide, ?_, ?_⟩, ⟨by decide, by decide, by decide, ?_, ?_⟩,
    ⟨{ rst := true }, rfl⟩, ⟨{ encClr := true, decClr := true }, rfl, rfl, rfl⟩, {}, rfl, rfl, rfl⟩ <;>
    intro j hj <;> cases hj <;> decide

end Sys2Proof.Tests
end

section
/-!
The two sides of the state, one for each unit: what a step of ENC sees and writes, and what a step of DEC
sees and writes (`00_scope.md` R8, `20_memory.md` R64). An operation on one side commutes with every operation on the other.
-/
namespace Sys2Proof.Machine

/-- `s` with ENC's side, the unit with `OUT`, its procedure and result, taken from `u`. -/
def State.withEncSide (s u : State) : State :=
  { s with enc := u.enc, out := u.out, encProc := u.encProc, encResult := u.encResult }

/-- `s` with DEC's side, the unit with its procedure, result and owed clear, taken from `u`. -/
def State.withDecSide (s u : State) : State :=
  { s with dec := u.dec, decProc := u.decProc, decResult := u.decResult, clrDue := u.clrDue }

@[simp] theorem State.withEncSide_enc (s u : State) : (s.withEncSide u).enc = u.enc := rfl
@[simp] theorem State.withEncSide_encProc (s u : State) : (s.withEncSide u).encProc = u.encProc := rfl
@[simp] theorem State.withDecSide_dec (s u : State) : (s.withDecSide u).dec = u.dec := rfl
@[simp] theorem State.withDecSide_decProc (s u : State) : (s.withDecSide u).decProc = u.decProc := rfl

/-- The operation sees and writes ENC's side only: the rest of the state goes through it unseen. -/
def OnEncSide (f : State → State) : Prop := ∀ s u : State, f (u.withEncSide s) = u.withEncSide (f s)

/-- The operation sees and writes DEC's side only: the rest of the state goes through it unseen. -/
def OnDecSide (g : State → State) : Prop := ∀ s u : State, g (u.withDecSide s) = u.withDecSide (g s)

section
variable {f g : State → State}

/-- What an operation on ENC's side leaves unchanged: all the rest. -/
theorem OnEncSide.frame (hf : OnEncSide f) (s : State) : f s = s.withEncSide (f s) := hf s s

/-- What an operation on DEC's side leaves unchanged: all the rest. -/
theorem OnDecSide.frame (hg : OnDecSide g) (s : State) : g s = s.withDecSide (g s) := hg s s

theorem OnEncSide.keeps_decSide (hf : OnEncSide f) (s : State) : (f s).withDecSide s = f s := by
  rw [hf.frame s]; rfl

theorem OnDecSide.keeps_encSide (hg : OnDecSide g) (s : State) : (g s).withEncSide s = g s := by
  rw [hg.frame s]; rfl

/-- Operations on the two sides commute. -/
theorem OnEncSide.commute (hf : OnEncSide f) (hg : OnDecSide g) (s : State) : f (g s) = g (f s) :=
  calc f (g s) = (g s).withEncSide (f s) := by rw [← hf, hg.keeps_encSide]
    _ = (s.withDecSide (g s)).withEncSide (f s) := by rw [← hg.frame]
    _ = (s.withEncSide (f s)).withDecSide (g s) := rfl
    _ = (f s).withDecSide (g s) := by rw [← hf.frame]
    _ = g (f s) := by rw [← hg, hf.keeps_decSide]

theorem OnEncSide.dec (hf : OnEncSide f) (s : State) : (f s).dec = s.dec := by rw [hf.frame s]; rfl
theorem OnEncSide.decProc (hf : OnEncSide f) (s : State) : (f s).decProc = s.decProc := by rw [hf.frame s]; rfl
theorem OnEncSide.decResult (hf : OnEncSide f) (s : State) : (f s).decResult = s.decResult := by rw [hf.frame s]; rfl
theorem OnEncSide.clrDue (hf : OnEncSide f) (s : State) : (f s).clrDue = s.clrDue := by rw [hf.frame s]; rfl
theorem OnEncSide.script (hf : OnEncSide f) (s : State) : (f s).script = s.script := by rw [hf.frame s]; rfl

theorem OnDecSide.enc (hg : OnDecSide g) (s : State) : (g s).enc = s.enc := by rw [hg.frame s]; rfl
theorem OnDecSide.out (hg : OnDecSide g) (s : State) : (g s).out = s.out := by rw [hg.frame s]; rfl
theorem OnDecSide.encProc (hg : OnDecSide g) (s : State) : (g s).encProc = s.encProc := by rw [hg.frame s]; rfl
theorem OnDecSide.encResult (hg : OnDecSide g) (s : State) : (g s).encResult = s.encResult := by rw [hg.frame s]; rfl
theorem OnDecSide.script (hg : OnDecSide g) (s : State) : (g s).script = s.script := by rw [hg.frame s]; rfl

theorem OnEncSide.with_turns (hf : OnEncSide f) (s : State) (us : List Turn) :
    f { s with turns := us } = { f s with turns := us } :=
  (hf s { s with turns := us }).trans (by rw [hf.frame s]; rfl)

theorem OnDecSide.with_turns (hg : OnDecSide g) (s : State) (us : List Turn) :
    g { s with turns := us } = { g s with turns := us } :=
  (hg s { s with turns := us }).trans (by rw [hg.frame s]; rfl)

end

/-- The effect of a handshake as an operation: `f` when the ready line is 1, nothing otherwise. -/
def gated (ready : State → Bool) (f : State → State) (s : State) : State := if ready s then f s else s

theorem handshake_eq_gated (ready : State → Bool) (f : State → State) (s : State) :
    s.handshake (ready s) f = .next (gated ready f s) := rfl

theorem OnEncSide.gated {ready : State → Bool} {f : State → State}
    (hr : ∀ s u : State, ready (u.withEncSide s) = ready s) (hf : OnEncSide f) : OnEncSide (gated ready f) := by
  intro s u
  cases h : ready s <;> simp [Machine.gated, hr, h, hf s u]

theorem OnDecSide.gated {ready : State → Bool} {g : State → State}
    (hr : ∀ s u : State, ready (u.withDecSide s) = ready s) (hg : OnDecSide g) : OnDecSide (gated ready g) := by
  intro s u
  cases h : ready s <;> simp [Machine.gated, hr, h, hg s u]

/-- An instruction of ENC is an operation on ENC's side. -/
theorem exec_onEncSide {i : Instr} (hi : (∃ v, i = .enc1 v) ∨ i = .encClr ∨ ∃ l, i = .encm l) :
    ∃ f, OnEncSide f ∧ ∀ s, exec i s = .next (f s) := by
  rcases hi with ⟨v, rfl⟩ | rfl | ⟨l, rfl⟩
  · exact ⟨gated (·.enc.ready) (·.encAccept v), .gated (fun _ _ => rfl) fun _ _ => rfl, fun _ => rfl⟩
  · exact ⟨State.encClear, fun _ _ => rfl, fun _ => rfl⟩
  · exact ⟨gated (·.encProc.isNone) (·.encBegin (EncJob.first l)), .gated (fun _ _ => rfl) fun _ _ => rfl, fun _ => rfl⟩

/-- An instruction of DEC is an operation on DEC's side. -/
theorem exec_onDecSide {i : Instr} (hi : i = .dec1 ∨ i.token?.isSome = true ∨ i = .decClr ∨ (∃ b, i = .decm b) ∨
    ∃ n b, i = .decn n b) : ∃ g, OnDecSide g ∧ ∀ s, exec i s = .next (g s) := by
  have token : ∀ k, OnDecSide (gated (·.dec.inReady) (·.decToken k)) :=
    fun k => .gated (fun _ _ => rfl) fun _ _ => rfl
  have batch : ∀ j, OnDecSide (gated (·.decProc.isNone) (·.decBegin j)) :=
    fun j => .gated (fun _ _ => rfl) fun _ _ => rfl
  cases i with
  | dec1 => exact ⟨gated (·.dec.ready) State.decStart, .gated (fun _ _ => rfl) fun _ _ => rfl, fun _ => rfl⟩
  | byteCont p => exact ⟨_, token (.byte (byteOf true p)), fun _ => rfl⟩
  | byteTerm p => exact ⟨_, token (.byte (byteOf false p)), fun _ => rfl⟩
  | eob x => exact ⟨_, token (tokenOf true x), fun _ => rfl⟩
  | decm b => exact ⟨_, batch (DecJob.first none b), fun _ => rfl⟩
  | decn n b => exact ⟨_, batch (DecJob.first (some n) b), fun _ => rfl⟩
  | decClr => exact ⟨State.decClear, fun _ _ => rfl, fun _ => rfl⟩
  | enc1 | encm | encClr => simp [Instr.token?] at hi

/-- A step of ENC's procedure is an operation on ENC's side. -/
theorem stepEncJob_onEncSide (j : EncJob) : OnEncSide (stepEncJob j) := by
  intro s u
  unfold stepEncJob
  rw [State.withEncSide_enc]
  cases j.canMove s.enc
  · rfl
  · cases j.busy
    · cases j.left <;> rfl
    · rfl

/-- A step of DEC's procedure is an operation on DEC's side. -/
theorem stepDecJob_onDecSide (j : DecJob) : OnDecSide (stepDecJob j) := by
  intro s u
  unfold stepDecJob
  rw [State.withDecSide_dec]
  cases j.canMove s.dec
  · rfl
  · cases j.busy
    · cases j.wantsMore <;> rfl
    · rcases s.dec.result with _ | _ | _ <;> rfl

/-- The turn of ENC's procedure: a step of it, if there is one. -/
def State.encTurn (s : State) : State := (s.encProc.map fun j => stepEncJob j s).getD s

/-- The turn of DEC's procedure: a step of it, if there is one. -/
def State.decTurn (s : State) : State := (s.decProc.map fun j => stepDecJob j s).getD s

theorem takeTurn_enc (s : State) : takeTurn .enc s = .next s.encTurn := by
  cases h : s.encProc <;> simp [takeTurn, State.encTurn, h]

theorem takeTurn_dec (s : State) : takeTurn .dec s = .next s.decTurn := by
  cases h : s.decProc <;> simp [takeTurn, State.decTurn, h]

theorem State.encTurn_onEncSide : OnEncSide State.encTurn := by
  intro s u
  unfold State.encTurn
  rw [State.withEncSide_encProc]
  cases s.encProc with
  | none => rfl
  | some j => exact stepEncJob_onEncSide j s u

theorem State.decTurn_onDecSide : OnDecSide State.decTurn := by
  intro s u
  unfold State.decTurn
  rw [State.withDecSide_decProc]
  cases s.decProc with
  | none => rfl
  | some j => exact stepDecJob_onDecSide j s u

/-- Two turns given, each an operation that leaves the turns alone, are the two operations one after the other. -/
theorem runFor_two_turns {a b : Turn} {f g : State → State}
    (ha : ∀ s, takeTurn a s = .next (f s)) (hb : ∀ s, takeTurn b s = .next (g s))
    (hf : ∀ s us, f { s with turns := us } = { f s with turns := us })
    (hg : ∀ s us, g { s with turns := us } = { g s with turns := us }) (s : State) (us : List Turn) :
    runFor 2 { s with turns := a :: b :: us } = .next { g (f s) with turns := us } := by
  have h1 : step { s with turns := a :: b :: us } = .next (f { s with turns := b :: us }) := ha _
  have h2 : step { f s with turns := b :: us } = .next (g { f s with turns := us }) := hb _
  rw [hf] at h1
  rw [hg] at h2
  simp only [runFor, h1, h2]

/-- Settles O56: an instruction or a procedure of ENC is an operation on ENC's side, one of DEC an operation on DEC's
side, and those commute. -/
theorem stepsOfTheUnitsCommute : Obligations.StepsOfTheUnitsCommute := by
  unfold Obligations.StepsOfTheUnitsCommute
  refine ⟨fun s us => ?_, fun s t t' u u' i i' hi hi' h1 h2 h3 h4 => ?_⟩
  · have he := State.encTurn_onEncSide
    have hd := State.decTurn_onDecSide
    rw [runFor_two_turns takeTurn_enc takeTurn_dec he.with_turns hd.with_turns,
      runFor_two_turns takeTurn_dec takeTurn_enc hd.with_turns he.with_turns, he.commute hd]
  · obtain ⟨f, hf, hif⟩ := exec_onEncSide hi
    obtain ⟨g, hg, hig⟩ := exec_onDecSide hi'
    rw [hif] at h1 h4
    rw [hig] at h2 h3
    cases h1; cases h2; cases h3; cases h4
    exact (hf.commute hg s).symm

end Sys2Proof.Machine
end

section
/-!
DEC while a value is in progress: its invariant through each of its steps (`10_state.md` R35), and what it holds of a
buffer after so many of the buffer's tokens (`41_decode.md` R130, R134, R147).
-/
namespace Sys2Proof.Machine

/-- The or of DEC.BYTE adds the payload at its place, as long as it has value bits there (`41_decode.md` R138). -/
theorem nextAcc_eq_add {d : Dec} {p : Payload} (hi : d.i.toNat ≤ 9) (ha : d.acc.toNat < 2 ^ (7 * d.i.toNat))
    (hp : d.i.toNat = 9 → p.toNat < 2) : (nextAcc d p).toNat = d.acc.toNat + p.toNat * 2 ^ (7 * d.i.toNat) := by
  rw [nextAcc_toNat]
  by_cases h8 : d.i.toNat ≤ 8
  · rw [if_pos h8, or_shiftLeft_eq_add _ _ _ ha]
  · have h9 : d.i.toNat = 9 := by omega
    rw [if_neg h8, if_pos h9, Nat.mod_eq_of_lt (hp h9)]
    rw [h9] at ha ⊢
    exact or_shiftLeft_eq_add _ _ 63 ha

/-- No overflow after a byte: it was within the 10 bytes of a Value, and a tenth byte had no bits above the Value. -/
theorem nextOvf_false_iff {d : Dec} {p : Payload} :
    nextOvf d p = false ↔ d.i.toNat ≤ 9 ∧ d.ovf = false ∧ (d.i.toNat = 9 → p.toNat < 2) := by
  rw [nextOvf_eq]
  by_cases h8 : d.i.toNat ≤ 8
  · simp only [h8, if_true]
    constructor
    · intro h
      exact ⟨by omega, h, by omega⟩
    · exact fun h => h.2.1
  · by_cases h9 : d.i.toNat = 9
    · have hp : p.toNat / 2 = 0 ↔ p.toNat < 2 := by omega
      simp [h9, hp, and_comm]
    · simp only [h8, h9, if_false, reduceCtorEq, false_iff]
      omega

/-! ### The invariant of DEC -/

theorem Dec.inv_reset : Dec.reset.Inv := by decide

theorem Dec.Inv.cause_eq_none {d : Dec} (h : d.Inv) (hs : d.st ≠ .fault) : d.cause = none := by
  obtain ⟨-, hc, -⟩ := h
  by_contra hne
  exact hs (hc.1 hne)

theorem Dec.Inv.start {d : Dec} (h : d.Inv) (hs : d.st ≠ .fault) : d.start.Inv := by
  simp [Dec.Inv, Dec.start, h.cause_eq_none hs]

theorem Dec.Inv.eobStep {d : Dec} (h : d.Inv) : d.eobStep.Inv := by
  obtain ⟨hi, -⟩ := h
  simp [Dec.Inv, Dec.eobStep, Dec.raise, hi]

/-- As long as there is no overflow the accumulator stays below the bits accepted. -/
theorem Dec.Inv.nextAcc_lt {d : Dec} (h : d.Inv) (hr : d.st = .run) {p : Payload} (ho : nextOvf d p = false) :
    (nextAcc d p).toNat < 2 ^ (7 * (nextIndex d.i).toNat) := by
  obtain ⟨-, -, hacc, -⟩ := h
  obtain ⟨h9, hovf, hp⟩ := nextOvf_false_iff.1 ho
  have hlt := hacc hr hovf h9
  have hmin : min (d.i.toNat + 1) 10 = d.i.toNat + 1 := by omega
  rw [nextIndex_toNat, nextAcc_eq_add h9 hlt hp, hmin, Nat.mul_add, pow_add]
  have := Nat.mul_le_mul_right (2 ^ (7 * d.i.toNat)) (Nat.le_pred_of_lt p.isLt)
  simp only [Nat.pred_eq_sub_one] at this
  omega

/-- In RUN an overflow after a byte is one at index 10. -/
theorem Dec.Inv.nextIndex_eq_ten {d : Dec} (h : d.Inv) (hr : d.st = .run) {p : Payload} (ho : nextOvf d p = true) :
    (nextIndex d.i).toNat = 10 := by
  obtain ⟨-, -, -, -, hovf⟩ := h
  rw [nextIndex_toNat]
  by_contra hne
  have h8 : d.i.toNat ≤ 8 := by omega
  rw [nextOvf_eq, if_pos h8] at ho
  have := hovf hr ho
  omega

theorem Dec.Inv.byteStep {d : Dec} (h : d.Inv) (hr : d.st = .run) (b : Byte) : (d.byteStep b).Inv := by
  have hc := h.cause_eq_none (by simp [hr])
  have hi : (nextIndex d.i).toNat ≤ 10 := by rw [nextIndex_toNat]; omega
  have h1 : 1 ≤ (nextIndex d.i).toNat := by rw [nextIndex_toNat]; omega
  rcases d.byteStep_cases b with ⟨-, he⟩ | ⟨-, -, he⟩ | ⟨-, ho, he⟩
  · simpa [he, Dec.Inv, Dec.absorb, hc, hi] using
      ⟨fun ho _ => h.nextAcc_lt (p := payload b) hr ho, h.nextIndex_eq_ten (p := payload b) hr⟩
  · simp [he, Dec.Inv, Dec.absorb, hi]
  · simpa [he, Dec.Inv, Dec.absorb, hc, hi, ho, h1] using fun _ => h.nextAcc_lt hr ho

theorem Dec.Inv.tokenStep {d : Dec} (h : d.Inv) (hr : d.st = .run) (t : Token) : (d.tokenStep t).Inv := by
  cases t with
  | byte b => exact h.byteStep hr b
  | eob => exact h.eobStep

/-! ### What DEC holds of a buffer -/

/-- DEC after `m` tokens of buffer `b`: on, with the value of the bytes so far (which are no more exact from the tenth
on, all having bit 7 set), or at the result of `dec1`. -/
def Dec.Decodes (d : Dec) (b : List Byte) (m : Nat) : Prop :=
  (d.st = .run ∧ d.cause = none ∧ m ≤ b.length ∧ (∀ x ∈ b.take m, contBit x = true) ∧ d.i.toNat = min m 10 ∧
    (m ≤ 9 → d.ovf = false ∧ d.acc.toNat = runValue (b.take m))) ∨
  (d.st = .done ∧ dec1 b = .ok d.acc d.i.toNat) ∨
  ∃ c, d.st = .fault ∧ d.cause = some c ∧ dec1 b = .fault c

theorem Dec.decodes_zero (b : List Byte) : Dec.Decodes ⟨.run, 0, 0, false, none⟩ b 0 :=
  .inl ⟨rfl, rfl, Nat.zero_le _, by simp, rfl, fun _ => ⟨rfl, rfl⟩⟩

theorem Dec.Decodes.result_ok {d : Dec} {b : List Byte} {m : Nat} (h : d.Decodes b m) (hs : d.st = .done) :
    dec1 b = .ok d.acc d.i.toNat := by
  rcases h with ⟨hr, -⟩ | ⟨-, h⟩ | ⟨c, hf, -⟩
  · simp [hs] at hr
  · exact h
  · simp [hs] at hf

theorem Dec.Decodes.result_fault {d : Dec} {b : List Byte} {m : Nat} (h : d.Decodes b m) {c : FaultCode}
    (hs : d.st = .fault) (hc : d.cause = some c) : dec1 b = .fault c := by
  rcases h with ⟨hr, -⟩ | ⟨hd, -⟩ | ⟨c', -, hc', h⟩
  · simp [hs] at hr
  · simp [hs] at hd
  · rw [hc, Option.some.injEq] at hc'
    rwa [hc']

/-- Outside RUN no token moves DEC, and its result is that of the whole buffer. -/
theorem Dec.Decodes.of_not_run {d : Dec} {b : List Byte} {m : Nat} (h : d.Decodes b m) (hs : d.st ≠ .run) (n : Nat) :
    d.Decodes b n :=
  h.elim (fun hr => absurd hr.1 hs) .inr

/-- The terminating byte of a buffer, met after bytes that all have bit 7 set. -/
theorem termIndex_of_take {b : List Byte} {m : Nat} (hm : m < b.length) (hall : ∀ x ∈ b.take m, contBit x = true)
    (hc : contBit b[m] = false) : termIndex b = some m := by
  refine (termIndex_some_iff b m).2 ⟨b[m], List.getElem?_eq_getElem hm, hc, fun j y hj hy => hall y ?_⟩
  exact List.mem_iff_getElem?.2 ⟨j, by rw [List.getElem?_take_of_lt hj, hy]⟩

/-- `runValue` of one more byte. -/
theorem runValue_take_succ {b : List Byte} {m : Nat} (hm : m < b.length) :
    runValue (b.take (m + 1)) = runValue (b.take m) + (payload b[m]).toNat * 2 ^ (7 * m) := by
  rw [List.take_succ_eq_append_getElem hm, runValue_append, runValue_cons, runValue_nil, payload_toNat,
    List.length_take_of_le hm.le]
  ring

/-- DEC.BYTE with the buffer's next byte. -/
theorem Dec.Decodes.byteStep {d : Dec} {b : List Byte} {m : Nat} (h : d.Decodes b m) (hr : d.st = .run)
    (hm : m < b.length) : (d.byteStep b[m]).Decodes b (m + 1) := by
  rcases h with ⟨-, hcause, -, hall, hi, hacc⟩ | ⟨hd, -⟩ | ⟨c, hf, -⟩
  case inr.inl => simp [hr] at hd
  case inr.inr => simp [hr] at hf
  have hi' : (nextIndex d.i).toNat = min (m + 1) 10 := by rw [nextIndex_toNat]; omega
  -- the accumulator stays the exact sum as long as there is no overflow
  have hsum : nextOvf d (payload b[m]) = false →
      m ≤ 9 ∧ (nextAcc d (payload b[m])).toNat = runValue (b.take (m + 1)) := by
    intro ho
    obtain ⟨h9, -, hp⟩ := nextOvf_false_iff.1 ho
    have hm9 : m ≤ 9 := by omega
    have him : d.i.toNat = m := by omega
    have hlt : d.acc.toNat < 2 ^ (7 * d.i.toNat) := by
      have := runValue_lt (b.take m)
      rwa [List.length_take_of_le hm.le, ← (hacc hm9).2, ← him] at this
    exact ⟨hm9, by rw [nextAcc_eq_add h9 hlt hp, runValue_take_succ hm, (hacc hm9).2, him]⟩
  rcases d.byteStep_cases b[m] with ⟨hc, he⟩ | ⟨hc, ho, he⟩ | ⟨hc, ho, he⟩
  · -- bit 7 set: on
    left
    refine ⟨by simp [he], by simp [he, Dec.absorb, hcause], hm, ?_, by simpa [he, Dec.absorb] using hi', fun h9 => ?_⟩
    · intro x hx
      rw [List.take_succ_eq_append_getElem hm, List.mem_append, List.mem_singleton] at hx
      rcases hx with hx | rfl
      · exact hall x hx
      · exact hc
    · have ho : nextOvf d (payload b[m]) = false :=
        nextOvf_false_iff.2 ⟨by omega, (hacc (by omega)).1, by omega⟩
      simpa [he, Dec.absorb, ho] using (hsum ho).2
  · -- terminating, with an overflow: Range
    right; right
    refine ⟨.range, by simp [he], by simp [he], (dec1_range_iff b).2 ⟨m, termIndex_of_take hm hall hc, ?_⟩⟩
    rw [outOfRange_iff b m b[m] (List.getElem?_eq_getElem hm) hc]
    by_contra hno
    have hlt : b[m].toNat < 128 := by simpa [contBit_eq_decide] using hc
    have hof : nextOvf d (payload b[m]) = false :=
      nextOvf_false_iff.2 ⟨by omega, (hacc (by omega)).1, by rw [payload_toNat]; omega⟩
    rw [ho] at hof
    cases hof
  · -- terminating, without: the value
    right; left
    obtain ⟨hm9, hval⟩ := hsum ho
    obtain ⟨-, -, hp⟩ := nextOvf_false_iff.1 ho
    refine ⟨by simp [he], (dec1_ok_iff b _ _).2 ⟨m, termIndex_of_take hm hall hc, ?_, ?_, ?_⟩⟩
    · rw [Bool.eq_false_iff, ne_eq, outOfRange_iff b m b[m] (List.getElem?_eq_getElem hm) hc]
      have hlt : b[m].toNat < 128 := by simpa [contBit_eq_decide] using hc
      rw [payload_toNat] at hp
      omega
    · simp only [he, Dec.absorb, hi']
      omega
    · simp only [he, Dec.absorb, ← hval, BitVec.ofNat_toNat, BitVec.setWidth_eq]

/-- DEC.EOB after all bytes of a buffer. -/
theorem Dec.Decodes.eobStep {d : Dec} {b : List Byte} (h : d.Decodes b b.length) (hr : d.st = .run) (n : Nat) :
    d.eobStep.Decodes b n := by
  rcases h with ⟨-, -, -, hall, -⟩ | ⟨hd, -⟩ | ⟨c, hf, -⟩
  case inr.inl => simp [hr] at hd
  case inr.inr => simp [hr] at hf
  rw [List.take_length] at hall
  exact .inr (.inr ⟨.truncated, rfl, rfl, (dec1_truncated_iff b).2 ((termIndex_none_iff b).2 hall)⟩)

theorem bufferTokens_getElem?_lt {b : List Byte} {m : Nat} (hm : m < b.length) :
    (bufferTokens b)[m]? = some (.byte b[m]) := by
  simp [bufferTokens, List.getElem?_append, hm]

theorem bufferTokens_getElem?_length (b : List Byte) : (bufferTokens b)[b.length]? = some .eob := by
  simp [bufferTokens]

/-- The next token of the buffer on DEC's lines, if there is one. -/
theorem Dec.Decodes.next {d : Dec} {b : List Byte} {m : Nat} (h : d.Decodes b m) :
    ((bufferTokens b)[m]?.toList.foldl (fun d t => d.edge t.lines) d).Decodes b (m + 1) := by
  by_cases hr : d.st = .run
  · have hle : m ≤ b.length := by
      rcases h with ⟨-, -, hle, -⟩ | ⟨hd, -⟩ | ⟨c, hf, -⟩
      · exact hle
      · simp [hr] at hd
      · simp [hr] at hf
    rcases hle.lt_or_eq with hm | rfl
    · simpa [bufferTokens_getElem?_lt hm, Dec.edge_token, hr, Dec.tokenStep] using h.byteStep hr hm
    · simpa [bufferTokens_getElem?_length, Dec.edge_token, hr, Dec.tokenStep] using h.eobStep hr (b.length + 1)
  · cases ht : (bufferTokens b)[m]? with
    | none => exact h.of_not_run hr _
    | some t => simpa [Dec.edge_token, hr] using h.of_not_run hr (m + 1)

/-- DEC after the first `m` tokens of a buffer, presented one by one since DEC.START. -/
theorem Dec.decodes_foldl (b : List Byte) (m : Nat) :
    Dec.Decodes (((bufferTokens b).take m).foldl (fun d t => d.edge t.lines) ⟨.run, 0, 0, false, none⟩) b m := by
  induction m with
  | zero => exact Dec.decodes_zero b
  | succ m ih =>
    rw [List.take_add_one, List.foldl_append]
    exact ih.next

end Sys2Proof.Machine
end

section
/-!
What the procedures of ENCM, DECM and DECN will give (`42_batch.md` R161, R164, R167), through each step of their own,
and what any other step of the machine does to a procedure in progress.
-/
namespace Sys2Proof.Machine

/-! ### A step of the procedure on the other unit -/

@[simp] theorem stepEncJob_dec (j : EncJob) (s : State) : (stepEncJob j s).dec = s.dec :=
  (stepEncJob_onEncSide j).dec s
@[simp] theorem stepEncJob_decProc (j : EncJob) (s : State) : (stepEncJob j s).decProc = s.decProc :=
  (stepEncJob_onEncSide j).decProc s
@[simp] theorem stepEncJob_decResult (j : EncJob) (s : State) : (stepEncJob j s).decResult = s.decResult :=
  (stepEncJob_onEncSide j).decResult s
@[simp] theorem stepEncJob_clrDue (j : EncJob) (s : State) : (stepEncJob j s).clrDue = s.clrDue :=
  (stepEncJob_onEncSide j).clrDue s
@[simp] theorem stepEncJob_script (j : EncJob) (s : State) : (stepEncJob j s).script = s.script :=
  (stepEncJob_onEncSide j).script s

@[simp] theorem stepDecJob_enc (j : DecJob) (s : State) : (stepDecJob j s).enc = s.enc :=
  (stepDecJob_onDecSide j).enc s
@[simp] theorem stepDecJob_out (j : DecJob) (s : State) : (stepDecJob j s).out = s.out :=
  (stepDecJob_onDecSide j).out s
@[simp] theorem stepDecJob_encProc (j : DecJob) (s : State) : (stepDecJob j s).encProc = s.encProc :=
  (stepDecJob_onDecSide j).encProc s
@[simp] theorem stepDecJob_encResult (j : DecJob) (s : State) : (stepDecJob j s).encResult = s.encResult :=
  (stepDecJob_onDecSide j).encResult s
@[simp] theorem stepDecJob_script (j : DecJob) (s : State) : (stepDecJob j s).script = s.script :=
  (stepDecJob_onDecSide j).script s

/-! ### Steps beside the procedure on ENC -/

/-- An instruction that is not held leaves the procedure on ENC and its unit, or clears ENC. -/
theorem exec_beside_encProc {i : Instr} {s t : State} {j : EncJob} (h : exec i s = .next t) (hp : s.encProc = some j)
    (hh : s.held i = false) :
    (i = .encClr ∧ t = s.encClear) ∨ (t.enc = s.enc ∧ t.encProc = s.encProc ∧ t.encResult = s.encResult) := by
  rcases exec_cases h with rfl | ⟨v, rfl, -⟩ | ⟨-, -, rfl⟩ | ⟨k, -, -, rfl⟩ | ⟨vs, rfl, -⟩ | ⟨b, -, -, rfl⟩ |
    ⟨n, b, -, -, rfl⟩ | hc | ⟨-, rfl⟩
  · exact .inr ⟨rfl, rfl, rfl⟩
  · simp [State.held, hp] at hh
  · exact .inr ⟨rfl, rfl, rfl⟩
  · exact .inr ⟨rfl, rfl, rfl⟩
  · simp [State.held, hp] at hh
  · exact .inr ⟨rfl, rfl, rfl⟩
  · exact .inr ⟨rfl, rfl, rfl⟩
  · exact .inl hc
  · exact .inr ⟨rfl, rfl, rfl⟩

/-- An edge that is not held resets the machine, clears ENC, or leaves ENC and the procedure on it. -/
theorem edge_beside_encProc {l : InLines} {s : State} {j : EncJob} (hp : s.encProc = some j)
    (hh : s.edgeHeld l = false) :
    (l.rst = true ∧ (s.edge l).enc = Enc.reset ∧ (s.edge l).encProc = none) ∨
    (l.encClr = true ∧ (s.edge l).enc = Enc.reset ∧ (s.edge l).encProc = afterEncClr (some j)) ∨
    ((s.edge l).enc = s.enc ∧ (s.edge l).encProc = s.encProc) := by
  cases hr : l.rst
  · cases hc : l.encClr
    · simp [State.edgeHeld, hp, hr, hc] at hh
      simp [Enc.edge, hr, hc, hh]
    · simp [Enc.edge, hr, hc, hp, Enc.clear, Enc.reset]
  · simp [Enc.edge, hr]

/-- A step of the machine while a procedure is on ENC: the procedure's own, or a reset, or a clear of ENC, or one that
leaves ENC and the procedure as they are. -/
theorem step_beside_encProc {s t : State} {j : EncJob} (h : step s = .next t) (hp : s.encProc = some j) :
    (s.presents = j.lines ∧ t = stepEncJob j { s with turns := s.turns.tail }) ∨
    (t.encResult = s.encResult ∧
      ((s.presents.rst = true ∧ t.enc = Enc.reset ∧ t.encProc = none) ∨
       (s.presents.encClr = true ∧ t.enc = Enc.reset ∧ t.encProc = afterEncClr (some j)) ∨
       (t.enc = s.enc ∧ t.encProc = s.encProc))) := by
  rcases step_cases s with ⟨-, hs⟩ | ⟨j', -, hp', hl, hs⟩ | ⟨j', -, -, -, hs⟩ | ⟨-, -, i, -, -, -, -, -, -, hs⟩ |
    ⟨-, rest, i, -, -, -, hh, -, -, hl, hs⟩ | ⟨-, rest, -, -, -, hn, -, -, hs⟩ | ⟨-, rest, l, -, -, -, hh, hl, hs⟩ |
    ⟨-, rest, -, -, -, -, hs⟩ | ⟨-, -, p, -, -, -, -, hs⟩ <;> rw [h] at hs
  · cases hs
    exact .inr ⟨rfl, .inr (.inr ⟨rfl, rfl⟩)⟩
  · cases hp.symm.trans hp'
    exact .inl ⟨hl, Host.Outcome.next.inj hs⟩
  · cases hs
    exact .inr ⟨stepDecJob_encResult _ _, .inr (.inr ⟨stepDecJob_enc _ _, stepDecJob_encProc _ _⟩)⟩
  · cases hs
    exact .inr ⟨rfl, .inr (.inr ⟨rfl, rfl⟩)⟩
  · rcases exec_beside_encProc (j := j) hs.symm hp hh with ⟨rfl, rfl⟩ | ⟨he, hp', hr⟩
    · exact .inr ⟨rfl, .inr (.inl ⟨by rw [hl]; rfl, rfl, by simp [hp]⟩)⟩
    · exact .inr ⟨hr, .inr (.inr ⟨he, hp'⟩)⟩
  · rw [hp] at hn
    cases hn
  · cases hs
    rw [hl]
    exact .inr ⟨rfl, edge_beside_encProc (j := j) hp hh⟩
  · cases hs
    exact .inr ⟨rfl, .inr (.inr ⟨rfl, rfl⟩)⟩
  · cases hs

/-! ### Steps beside the procedure on DEC -/

/-- An instruction that is not held leaves the procedure on DEC and its unit, or clears DEC. -/
theorem exec_beside_decProc {i : Instr} {s t : State} {j : DecJob} (h : exec i s = .next t) (hp : s.decProc = some j)
    (hh : s.held i = false) : (i = .decClr ∧ t = s.decClear) ∨
      (t.dec = s.dec ∧ t.decProc = s.decProc ∧ t.decResult = s.decResult ∧ t.clrDue = s.clrDue) := by
  rcases exec_cases h with rfl | ⟨v, -, -, rfl⟩ | ⟨rfl, -⟩ | ⟨k, hk, -⟩ | ⟨vs, -, -, rfl⟩ | ⟨b, rfl, -⟩ |
    ⟨n, b, rfl, -⟩ | ⟨-, rfl⟩ | hc
  · exact .inr ⟨rfl, rfl, rfl, rfl⟩
  · exact .inr ⟨rfl, rfl, rfl, rfl⟩
  · simp [State.held, hp] at hh
  · cases i <;> simp [State.held, hp, Instr.token?] at hh hk
  · exact .inr ⟨rfl, rfl, rfl, rfl⟩
  · simp [State.held, hp] at hh
  · simp [State.held, hp] at hh
  · exact .inr ⟨rfl, rfl, rfl, rfl⟩
  · exact .inl hc

/-- An edge that is not held resets the machine, clears DEC, or leaves DEC and the procedure on it. -/
theorem edge_beside_decProc {l : InLines} {s : State} {j : DecJob} (hp : s.decProc = some j)
    (hh : s.edgeHeld l = false) :
    (l.rst = true ∧ (s.edge l).dec = Dec.reset ∧ (s.edge l).decProc = none) ∨
    (l.decClr = true ∧ (s.edge l).dec = Dec.reset ∧ (s.edge l).decProc = afterDecClr (some j)) ∨
    ((s.edge l).dec = s.dec ∧ (s.edge l).decProc = s.decProc ∧ (s.edge l).clrDue = s.clrDue) := by
  cases hr : l.rst
  · cases hc : l.decClr
    · simp [State.edgeHeld, hp, hr, hc] at hh
      simp [Dec.edge, hr, hc, hh]
    · simp [Dec.edge, hr, hc, hp, Dec.clear, Dec.reset]
  · simp [Dec.edge, hr]

/-- An instruction before which a clear is owed uses DEC, so it is held while a procedure is on DEC. -/
theorem held_of_owesClear {s : State} {i : Instr} {j : DecJob} (ho : s.owesClear i = true) (hp : s.decProc = some j) :
    s.held i = true := by
  cases i <;> simp [State.owesClear, State.held, hp] at ho ⊢

/-- A step of the machine while a procedure is on DEC: the procedure's own, or a reset, or a clear of DEC, or one that
leaves DEC, the procedure and what is owed as they are. -/
theorem step_beside_decProc {s t : State} {j : DecJob} (h : step s = .next t) (hp : s.decProc = some j) :
    (s.presents = j.lines s.dec ∧ t = stepDecJob j { s with turns := s.turns.tail }) ∨
    (t.decResult = s.decResult ∧
      ((s.presents.rst = true ∧ t.dec = Dec.reset ∧ t.decProc = none) ∨
       (s.presents.decClr = true ∧ t.dec = Dec.reset ∧ t.decProc = afterDecClr (some j)) ∨
       (t.dec = s.dec ∧ t.decProc = s.decProc ∧ t.clrDue = s.clrDue))) := by
  rcases step_cases s with ⟨-, hs⟩ | ⟨j', -, -, -, hs⟩ | ⟨j', -, hp', hl, hs⟩ | ⟨-, -, i, -, -, -, hh, ho, -, hs⟩ |
    ⟨-, rest, i, -, -, -, hh, -, -, hl, hs⟩ | ⟨-, rest, -, -, -, -, -, -, hs⟩ | ⟨-, rest, l, -, -, -, hh, hl, hs⟩ |
    ⟨-, rest, -, -, -, -, hs⟩ | ⟨-, -, p, -, -, -, -, hs⟩ <;> rw [h] at hs
  · cases hs
    exact .inr ⟨rfl, .inr (.inr ⟨rfl, rfl, rfl⟩)⟩
  · cases hs
    exact .inr ⟨stepEncJob_decResult _ _,
      .inr (.inr ⟨stepEncJob_dec _ _, stepEncJob_decProc _ _, stepEncJob_clrDue _ _⟩)⟩
  · cases hp.symm.trans hp'
    exact .inl ⟨hl, Host.Outcome.next.inj hs⟩
  · rw [held_of_owesClear ho hp] at hh
    cases hh
  · rcases exec_beside_decProc (j := j) hs.symm hp hh with ⟨rfl, rfl⟩ | ⟨he, hp', hr, hc⟩
    · exact .inr ⟨rfl, .inr (.inl ⟨by rw [hl]; rfl, rfl, by simp [hp]⟩)⟩
    · exact .inr ⟨hr, .inr (.inr ⟨he, hp', hc⟩)⟩
  · cases hs
    exact .inr ⟨rfl, .inr (.inr ⟨rfl, rfl, rfl⟩)⟩
  · cases hs
    rw [hl]
    exact .inr ⟨rfl, edge_beside_decProc (j := j) hp hh⟩
  · cases hs
    exact .inr ⟨rfl, .inr (.inr ⟨rfl, rfl, rfl⟩)⟩
  · cases hs

/-! ### What the procedure of ENCM will give -/

/-- The next byte ENC presents, then the form of the rest, if there is one (`40_encode.md` R110, R114). -/
theorem enc1_eq_outByte (e : Enc) : enc1 e.rem = e.outByte :: if e.more then enc1 e.emitStep.rem else [] := by
  rw [enc1_eq]
  cases h : e.more
  · have hz : shiftGroup e.rem = 0 := by simpa [Enc.more] using h
    rw [if_pos hz, Enc.outByte, h]
    rfl
  · have hz : shiftGroup e.rem ≠ 0 := by simpa [Enc.more] using h
    rw [if_neg hz, Enc.outByte, h]
    rfl

/-- A step of the procedure of ENCM keeps what it will give, or ends with exactly that. -/
theorem stepEncJob_outlook {j : EncJob} {s : State} (hp : s.encProc = some j) (hi : j.Inv s.enc) :
    (∃ j', (stepEncJob j s).encProc = some j' ∧ j'.Inv (stepEncJob j s).enc ∧
      j'.outlook (stepEncJob j s).enc = j.outlook s.enc) ∨
    ((stepEncJob j s).encProc = none ∧ (stepEncJob j s).encResult = some (j.outlook s.enc)) := by
  rcases stepEncJob_cases j s with ⟨hb, -, -, he⟩ | ⟨hb, hl, -, he⟩ | ⟨v, vs, hb, hl, -, -, he⟩ | ⟨-, he⟩ <;> rw [he]
  · left
    refine ⟨_, rfl, ?_, ?_⟩
    · intro hm
      simpa [Enc.emitStep] using hm
    · simp [EncJob.outlook, hb, enc1_eq_outByte s.enc]
  · right
    simp [EncJob.outlook, hb, hl, encMany]
  · left
    exact ⟨_, rfl, fun _ => rfl, by simp [EncJob.outlook, hb, hl, encMany, Enc.accept]⟩
  · exact .inl ⟨j, hp, hi, rfl⟩

/-! ### What the procedure of DECM or DECN will give -/

/-- The tokens of a buffer after some of its bytes are those of the rest. -/
theorem bufferTokens_drop {b : List Byte} {n : Nat} (h : n ≤ b.length) :
    (bufferTokens b).drop n = bufferTokens (b.drop n) := by
  rw [bufferTokens, List.drop_append_of_le_length (by simpa using h), ← List.map_drop, bufferTokens]

/-- The invariant during a `DEC1` of the procedure. -/
theorem DecJob.inv_iff_of_busy {j : DecJob} (hb : j.busy = true) (d : Dec) : j.Inv d ↔
    j.consumed ≤ j.accepted ∧ j.accepted ≤ j.buf.length + 1 ∧ j.wantsMore = true ∧ d.st ≠ .idle ∧
    (d.st = .done → j.accepted = j.consumed + d.i.toNat ∧ j.accepted ≤ j.buf.length) ∧
    (d.st = .run → j.accepted ≤ j.buf.length ∧ j.consumed + d.i.toNat ≤ j.accepted ∧
      (d.i.toNat < 10 → j.accepted = j.consumed + d.i.toNat)) := by
  simp [DecJob.Inv, hb, and_assoc]

theorem DecJob.Inv.wantsMore {j : DecJob} {d : Dec} (h : j.Inv d) (hb : j.busy = true) : j.wantsMore = true := by
  obtain ⟨-, -, hw, -⟩ := (DecJob.inv_iff_of_busy hb d).1 h
  exact hw

/-- While DEC asks for a token the `EOB` has not been accepted. -/
theorem DecJob.Inv.accepted_le {j : DecJob} {d : Dec} (h : j.Inv d) (hb : j.busy = true) (hs : d.st = .run) :
    j.accepted ≤ j.buf.length := by
  obtain ⟨-, -, -, -, -, hrun⟩ := (DecJob.inv_iff_of_busy hb d).1 h
  exact (hrun hs).1

/-- No `DEC1` of a procedure begins behind its buffer's bytes. -/
theorem DecJob.Tracks.consumed_le {j : DecJob} {d : Dec} (ht : j.Tracks d) (hi : j.Inv d) (hb : j.busy = true) :
    j.consumed ≤ j.buf.length := by
  have hca : j.consumed ≤ j.accepted := hi.1
  by_contra hlt
  have hcur : j.current = [] := by
    rw [DecJob.current, List.drop_eq_nil_of_le (by simp [bufferTokens]; omega), List.take_nil]
  have hst : d.st = .run := by rw [ht hb, hcur]; rfl
  have := hi.accepted_le hb hst
  omega

/-- During a `DEC1` of a procedure DEC holds what its tokens left of the bytes not consumed yet. -/
theorem DecJob.Tracks.decodes {j : DecJob} {d : Dec} (ht : j.Tracks d) (hi : j.Inv d) (hb : j.busy = true) :
    d.Decodes (j.buf.drop j.consumed) (j.accepted - j.consumed) := by
  rw [ht hb, DecJob.current, bufferTokens_drop (ht.consumed_le hi hb)]
  exact Dec.decodes_foldl _ _

/-- The loop goes on: for DECM with bytes left, for DECN with Values to come. -/
theorem DecJob.wantsMore_iff (j : DecJob) : j.wantsMore = true ↔
    (j.count = none ∧ j.buf.drop j.consumed ≠ []) ∨ ∃ n, j.count = some n ∧ j.vals.length < n := by
  cases hc : j.count <;> simp [DecJob.wantsMore, hc]

/-- A fault of the `DEC1` in progress is the operation's result. -/
theorem DecJob.outlook_of_fault {j : DecJob} {c : FaultCode} (hw : j.wantsMore = true)
    (h : dec1 (j.buf.drop j.consumed) = .fault c) : j.outlook = .fault c := by
  rcases j.wantsMore_iff.1 hw with ⟨hc, hne⟩ | ⟨n, hc, hlt⟩
  · obtain ⟨b, bs, hb⟩ := List.exists_cons_of_ne_nil hne
    rw [hb] at h
    simp [DecJob.outlook, hc, hb, decManyLoop, h]
  · obtain ⟨k, hk⟩ := Nat.exists_eq_succ_of_ne_zero (Nat.sub_ne_zero_of_lt hlt)
    simp [DecJob.outlook, hc, hk, decNLoop, h]

/-- A Value collected leaves the operation's result as it was to be. -/
theorem DecJob.outlook_collect {j : DecJob} {v : Value} {n : Nat} (hw : j.wantsMore = true)
    (h : dec1 (j.buf.drop j.consumed) = .ok v n) : (j.collect v n).outlook = j.outlook := by
  rcases j.wantsMore_iff.1 hw with ⟨hc, hne⟩ | ⟨m, hc, hlt⟩
  · obtain ⟨b, bs, hb⟩ := List.exists_cons_of_ne_nil hne
    have hn := dec1_ok_bounds h
    rw [hb] at h hn
    have hlen : ((b :: bs).drop n).length ≤ bs.length := by
      simp only [List.length_drop, List.length_cons]
      omega
    simp only [DecJob.outlook, DecJob.collect, hc, ← List.drop_drop, hb, List.length_cons, decManyLoop, h]
    exact (decManyLoop_fuel _ _ _ hlen).symm
  · obtain ⟨k, hk⟩ := Nat.exists_eq_succ_of_ne_zero (Nat.sub_ne_zero_of_lt hlt)
    have hk' : m - (j.vals.length + 1) = k := by omega
    simp [DecJob.outlook, DecJob.collect, hc, hk, hk', decNLoop, h]

/-- When the loop is over, its outcome is what was to be. -/
theorem DecJob.outlook_of_over {j : DecJob} (hw : j.wantsMore = false) : j.outlook = j.outcome := by
  cases hc : j.count with
  | none =>
    have hd : j.buf.drop j.consumed = [] := by simpa [DecJob.wantsMore, hc] using hw
    simp [DecJob.outlook, DecJob.outcome, hc, hd, decManyLoop]
  | some n =>
    have hn : n - j.vals.length = 0 := by simpa [DecJob.wantsMore, hc, Nat.sub_eq_zero_iff_le] using hw
    simp [DecJob.outlook, DecJob.outcome, hc, hn, decNLoop, restView]

theorem DecJob.outcome_ne_fault (j : DecJob) (c : FaultCode) : j.outcome ≠ .fault c := by
  cases hc : j.count <;> simp [DecJob.outcome, hc]

/-- The procedure of DECM or DECN begins its `DEC1`. -/
theorem DecJob.Inv.begin {j : DecJob} {d : Dec} (h : j.Inv d) (hb : j.busy = false) (hw : j.wantsMore = true) :
    DecJob.Inv { j with busy := true } d.start := by
  obtain ⟨hca, hal, hidle, -⟩ := h
  obtain ⟨hac, hab⟩ := hidle hb
  refine (DecJob.inv_iff_of_busy rfl _).2 ⟨hca, hal, hw, ?_, ?_, fun _ => ⟨hab, hca, fun _ => hac⟩⟩
  · simp [Dec.start]
  · simp [Dec.start]

/-- The procedure of DECM or DECN collects a Value. -/
theorem DecJob.Inv.collect {j : DecJob} {d : Dec} (h : j.Inv d) (hb : j.busy = true) (hs : d.st = .done) (v : Value)
    (d' : Dec) : (j.collect v d.i.toNat).Inv d' := by
  obtain ⟨-, hal, -, -, hdone, -⟩ := h
  obtain ⟨hac, hab⟩ := hdone hb hs
  simp [DecJob.Inv, DecJob.collect, hac]
  omega

theorem DecJob.nextAccepted_of_le {j : DecJob} (hab : j.accepted ≤ j.buf.length) :
    j.nextAccepted = j.accepted + 1 := by
  rw [DecJob.nextAccepted_eq]
  omega

/-- The procedure of DECM or DECN has its next token accepted. -/
theorem DecJob.Inv.token {j : DecJob} {d : Dec} (h : j.Inv d) (hb : j.busy = true) (hs : d.st = .run) :
    DecJob.Inv { j with accepted := j.nextAccepted } (d.tokenStep j.nextToken) := by
  obtain ⟨hca, -, hw, -, -, hrun⟩ := (DecJob.inv_iff_of_busy hb d).1 h
  obtain ⟨hab, hle, heq⟩ := hrun hs
  rw [DecJob.nextAccepted_of_le hab]
  refine (DecJob.inv_iff_of_busy (j := { j with accepted := j.accepted + 1 }) hb _).2
    ⟨Nat.le_succ_of_le hca, Nat.succ_le_succ hab, hw, ?_⟩
  rcases hab.lt_or_eq with hlt | hend
  · have hi := nextIndex_toNat d.i
    rw [DecJob.nextToken_of_lt hlt, Dec.tokenStep]
    rcases d.byteStep_cases j.buf[j.accepted] with ⟨-, he⟩ | ⟨-, -, he⟩ | ⟨-, ho, he⟩
    · simp [he, Dec.absorb, hi]
      omega
    · simp [he]
    · obtain ⟨h9, -⟩ := nextOvf_false_iff.1 ho
      simp [he, Dec.absorb, hi]
      omega
  · simp [DecJob.nextToken_of_ge hend.ge, Dec.tokenStep, Dec.eobStep, Dec.raise]

/-- The procedure's next token stands in its buffer's tokens, up to the `EOB`. -/
theorem DecJob.getElem?_accepted {j : DecJob} (hab : j.accepted ≤ j.buf.length) :
    (bufferTokens j.buf)[j.accepted]? = some j.nextToken := by
  rcases hab.lt_or_eq with hlt | hend
  · rw [bufferTokens_getElem?_lt hlt, DecJob.nextToken_of_lt hlt]
  · rw [hend, bufferTokens_getElem?_length, DecJob.nextToken_of_ge hend.ge]

/-- The tokens of the value in progress, with the next one accepted. -/
theorem DecJob.current_token {j : DecJob} (hca : j.consumed ≤ j.accepted) (hab : j.accepted ≤ j.buf.length) :
    DecJob.current { j with accepted := j.nextAccepted } = j.current ++ [j.nextToken] := by
  have hsub : j.accepted + 1 - j.consumed = (j.accepted - j.consumed) + 1 := by omega
  have hget : ((bufferTokens j.buf).drop j.consumed)[j.accepted - j.consumed]? = some j.nextToken := by
    rw [List.getElem?_drop, Nat.add_sub_cancel' hca, DecJob.getElem?_accepted hab]
  simp only [DecJob.current, DecJob.nextAccepted_of_le hab, hsub, List.take_add_one, hget, Option.toList_some]

/-- DEC goes on tracking the procedure's tokens. -/
theorem DecJob.Tracks.token {j : DecJob} {d : Dec} (ht : j.Tracks d) (hi : j.Inv d) (hb : j.busy = true)
    (hs : d.st = .run) : DecJob.Tracks { j with accepted := j.nextAccepted } (d.tokenStep j.nextToken) := by
  intro _
  rw [DecJob.current_token hi.1 (hi.accepted_le hb hs), List.foldl_append, ← ht hb]
  simp [Dec.edge_token, hs]

/-- A `DEC1` begun has DEC as DEC.START leaves it. -/
theorem DecJob.Tracks.begin {j : DecJob} {d : Dec} (hi : j.Inv d) (hd : d.Inv) (hb : j.busy = false)
    (hs : d.st ≠ .fault) : DecJob.Tracks { j with busy := true } d.start := by
  obtain ⟨-, -, hidle, -⟩ := hi
  have hcur : DecJob.current { j with busy := true } = [] := by
    simp [DecJob.current, (hidle hb).1]
  intro _
  rw [hcur]
  simp [Dec.start, hd.cause_eq_none hs]

/-- What is claimed of a DECM or DECN procedure in progress: the invariants, and that DEC holds what the procedure's own
tokens left in it. -/
structure DecJob.Sound (j : DecJob) (d : Dec) : Prop where
  inv : j.Inv d
  dec : d.Inv
  tracks : j.Tracks d

/-- A step of the procedure of DECM or DECN keeps what it will give, or ends with exactly that. -/
theorem stepDecJob_outlook {j : DecJob} {s : State} (hp : s.decProc = some j) (h : j.Sound s.dec) :
    (∃ j', (stepDecJob j s).decProc = some j' ∧ j'.Sound (stepDecJob j s).dec ∧ j'.outlook = j.outlook) ∨
    ((stepDecJob j s).decProc = none ∧ (stepDecJob j s).decResult = some j.outlook ∧
      ((∃ c, j.outlook = .fault c) → (stepDecJob j s).clrDue = true)) := by
  obtain ⟨hi, hd, ht⟩ := h
  rcases stepDecJob_cases j s with ⟨hb, hs, -, he⟩ | ⟨c, hb, hs, hc, -, he⟩ | ⟨hb, hs, -, he⟩ | ⟨hb, hw, hs, -, he⟩ |
    ⟨hb, hw, -, he⟩ | ⟨-, he⟩ <;> rw [he]
  · -- a Value is collected
    have hok := (ht.decodes hi hb).result_ok hs
    exact .inl ⟨_, rfl, ⟨hi.collect hb hs _ _, hd, DecJob.tracks_of_not_busy rfl _⟩,
      DecJob.outlook_collect (hi.wantsMore hb) hok⟩
  · -- the `DEC1` faulted
    have hf := (ht.decodes hi hb).result_fault hs hc
    exact .inr ⟨rfl, by rw [DecJob.outlook_of_fault (hi.wantsMore hb) hf]; rfl, fun _ => rfl⟩
  · -- a token is accepted
    exact .inl ⟨_, rfl, ⟨hi.token hb hs, hd.tokenStep hs _, ht.token hi hb hs⟩, rfl⟩
  · -- a `DEC1` begins
    have hnf : s.dec.st ≠ .fault := by rcases hs with hs | hs <;> simp [hs]
    exact .inl ⟨_, rfl, ⟨hi.begin hb hw, hd.start hnf, .begin hi hd hb hnf⟩, rfl⟩
  · -- the loop is over
    rw [DecJob.outlook_of_over hw]
    exact .inr ⟨rfl, rfl, fun ⟨c, hc⟩ => absurd hc (j.outcome_ne_fault c)⟩
  · exact .inl ⟨j, hp, ⟨hi, hd, ht⟩, rfl⟩

/-! ### The obligation -/

/-- Whatever a step of the machine is, it keeps what an ENCM in progress will give, ends it with that, or abandons
it. -/
theorem step_encProc_outlook {s t : State} {j : EncJob} (h : step s = .next t) (hp : s.encProc = some j)
    (hi : j.Inv s.enc) :
    (∃ j', t.encProc = some j' ∧ j'.Inv t.enc ∧ j'.outlook t.enc = j.outlook s.enc) ∨
    (t.encProc = none ∧ t.encResult = some (j.outlook s.enc)) ∨
    (t.encProc = none ∧ (s.presents.rst = true ∨ (s.presents.encClr = true ∧ j.busy = true))) := by
  rcases step_beside_encProc h hp with ⟨-, rfl⟩ | ⟨-, ⟨hr, -, ht⟩ | ⟨hc, -, ht⟩ | ⟨he, ht⟩⟩
  · exact (stepEncJob_outlook (s := { s with turns := s.turns.tail }) hp hi).imp_right .inl
  · exact .inr (.inr ⟨ht, .inl hr⟩)
  · rw [afterEncClr_some] at ht
    cases hb : j.busy
    · exact .inl ⟨j, by simpa [hb] using ht, EncJob.inv_of_not_busy hb _, EncJob.outlook_of_not_busy hb _ _⟩
    · exact .inr (.inr ⟨by simpa [hb] using ht, .inr ⟨hc, rfl⟩⟩)
  · exact .inl ⟨j, ht.trans hp, he ▸ hi, by rw [he]⟩

/-- Whatever a step of the machine is, it keeps what a DECM or DECN in progress will give, ends it with that, on a fault
with a clear owed, or abandons it. -/
theorem step_decProc_outlook {s t : State} {j : DecJob} (h : step s = .next t) (hp : s.decProc = some j)
    (hj : j.Sound s.dec) :
    (∃ j', t.decProc = some j' ∧ j'.Sound t.dec ∧ j'.outlook = j.outlook) ∨
    (t.decProc = none ∧ t.decResult = some j.outlook ∧ ((∃ c, j.outlook = .fault c) → t.clrDue = true)) ∨
    (t.decProc = none ∧ (s.presents.rst = true ∨ (s.presents.decClr = true ∧ j.busy = true))) := by
  rcases step_beside_decProc h hp with ⟨-, rfl⟩ | ⟨-, ⟨hr, -, ht⟩ | ⟨hc, he, ht⟩ | ⟨he, ht, -⟩⟩
  · exact (stepDecJob_outlook (s := { s with turns := s.turns.tail }) hp hj).imp_right .inl
  · exact .inr (.inr ⟨ht, .inl hr⟩)
  · rw [afterDecClr_some] at ht
    cases hb : j.busy
    · have hs : j.Sound t.dec :=
        ⟨DecJob.inv_of_not_busy hj.inv hb _, he ▸ Dec.inv_reset, DecJob.tracks_of_not_busy hb _⟩
      exact .inl ⟨j, by simpa [hb] using ht, hs, rfl⟩
    · exact .inr (.inr ⟨by simpa [hb] using ht, .inr ⟨hc, rfl⟩⟩)
  · exact .inl ⟨j, ht.trans hp, he ▸ hj, rfl⟩

/-- Settles O55: each step is the procedure's own, which keeps its outlook by what ENC and DEC hold of the operation in
progress, or falls beside it, which leaves it or abandons it. -/
theorem batchProceduresKeepTheirResults : Obligations.BatchProceduresKeepTheirResults := by
  unfold Obligations.BatchProceduresKeepTheirResults
  refine ⟨fun s t j h hp hi => step_encProc_outlook h hp hi, fun s t j h hp hi hd ht => ?_, fun l e => rfl,
    fun b n d => ⟨rfl, rfl, DecJob.tracks_of_not_busy rfl d, DecJob.tracks_of_not_busy rfl d⟩⟩
  exact (step_decProc_outlook h hp ⟨hi, hd, ht⟩).imp_left
    fun ⟨j', hp', hs, ho⟩ => ⟨j', hp', hs.inv, hs.dec, hs.tracks, ho⟩

end Sys2Proof.Machine
end

section
/-!
What an instruction leaves unchanged, and every step of the machine as one clock edge with the lines the host has at it
(`00_scope.md` R7, R12, R13, `20_memory.md` R52, R59, R64).
-/
namespace Sys2Proof.Machine

/-- Settles O42: by the cases of `exec_cases`, each with the fields its operation leaves. -/
theorem instructionsKeepTheirFrames : Obligations.InstructionsKeepTheirFrames := by
  unfold Obligations.InstructionsKeepTheirFrames
  intro i s t h
  rcases exec_cases h with rfl | ⟨v, rfl, -, rfl⟩ | ⟨rfl, -, rfl⟩ | ⟨k, hk, -, rfl⟩ | ⟨vs, rfl, -, rfl⟩ |
    ⟨b, rfl, -, rfl⟩ | ⟨n, b, rfl, -, rfl⟩ | ⟨rfl, rfl⟩ | ⟨rfl, rfl⟩
  case inr.inr.inr.inl => cases i <;> simp [Instr.token?] at hk ⊢
  all_goals simp [Instr.token?]

/-! ### Steps as edges -/

/-- From `s` to `t` the units move as at one clock edge with the lines `l`, and `OUT` grows by the byte taken at it. -/
def MovesAs (s t : State) (l : InLines) : Prop :=
  t.enc = (s.enc.edge l).1 ∧ t.dec = s.dec.edge l ∧ t.out = s.out ++ (s.enc.edge l).2.toList

/-- An edge with nothing asserted moves no unit. -/
theorem movesAs_idle {s t : State} (he : t.enc = s.enc) (hd : t.dec = s.dec) (ho : t.out = s.out) : MovesAs s t {} := by
  simp [MovesAs, Enc.edge, Dec.edge, he, hd, ho]

/-- A handshake moves the units as an edge does, if it does so completed and not completed. -/
theorem handshake_movesAs {s t : State} {ready : Bool} {f : State → State} {l : InLines}
    (h : s.handshake ready f = .next t) (hyes : ready = true → MovesAs s (f s) l)
    (hno : ready = false → MovesAs s s l) : MovesAs s t l := by
  rcases handshake_eq_next h with ⟨hr, rfl⟩ | ⟨hr, rfl⟩
  · exact hyes hr
  · exact hno hr

/-- A token presented moves the units as an edge with the token's bits on the token port. -/
theorem presentToken_movesAs {e : Bool} {x : Byte} {s t : State} (h : presentToken (tokenOf e x) s = .next t) :
    MovesAs s t { inValid := true, inEob := e, inData := x } := by
  refine handshake_movesAs h (fun hr => ?_) (fun hr => ?_) <;> simp [MovesAs, Enc.edge, Dec.edge, hr]

/-- An instruction moves the units as an edge with its own lines. -/
theorem exec_movesAs {i : Instr} {s t : State} (h : exec i s = .next t) : MovesAs s t i.lines := by
  cases i with
  | enc1 v =>
    have h : s.handshake s.enc.ready (·.encAccept v) = .next t := h
    refine handshake_movesAs h (fun hr => ?_) (fun hr => ?_) <;> simp [MovesAs, Instr.lines, Enc.edge, Dec.edge, hr]
  | dec1 =>
    have h : s.handshake s.dec.ready State.decStart = .next t := h
    refine handshake_movesAs h (fun hr => ?_) (fun hr => ?_) <;> simp [MovesAs, Instr.lines, Enc.edge, Dec.edge, hr]
  | byteCont p => exact presentToken_movesAs (e := false) h
  | byteTerm p => exact presentToken_movesAs (e := false) h
  | eob x => exact presentToken_movesAs h
  | encm vs =>
    have h : s.handshake s.encProc.isNone (·.encBegin (.first vs)) = .next t := h
    exact handshake_movesAs h (fun _ => movesAs_idle rfl rfl rfl) (fun _ => movesAs_idle rfl rfl rfl)
  | decm b =>
    have h : s.handshake s.decProc.isNone (·.decBegin (.first none b)) = .next t := h
    exact handshake_movesAs h (fun _ => movesAs_idle rfl rfl rfl) (fun _ => movesAs_idle rfl rfl rfl)
  | decn n b =>
    have h : s.handshake s.decProc.isNone (·.decBegin (.first (some n) b)) = .next t := h
    exact handshake_movesAs h (fun _ => movesAs_idle rfl rfl rfl) (fun _ => movesAs_idle rfl rfl rfl)
  | encClr | decClr =>
    cases h
    simp [MovesAs, Instr.lines, Enc.edge, Dec.edge]

/-- A step of the procedure of ENCM moves the units as an edge with its lines. -/
theorem stepEncJob_movesAs (j : EncJob) (s : State) : MovesAs s (stepEncJob j s) j.lines := by
  rcases stepEncJob_cases j s with ⟨hb, hs, -, he⟩ | ⟨hb, hl, -, he⟩ | ⟨v, vs, hb, hl, hs, -, he⟩ | ⟨hm, he⟩ <;> rw [he]
  · simp [MovesAs, EncJob.lines, hb, Enc.edge, Dec.edge, hs]
  · have hl' : j.lines = {} := by simp [EncJob.lines, hb, hl]
    rw [hl']
    exact movesAs_idle rfl rfl rfl
  · simp [MovesAs, EncJob.lines, hb, hl, Enc.edge, Dec.edge, hs]
  · -- the handshake cannot complete
    cases hb : j.busy
    · cases hl : j.left with
      | nil => simp [EncJob.canMove, hb, hl] at hm
      | cons v vs =>
        have hr : s.enc.ready = false := by simpa [EncJob.canMove, hb, hl] using hm
        simp [MovesAs, EncJob.lines, hb, hl, Enc.edge, Dec.edge, hr]
    · have hv : s.enc.outValid = false := by simpa [EncJob.canMove, hb] using hm
      simp [MovesAs, EncJob.lines, hb, Enc.edge, Dec.edge, hv]

/-- While the host reads a result, or has none to read, it has nothing on the lines. -/
theorem DecJob.lines_of_not_run {j : DecJob} {d : Dec} (hb : j.busy = true) (hs : d.st ≠ .run) : j.lines d = {} := by
  simp [DecJob.lines, hb, hs]

/-- A token's lines are none of ENC's. -/
theorem Enc.edge_token (e : Enc) (t : Token) : e.edge t.lines = (e, none) := by
  cases t <;> simp [Enc.edge, Token.lines]

/-- A step of the procedure of DECM or DECN moves the units as an edge with its lines. -/
theorem stepDecJob_movesAs (j : DecJob) (s : State) : MovesAs s (stepDecJob j s) (j.lines s.dec) := by
  rcases stepDecJob_cases j s with ⟨hb, hs, -, he⟩ | ⟨c, hb, hs, -, -, he⟩ | ⟨hb, hs, -, he⟩ | ⟨hb, hw, hs, -, he⟩ |
    ⟨hb, hw, -, he⟩ | ⟨hm, he⟩ <;> rw [he]
  · rw [DecJob.lines_of_not_run hb (by simp [hs])]
    exact movesAs_idle rfl rfl rfl
  · rw [DecJob.lines_of_not_run hb (by simp [hs])]
    exact movesAs_idle rfl rfl rfl
  · simp [MovesAs, DecJob.lines, hb, hs, Enc.edge_token, Dec.edge_token]
  · have hr : s.dec.ready = true := by simpa using hs
    simp [MovesAs, DecJob.lines, hb, hw, hr, Enc.edge, Dec.edge]
  · have hl : j.lines s.dec = {} := by simp [DecJob.lines, hb, hw]
    rw [hl]
    exact movesAs_idle rfl rfl rfl
  · -- the handshake cannot complete
    cases hb : j.busy
    · simp only [DecJob.canMove, hb, Bool.false_eq_true, if_false, Bool.or_eq_false_iff, Bool.not_eq_false'] at hm
      obtain ⟨hw, hr⟩ := hm
      simp [MovesAs, DecJob.lines, hb, hw, hr, Enc.edge, Dec.edge]
    · simp only [DecJob.canMove, hb, if_true, Bool.or_eq_false_iff] at hm
      obtain ⟨-, hr⟩ := hm
      rw [DecJob.lines_of_not_run hb (by simpa using hr)]
      exact movesAs_idle rfl rfl rfl

/-- Every step of the machine moves the units as an edge with the lines the host has at it. -/
theorem step_movesAs {s t : State} (h : step s = .next t) : MovesAs s t s.presents := by
  rcases step_cases s with ⟨hl, hs⟩ | ⟨j, -, -, hl, hs⟩ | ⟨j, -, -, hl, hs⟩ | ⟨-, -, i, -, -, -, -, -, hl, hs⟩ |
    ⟨-, rest, i, -, -, -, -, -, -, hl, hs⟩ | ⟨-, rest, -, -, -, -, he, hl, hs⟩ | ⟨-, rest, l, -, -, -, -, hl, hs⟩ |
    ⟨-, rest, -, -, -, hl, hs⟩ | ⟨-, -, p, -, -, -, -, hs⟩ <;> rw [h] at hs
  · cases hs
    rw [hl]
    exact movesAs_idle rfl rfl rfl
  · cases hs
    rw [hl]
    exact stepEncJob_movesAs j { s with turns := s.turns.tail }
  · cases hs
    rw [hl]
    exact stepDecJob_movesAs j { s with turns := s.turns.tail }
  · cases hs
    rw [hl]
    simp [MovesAs, Enc.edge, Dec.edge]
  · rw [hl]
    exact exec_movesAs (s := { s with script := rest, turns := s.turns.tail }) hs.symm
  · cases hs
    rw [hl]
    simp [MovesAs, Enc.edge, Dec.edge, he]
  · cases hs
    rw [hl]
    exact ⟨rfl, rfl, rfl⟩
  · cases hs
    rw [hl]
    exact movesAs_idle rfl rfl rfl
  · cases hs

/-- Settles O53, by `step_movesAs`. -/
theorem everyStepIsOneEdge : Obligations.EveryStepIsOneEdge := by
  unfold Obligations.EveryStepIsOneEdge
  exact fun s t h => step_movesAs h

/-! ### Tokens from `IN` -/

/-- When DEC accepts a token at an edge, and which. -/
theorem Dec.takesOn_eq_some {d : Dec} {l : InLines} {k : Token} : d.takesOn l = some k ↔
    l.rst = false ∧ l.decClr = false ∧ l.inValid = true ∧ d.st = .run ∧ tokenOf l.inEob l.inData = k := by
  simp [Dec.takesOn, and_assoc]

/-- At an edge at which DEC accepts a token it takes the step of that token. -/
theorem Dec.edge_of_takesOn {d : Dec} {l : InLines} {k : Token} (h : d.takesOn l = some k) :
    d.edge l = d.tokenStep k := by
  obtain ⟨hr, hc, hv, hs, rfl⟩ := Dec.takesOn_eq_some.1 h
  simp [Dec.edge, hr, hc, hv, hs]

theorem EncJob.lines_inValid (j : EncJob) : j.lines.inValid = false := by
  cases hb : j.busy
  · cases hl : j.left <;> simp [EncJob.lines, hb, hl]
  · simp [EncJob.lines, hb]

theorem Token.takesOn_lines {d : Dec} {t k : Token} (h : d.takesOn t.lines = some k) : t = k := by
  obtain ⟨-, -, -, -, hk⟩ := Dec.takesOn_eq_some.1 h
  cases t <;> simpa [Token.lines, tokenOf] using hk

/-- At a step of a DECM or DECN procedure DEC accepts the procedure's next token, during its own `DEC1`. -/
theorem DecJob.takesOn_lines {j : DecJob} {d : Dec} {k : Token} (h : d.takesOn (j.lines d) = some k) :
    j.busy = true ∧ d.st = .run ∧ j.nextToken = k := by
  obtain ⟨-, -, hv, hs, -⟩ := Dec.takesOn_eq_some.1 h
  cases hb : j.busy
  · cases hw : j.wantsMore <;> simp [DecJob.lines, hb, hw] at hv
  · have hl : j.lines d = j.nextToken.lines := by simp [DecJob.lines, hb, hs]
    exact ⟨rfl, hs, Token.takesOn_lines (hl ▸ h)⟩

/-- The tokens of a procedure before its buffer's end: the next one, then those left after it. -/
theorem DecJob.input_eq_cons {j : DecJob} (hab : j.accepted ≤ j.buf.length) :
    j.input = j.nextToken :: DecJob.input { j with accepted := j.nextAccepted } := by
  simp only [DecJob.input, DecJob.nextAccepted_of_le hab]
  rw [List.drop_eq_getElem?_toList_append, DecJob.getElem?_accepted hab]
  rfl

theorem State.inTokens_of_some {s : State} {j : DecJob} (hp : s.decProc = some j) :
    s.inTokens = j.input ++ s.script.flatMap lineTokens := by
  simp [State.inTokens, hp]

theorem State.inTokens_of_none {s : State} (hp : s.decProc = none) : s.inTokens = s.script.flatMap lineTokens := by
  simp [State.inTokens, hp]

/-- Without a procedure on DEC, a line with one token has it first in `IN`. -/
theorem take?_inTokens_of_line {s t : State} {line : Line} {rest : List Line} {k : Token} (hp : s.decProc = none)
    (hs : s.script = line :: rest) (hk : lineTokens line = [k]) (hp' : t.decProc = none) (hs' : t.script = rest) :
    take? s.inTokens = some (k, t.inTokens) := by
  simp [State.inTokens_of_none hp, State.inTokens_of_none hp', hs, hs', hk, take?]

/-- An instruction with `in_valid` on its lines is a token, that of its lines. -/
theorem Instr.token?_of_lines {i : Instr} (hv : i.lines.inValid = true) :
    i.token? = some (tokenOf i.lines.inEob i.lines.inData) ∧
      i.tokens = [tokenOf i.lines.inEob i.lines.inData] := by
  cases i <;> simp [Instr.lines, Instr.token?, Instr.tokens, tokenOf] at hv ⊢

/-- A token instruction is held while a procedure is on DEC. -/
theorem decProc_of_token {s : State} {i : Instr} {k : Token} (ht : i.token? = some k) (hh : s.held i = false) :
    s.decProc = none := by
  cases i <;> simp [Instr.token?, State.held] at ht hh ⊢ <;> exact hh

/-- A step of a DECM or DECN procedure while its `DEC1` asks for a token. -/
theorem stepDecJob_of_run {j : DecJob} {s : State} (hb : j.busy = true) (hr : s.dec.st = .run) : stepDecJob j s =
    { s.decToken j.nextToken with decProc := some { j with accepted := j.nextAccepted } } := by
  simp [stepDecJob, DecJob.canMove, Dec.result, hb, hr]

/-- A token that DEC accepts at a step is taken from `IN`. -/
theorem step_takes_inTokens {s t : State} {k : Token} (hi : s.JobInv) (h : step s = .next t)
    (hk : s.dec.takesOn s.presents = some k) : take? s.inTokens = some (k, t.inTokens) := by
  obtain ⟨hrst, hclr, hv, hrun, htok⟩ := Dec.takesOn_eq_some.1 hk
  rcases step_cases s with ⟨hl, -⟩ | ⟨j, -, -, hl, -⟩ | ⟨j, -, hp, hl, hs⟩ | ⟨-, -, i, -, -, -, -, -, hl, -⟩ |
    ⟨line, rest, i, -, hsc, hf, hh, -, -, hl, hs⟩ | ⟨-, rest, -, -, -, -, -, hl, -⟩ |
    ⟨line, rest, l, -, hsc, hf, hh, hl, hs⟩ | ⟨-, rest, -, -, -, hl, -⟩ | ⟨-, -, p, -, -, -, hl, -⟩
  · simp [hl] at hv
  · simp [hl, EncJob.lines_inValid] at hv
  · -- the procedure's own token
    obtain ⟨hb, -, rfl⟩ := DecJob.takesOn_lines (hl ▸ hk)
    obtain ⟨-, hdec⟩ := hi
    obtain ⟨hj, -⟩ := hdec j hp
    rw [h, stepDecJob_of_run (s := { s with turns := s.turns.tail }) hb hrun] at hs
    cases hs
    rw [State.inTokens_of_some hp, State.inTokens_of_some rfl, DecJob.input_eq_cons (hj.accepted_le hb hrun)]
    rfl
  · simp [hl] at hclr
  · -- a token of the script
    rw [hl] at hv htok
    obtain ⟨hit, his⟩ := Instr.token?_of_lines hv
    rw [htok] at hit his
    have hp := decProc_of_token hit hh
    rw [h, exec_token hit { s with script := rest, turns := s.turns.tail } hrun] at hs
    cases hs
    exact take?_inTokens_of_line hp hsc (by simp [lineTokens, hf, his]) hp rfl
  · simp [hl] at hv
  · -- a token on an edge line
    rw [hl] at hv hrst hclr htok
    have hp : s.decProc = none := by simpa [State.edgeHeld, hv, hrst, hclr] using (Bool.or_eq_false_iff.1 hh).2
    rw [h] at hs
    cases hs
    exact take?_inTokens_of_line hp hsc (by simp [lineTokens, hf, hv, htok]) (by simp [hrst, hclr, hp]) rfl
  · simp [hl] at hv
  · simp [hl] at hv

/-- Settles O54, by `step_takes_inTokens` and the edge that every step is. -/
theorem tokensAreTakenFromIn : Obligations.TokensAreTakenFromIn := by
  unfold Obligations.TokensAreTakenFromIn
  rintro s t k ⟨-, -, -, hj⟩ h hk
  obtain ⟨-, hd, -⟩ := step_movesAs h
  exact ⟨step_takes_inTokens hj h hk, by rw [hd, Dec.edge_of_takesOn hk]⟩

end Sys2Proof.Machine
end

section
/-!
The invariant of the whole machine (`10_state.md` R35), one half for each unit with the host's procedure on it:
what each operation on a side needs to keep that side's half, and then every step.
-/
namespace Sys2Proof.Machine

/-! ### The invariant of ENC -/

theorem Enc.inv_reset : Enc.reset.Inv := by decide

theorem Enc.inv_accept (e : Enc) (v : Value) : (e.accept v).Inv := by
  simp [Enc.Inv, Enc.accept]

/-- ENC goes to IDLE after the byte above which nothing is left. -/
theorem Enc.inv_emitStep (e : Enc) : e.emitStep.Inv := by
  intro hs
  have hm : e.more = false := by simpa [Enc.emitStep] using hs
  simpa [Enc.more, Enc.emitStep] using hm

theorem Enc.Inv.edge {e : Enc} (h : e.Inv) (l : InLines) : (e.edge l).1.Inv := by
  rcases e.edge_cases l with ⟨-, he⟩ | ⟨-, -, -, -, he⟩ | ⟨-, -, -, -, he⟩ | he <;> rw [he]
  · exact Enc.inv_reset
  · exact e.inv_accept _
  · exact e.inv_emitStep
  · exact h

/-- DEC at an edge: a start is accepted outside FAULT only, a token in RUN only. -/
theorem Dec.Inv.edge {d : Dec} (h : d.Inv) (l : InLines) : (d.edge l).Inv := by
  rcases d.edge_cases l with ⟨-, he⟩ | ⟨-, -, -, hs, he⟩ | ⟨-, -, -, hr, he⟩ | he <;> rw [he]
  · exact Dec.inv_reset
  · exact h.start (by rcases hs with hs | hs <;> simp [hs])
  · exact h.tokenStep hr _
  · exact h

/-! ### The two halves of the invariant -/

/-- The part of the invariant that speaks of ENC's side. -/
def State.EncSideInv (s : State) : Prop :=
  s.enc.Inv ∧ ∀ j, s.encProc = some j → j.Inv s.enc ∧ s.encResult = none

/-- The part of the invariant that speaks of DEC's side. -/
def State.DecSideInv (s : State) : Prop :=
  s.dec.Inv ∧ (s.clrDue = true → s.dec.st = .fault) ∧ ∀ j, s.decProc = some j → j.Inv s.dec ∧ s.decResult = none

theorem State.inv_iff (s : State) : s.Inv ↔ s.EncSideInv ∧ s.DecSideInv := by
  simp only [State.Inv, State.JobInv, State.EncSideInv, State.DecSideInv]
  tauto

/-! ### ENC's side -/

section
variable {s t : State}

theorem State.encSideInv_of_none (hp : s.encProc = none) (he : s.enc.Inv) : s.EncSideInv :=
  ⟨he, by simp [hp]⟩

theorem State.encSideInv_of_some {j : EncJob} (hp : s.encProc = some j) (he : s.enc.Inv) (hj : j.Inv s.enc)
    (hr : s.encResult = none) : s.EncSideInv :=
  ⟨he, by simpa [hp, hr] using hj⟩

/-- A clear of ENC leaves no procedure that waits for a byte. -/
theorem State.EncSideInv.encClear (h : s.EncSideInv) : s.encClear.EncSideInv := by
  obtain ⟨-, hjob⟩ := h
  refine ⟨Enc.inv_reset, fun j hj => ?_⟩
  obtain ⟨hp, hb⟩ := afterEncClr_eq_some.1 hj
  obtain ⟨-, hr⟩ := hjob j hp
  exact ⟨EncJob.inv_of_not_busy hb _, hr⟩

theorem State.EncSideInv.encBegin (h : s.EncSideInv) (vs : List Value) :
    (s.encBegin (EncJob.first vs)).EncSideInv := by
  obtain ⟨hunit, -⟩ := h
  exact State.encSideInv_of_some rfl hunit (EncJob.inv_of_not_busy rfl _) rfl

/-- An instruction of ENC that is not held finds no procedure on ENC, or is a clear. -/
theorem exec_keeps_encSideInv {i : Instr} (h : exec i s = .next t) (hh : s.held i = false) (hi : s.EncSideInv) :
    t.EncSideInv := by
  rcases exec_cases h with rfl | ⟨v, rfl, -, rfl⟩ | ⟨-, -, rfl⟩ | ⟨k, -, -, rfl⟩ | ⟨vs, -, -, rfl⟩ | ⟨b, -, -, rfl⟩ |
    ⟨n, b, -, -, rfl⟩ | ⟨-, rfl⟩ | ⟨-, rfl⟩
  · exact hi
  · exact State.encSideInv_of_none (by simpa [State.held] using hh) (s.enc.inv_accept v)
  · exact hi
  · exact hi
  · exact hi.encBegin vs
  · exact hi
  · exact hi
  · exact hi.encClear
  · exact hi

/-- A step of the procedure of ENCM: its `ENC1` is over exactly when ENC leaves EMIT. -/
theorem stepEncJob_keeps_encSideInv {j : EncJob} (hp : s.encProc = some j) (hi : s.EncSideInv) :
    (stepEncJob j s).EncSideInv := by
  have ⟨hunit, hjob⟩ := hi
  obtain ⟨-, hr⟩ := hjob j hp
  rcases stepEncJob_cases j s with ⟨-, -, -, he⟩ | ⟨-, -, -, he⟩ | ⟨v, vs, -, -, -, -, he⟩ | ⟨-, he⟩ <;> rw [he]
  · exact State.encSideInv_of_some rfl s.enc.inv_emitStep (fun hm => if_pos hm) hr
  · exact State.encSideInv_of_none rfl hunit
  · exact State.encSideInv_of_some rfl (s.enc.inv_accept v) (fun _ => rfl) hr
  · exact hi

/-- An edge that is not held resets the machine, clears ENC, or leaves the procedure on ENC alone with ENC. -/
theorem edge_keeps_encSideInv {l : InLines} (hh : s.edgeHeld l = false) (hi : s.EncSideInv) :
    (s.edge l).EncSideInv := by
  obtain ⟨hunit, hjob⟩ := hi
  cases hp : s.encProc with
  | none => exact State.encSideInv_of_none (by simp [hp]) (hunit.edge l)
  | some j =>
    obtain ⟨hj, hres⟩ := hjob j hp
    rcases edge_beside_encProc hp hh with ⟨-, -, hn⟩ | ⟨-, -, hc⟩ | ⟨he, hs⟩
    · exact State.encSideInv_of_none hn (hunit.edge l)
    · refine ⟨hunit.edge l, fun j' hj' => ⟨?_, hres⟩⟩
      obtain ⟨-, hb⟩ := afterEncClr_eq_some.1 (hc ▸ hj')
      exact EncJob.inv_of_not_busy hb _
    · exact State.encSideInv_of_some (hs.trans hp) (hunit.edge l) (he ▸ hj) hres

/-! ### DEC's side -/

theorem State.decSideInv_of_none (hp : s.decProc = none) (hd : s.dec.Inv)
    (hc : s.clrDue = true → s.dec.st = .fault) : s.DecSideInv :=
  ⟨hd, hc, by simp [hp]⟩

theorem State.decSideInv_of_some {j : DecJob} (hp : s.decProc = some j) (hd : s.dec.Inv)
    (hc : s.clrDue = true → s.dec.st = .fault) (hj : j.Inv s.dec) (hr : s.decResult = none) : s.DecSideInv :=
  ⟨hd, hc, by simpa [hp, hr] using hj⟩

/-- Outside FAULT no clear is owed. -/
theorem State.DecSideInv.not_owed (h : s.DecSideInv) (hs : s.dec.st ≠ .fault) : ¬ s.clrDue = true := by
  obtain ⟨-, howed, -⟩ := h
  exact fun hc => hs (howed hc)

/-- A clear of DEC settles what is owed, and leaves no procedure with a `DEC1` of its own. -/
theorem State.DecSideInv.decClear (h : s.DecSideInv) : s.decClear.DecSideInv := by
  obtain ⟨-, -, hjob⟩ := h
  refine ⟨Dec.inv_reset, by simp, fun j hj => ?_⟩
  obtain ⟨hp, hb⟩ := afterDecClr_eq_some.1 hj
  obtain ⟨hinv, hr⟩ := hjob j hp
  exact ⟨DecJob.inv_of_not_busy hinv hb _, hr⟩

theorem DecJob.inv_first (n : Option Nat) (b : List Byte) (d : Dec) : (DecJob.first n b).Inv d := by
  simp [DecJob.Inv, DecJob.first]

theorem State.DecSideInv.decBegin (h : s.DecSideInv) (n : Option Nat) (b : List Byte) :
    (s.decBegin (DecJob.first n b)).DecSideInv := by
  obtain ⟨hunit, howed, -⟩ := h
  exact State.decSideInv_of_some rfl hunit howed (DecJob.inv_first n b _) rfl

/-- An instruction of DEC that is not held finds no procedure on DEC, or is a clear; a start or a token is not accepted
in FAULT. -/
theorem exec_keeps_decSideInv {i : Instr} (h : exec i s = .next t) (hh : s.held i = false) (hi : s.DecSideInv) :
    t.DecSideInv := by
  have ⟨hunit, _⟩ := hi
  rcases exec_cases h with rfl | ⟨v, -, -, rfl⟩ | ⟨rfl, hs, rfl⟩ | ⟨k, hk, hs, rfl⟩ | ⟨vs, -, -, rfl⟩ | ⟨b, -, -, rfl⟩ |
    ⟨n, b, -, -, rfl⟩ | ⟨-, rfl⟩ | ⟨-, rfl⟩
  · exact hi
  · exact hi
  · have hnf : s.dec.st ≠ .fault := by rcases hs with hs | hs <;> simp [hs]
    exact State.decSideInv_of_none (by simpa [State.held] using hh) (hunit.start hnf)
      fun hc => absurd hc (hi.not_owed hnf)
  · have hnf : s.dec.st ≠ .fault := by simp [hs]
    exact State.decSideInv_of_none (decProc_of_token hk hh) (hunit.tokenStep hs k)
      fun hc => absurd hc (hi.not_owed hnf)
  · exact hi
  · exact hi.decBegin none b
  · exact hi.decBegin (some n) b
  · exact hi
  · exact hi.decClear

/-- A step of a DECM or DECN procedure; it comes to owe a clear only by the fault it reads. -/
theorem stepDecJob_keeps_decSideInv {j : DecJob} (hp : s.decProc = some j) (hi : s.DecSideInv) :
    (stepDecJob j s).DecSideInv := by
  have ⟨hunit, howed, hjob⟩ := hi
  obtain ⟨hj, hr⟩ := hjob j hp
  rcases stepDecJob_cases j s with ⟨hb, hs, -, he⟩ | ⟨c, -, hs, -, -, he⟩ | ⟨hb, hs, -, he⟩ | ⟨hb, hw, hs, -, he⟩ |
    ⟨-, -, -, he⟩ | ⟨-, he⟩ <;> rw [he]
  · -- a Value is collected
    exact State.decSideInv_of_some rfl hunit howed (hj.collect hb hs _ _) hr
  · -- the `DEC1` faulted
    exact State.decSideInv_of_none rfl hunit fun _ => hs
  · -- a token is accepted
    have hnf : s.dec.st ≠ .fault := by simp [hs]
    exact State.decSideInv_of_some rfl (hunit.tokenStep hs _) (fun hc => absurd hc (hi.not_owed hnf))
      (hj.token hb hs) hr
  · -- a `DEC1` begins
    have hnf : s.dec.st ≠ .fault := by rcases hs with hs | hs <;> simp [hs]
    exact State.decSideInv_of_some rfl (hunit.start hnf) (fun hc => absurd hc (hi.not_owed hnf))
      (hj.begin hb hw) hr
  · -- the loop is over
    exact State.decSideInv_of_none rfl hunit howed
  · exact hi

/-- FAULT is left by reset and by a clear only (`60_exceptions.md` R197). -/
theorem Dec.edge_of_fault {d : Dec} {l : InLines} (hs : d.st = .fault) (hr : l.rst = false) (hc : l.decClr = false) :
    d.edge l = d := by
  simp [Dec.edge, hr, hc, Dec.ready, Dec.inReady, hs]

/-- A clear still owed after an edge was owed before it, and DEC is in FAULT as it was. -/
theorem edge_keeps_owed {l : InLines} (hi : s.clrDue = true → s.dec.st = .fault) (hc : (s.edge l).clrDue = true) :
    (s.edge l).dec.st = .fault := by
  simp only [State.edge_clrDue, Bool.and_eq_true, Bool.not_eq_true', Bool.or_eq_false_iff] at hc
  obtain ⟨hdue, hrst, hclr⟩ := hc
  rw [State.edge_dec, Dec.edge_of_fault (hi hdue) hrst hclr, hi hdue]

/-- An edge that is not held resets the machine, clears DEC, or leaves the procedure on DEC alone with DEC. -/
theorem edge_keeps_decSideInv {l : InLines} (hh : s.edgeHeld l = false) (hi : s.DecSideInv) :
    (s.edge l).DecSideInv := by
  obtain ⟨hunit, howed, hjob⟩ := hi
  cases hp : s.decProc with
  | none => exact State.decSideInv_of_none (by simp [hp]) (hunit.edge l) (edge_keeps_owed howed)
  | some j =>
    obtain ⟨hj, hres⟩ := hjob j hp
    rcases edge_beside_decProc hp hh with ⟨-, -, hn⟩ | ⟨-, -, hc⟩ | ⟨hd, hs, -⟩
    · exact State.decSideInv_of_none hn (hunit.edge l) (edge_keeps_owed howed)
    · refine ⟨hunit.edge l, edge_keeps_owed howed, fun j' hj' => ⟨?_, hres⟩⟩
      obtain ⟨hjj, hb⟩ := afterDecClr_eq_some.1 (hc ▸ hj')
      cases hjj
      exact DecJob.inv_of_not_busy hj hb _
    · exact State.decSideInv_of_some (hs.trans hp) (hunit.edge l) (edge_keeps_owed howed) (hd ▸ hj) hres

end

/-! ### Every step -/

/-- Settles O8: each step is one operation, which keeps the half of the invariant of its own side, and leaves the other
side as it is. -/
theorem unitAndHostInvariantIsKept : Obligations.UnitAndHostInvariantIsKept := by
  unfold Obligations.UnitAndHostInvariantIsKept
  intro s t hi h
  rw [State.inv_iff] at hi ⊢
  obtain ⟨he, hd⟩ := hi
  rcases step_cases s with ⟨-, hs⟩ | ⟨j, -, hp, -, hs⟩ | ⟨j, -, hp, -, hs⟩ | ⟨-, -, i, -, -, -, -, -, -, hs⟩ |
    ⟨-, rest, i, -, -, -, hh, -, -, -, hs⟩ | ⟨-, rest, -, -, -, hn, -, -, hs⟩ | ⟨-, rest, l, -, -, -, hh, -, hs⟩ |
    ⟨-, rest, -, -, -, -, hs⟩ | ⟨-, -, p, -, -, -, -, hs⟩ <;> rw [h] at hs
  · cases hs
    exact ⟨he, hd⟩
  · -- the procedure on ENC
    cases hs
    refine ⟨stepEncJob_keeps_encSideInv (s := { s with turns := s.turns.tail }) hp he, ?_⟩
    rw [(stepEncJob_onEncSide j).frame]
    exact hd
  · -- the procedure on DEC
    cases hs
    refine ⟨?_, stepDecJob_keeps_decSideInv (s := { s with turns := s.turns.tail }) hp hd⟩
    rw [(stepDecJob_onDecSide j).frame]
    exact he
  · -- the clear owed
    cases hs
    exact ⟨he, State.DecSideInv.decClear (s := { s with turns := s.turns.tail }) hd⟩
  · -- an instruction
    exact ⟨exec_keeps_encSideInv hs.symm hh he, exec_keeps_decSideInv hs.symm hh hd⟩
  · -- a byte taken
    cases hs
    exact ⟨State.encSideInv_of_none hn s.enc.inv_emitStep, hd⟩
  · -- an edge
    cases hs
    exact ⟨edge_keeps_encSideInv (s := { s with script := rest, turns := s.turns.tail }) hh he,
      edge_keeps_decSideInv (s := { s with script := rest, turns := s.turns.tail }) hh hd⟩
  · cases hs
    exact ⟨he, hd⟩
  · cases hs

/-- Settles O9: no procedure is in progress at reset and no clear is owed, and both units meet their invariants. -/
theorem invariantHoldsAtReset : Obligations.InvariantHoldsAtReset := by
  unfold Obligations.InvariantHoldsAtReset
  rw [State.inv_iff]
  exact ⟨State.encSideInv_of_none rfl Enc.inv_reset, State.decSideInv_of_none rfl Dec.inv_reset (by simp [State.reset])⟩

end Sys2Proof.Machine
end

section
/-!
The registers at reset and the output lines as functions of the registers (`10_state.md` R20, R28, R29, R34,
`20_memory.md` R54 to R57).
-/
namespace Sys2Proof.Machine

/-- The output lines depend on the registers only, whatever else the state holds. -/
theorem State.outLines_eq_of_registers {s t : State} (he : s.enc = t.enc) (hd : s.dec = t.dec) :
    s.outLines = t.outLines := by
  simp only [State.outLines, he, hd]

theorem edge_registers_of_rst (s : State) {l : InLines} (hr : l.rst = true) :
    (s.edge l).enc = Enc.reset ∧ (s.edge l).dec = Dec.reset := by
  simp [Enc.edge, Dec.edge, hr]

/-- Settles O6: both ways give the registers of `State.reset`, and all that is said depends on the registers only. -/
theorem resetLeavesEveryRegisterAtItsValue : Obligations.ResetLeavesEveryRegisterAtItsValue := by
  unfold Obligations.ResetLeavesEveryRegisterAtItsValue
  intro t ht
  obtain ⟨he, hd⟩ : t.enc = Enc.reset ∧ t.dec = Dec.reset := by
    rcases ht with rfl | ⟨s, l, hr, rfl⟩
    · exact ⟨rfl, rfl⟩
    · exact edge_registers_of_rst s hr
  rw [State.outLines_eq_of_registers (t := State.reset) he hd, he, hd]
  decide

/-! ### The lines of ENC -/

/-- Bit 7 of the byte ENC presents is set exactly when more bytes follow. -/
theorem Enc.outByte_ge_iff (e : Enc) : 128 ≤ e.outByte.toNat ↔ 128 ≤ e.rem.toNat := by
  rw [Enc.outByte_toNat]
  split <;> omega

theorem Enc.outByte_mod (e : Enc) : e.outByte.toNat % 128 = e.rem.toNat % 128 := by
  rw [Enc.outByte_toNat]
  split <;> omega

/-- `out_last` is the negation of bit 7 of `out_data` (`20_memory.md` R55). -/
theorem Enc.outLast_eq (e : Enc) : e.outLast = decide (e.outByte.toNat < 128) := by
  have h := e.outByte_ge_iff
  rw [Enc.outLast, Enc.more_eq_decide, ← decide_not]
  exact decide_eq_decide.2 (by omega)

/-- In EMIT the byte and its `out_last` are exposed. -/
theorem State.outLines_of_emit {s : State} (h : s.enc.st = .emit) :
    s.outLines.outData = some s.enc.outByte ∧ s.outLines.outLast = some s.enc.outLast := by
  simp [State.outLines, h]

theorem State.outLines_of_enc_idle {s : State} (h : s.enc.st = .idle) :
    s.outLines.outData = none ∧ s.outLines.outLast = none := by
  simp [State.outLines, h]

/-! ### The lines of DEC -/

theorem State.outLines_of_done {s : State} (h : s.dec.st = .done) :
    s.outLines.decValue = some s.dec.acc ∧ s.outLines.decNbytes = some s.dec.i := by
  simp [State.outLines, h]

theorem State.outLines_of_not_done {s : State} (h : s.dec.st ≠ .done) :
    s.outLines.decValue = none ∧ s.outLines.decNbytes = none := by
  simp [State.outLines, h]

theorem State.outLines_decCause (s : State) : s.outLines.decCause = causeBits s.dec.cause := rfl

/-- Settles O48, line by line. -/
theorem outputLinesFollowTheRegisters : Obligations.OutputLinesFollowTheRegisters := by
  unfold Obligations.OutputLinesFollowTheRegisters
  intro s
  refine ⟨s.enc.ready_iff, s.enc.outValid_iff, s.dec.ready_iff, s.dec.inReady_iff, beq_iff_eq, beq_iff_eq,
    s.outLines_decCause, fun h => ?_, State.outLines_of_enc_idle, State.outLines_of_done, State.outLines_of_not_done,
    fun h => ?_, fun h => ?_, fun h => ?_, ⟨rfl, rfl⟩, rfl, rfl, rfl, rfl⟩
  · obtain ⟨hbyte, hlast⟩ := State.outLines_of_emit h
    exact ⟨_, hbyte, s.enc.outByte_mod, s.enc.outByte_ge_iff, by rw [hlast, s.enc.outLast_eq]⟩
  all_goals
    rw [s.outLines_decCause, h]
    rfl

end Sys2Proof.Machine
end

section
/-!
The words the decoder refuses (`20_memory.md` R54, R56, R60, `30_encoding.md` R89), and that no instruction and no clock
edge lets one unit see the other (`20_memory.md` R64, R67 (c)).
-/
namespace Sys2Proof.Machine

/-! ### What the decoder answers on a word -/

/-- On bits that fit its port the decoder answers an instruction, or finds a clear line at 0. -/
theorem decodeOn_cases {p : Port} {n : Nat} (h : n < 2 ^ p.width) :
    ((p = .encClr ∨ p = .decClr) ∧ n = 0 ∧ decodeOn p n = .error (.lineLow p)) ∨
    (PortWord.asserted ⟨p, n⟩ = true ∧ ∃ i, decodeOn p n = .ok i) := by
  cases p with
  | encOperand | decStart | token => exact .inr ⟨rfl, _, rfl⟩
  | encClr | decClr =>
    obtain rfl | rfl : n = 0 ∨ n = 1 := by
      have : n < 2 := h
      omega
    · exact .inl ⟨by simp, rfl, rfl⟩
    · exact .inr ⟨rfl, _, rfl⟩

theorem not_asserted_of_low {w : PortWord} (hp : w.port = .encClr ∨ w.port = .decClr) (h0 : w.bits = 0) :
    w.asserted = false := by
  rcases hp with hp | hp <;> simp [PortWord.asserted, hp, h0]

/-- Everything the decoder answers: too wide, a clear line at 0, or an instruction. -/
theorem decode_cases (w : PortWord) :
    (2 ^ w.port.width ≤ w.bits ∧ w.wf = false ∧ decode w = .error (.tooWide w.port)) ∨
    (w.bits < 2 ^ w.port.width ∧ (w.port = .encClr ∨ w.port = .decClr) ∧ w.bits = 0 ∧ w.wf = false ∧
      decode w = .error (.lineLow w.port)) ∨
    (w.bits < 2 ^ w.port.width ∧ w.wf = true ∧ ∃ i, decode w = .ok i) := by
  rcases Nat.lt_or_ge w.bits (2 ^ w.port.width) with hlt | hge
  · have hf : w.fits = true := decide_eq_true hlt
    have hd : decode w = decodeOn w.port w.bits := if_pos hf
    rw [hd]
    rcases decodeOn_cases hlt with ⟨hp, h0, he⟩ | ⟨ha, hi⟩
    · exact .inr (.inl ⟨hlt, hp, h0, by simp [PortWord.wf, not_asserted_of_low hp h0], he⟩)
    · exact .inr (.inr ⟨hlt, by rw [PortWord.wf, hf, ha]; rfl, hi⟩)
  · have hf : w.fits = false := decide_eq_false (Nat.not_lt.2 hge)
    exact .inl ⟨hge, by rw [PortWord.wf, hf]; rfl, by rw [decode, hf]; rfl⟩

/-- Settles O4: the three answers of `decode_cases` exclude each other. -/
theorem illFormedWordsAreRefusedByName : Obligations.IllFormedWordsAreRefusedByName := by
  unfold Obligations.IllFormedWordsAreRefusedByName
  intro w
  rcases decode_cases w with ⟨hge, hwf, hd⟩ | ⟨hlt, hp, h0, hwf, hd⟩ | ⟨hlt, hwf, i, hd⟩
  · have h0 : w.bits ≠ 0 := by
      have := Nat.two_pow_pos w.port.width
      omega
    simp [hd, hwf, hge, h0]
  · simp [hd, hwf, hp, h0]
  · have hlow : ¬((w.port = .encClr ∨ w.port = .decClr) ∧ w.bits = 0) := by
      rintro ⟨hp, h0⟩
      simp [PortWord.wf, not_asserted_of_low hp h0] at hwf
    simp [hd, hwf, hlt, hlow]

/-! ### The units share nothing -/

/-- Settles O43: an instruction moves each unit as an edge with the instruction's lines, and an edge takes each unit's next
registers, and the byte `OUT` grows by, from the unit's own. -/
theorem unitsShareNothing : Obligations.UnitsShareNothing := by
  unfold Obligations.UnitsShareNothing
  refine ⟨fun i s s' t t' h h' => ?_, fun l s s' => ⟨fun hd => ?_, fun he ho => ⟨?_, ?_⟩⟩⟩
  · obtain ⟨henc, hdec, -⟩ := exec_movesAs h
    obtain ⟨henc', hdec', -⟩ := exec_movesAs h'
    exact ⟨fun hd => by rw [hdec, hdec', hd], fun he => by rw [henc, henc', he]⟩
  · rw [State.edge_dec, State.edge_dec, hd]
  · rw [State.edge_enc, State.edge_enc, he]
  · rw [State.edge_out, State.edge_out, he, ho]

end Sys2Proof.Machine
end

section
/-!
The wire from ENC to DEC (`20_memory.md` R67 (d)): what goes over it is the form of the Value ENC is sending, byte by byte,
and DEC reads that form back as the Value (`40_encode.md` R119).
-/
namespace Sys2Proof.Machine

/-! ### The form of a Value as a run -/

theorem enc1_length (v : Value) : (enc1 v).length = formLength v := by
  induction v using value_induction with
  | last v h => rw [enc1_last v h, formLength_last v h]; rfl
  | more v h ih => rw [enc1_more v h, formLength_more v h, List.length_cons, ih]

/-- The run of `enc1` stands for the Value encoded (`30_encoding.md` R84). -/
theorem runValue_enc1 (v : Value) : runValue (enc1 v) = v.toNat := by
  induction v using value_induction with
  | last v h =>
    rw [enc1_last v h, runValue_cons, runValue_nil, byteOf_toNat, lowGroup_toNat]
    simp only [Bool.toNat_false]
    omega
  | more v h ih =>
    rw [enc1_more v h, runValue_cons, ih, byteOf_toNat, lowGroup_toNat, shiftGroup_toNat]
    simp only [Bool.toNat_true]
    omega

/-- The last byte of `enc1`, and no other, has bit 7 clear. -/
theorem termIndex_enc1 (v : Value) : termIndex (enc1 v) = some (formLength v - 1) := by
  induction v using value_induction with
  | last v h => simp [enc1_last v h, formLength_last v h, termIndex_cons]
  | more v h ih =>
    have hpos := (formLength_bounds (shiftGroup v)).1
    have hlen : formLength (shiftGroup v) - 1 + 1 = formLength v - 1 := by
      rw [formLength_more v h]
      omega
    rw [enc1_more v h, termIndex_cons, contBit_byteOf, if_pos rfl, ih, Option.map_some, hlen]

/-- A terminated run of at most 10 bytes that stands for a number of 64 bits is within range: a tenth byte has no bits
above the Value. -/
theorem outOfRange_eq_false {b : List Byte} {k : Nat} (hk : termIndex b = some k) (h10 : k < 10)
    (hv : runValue (b.take (k + 1)) < 2 ^ 64) : outOfRange b k = false := by
  obtain ⟨x, hx, hc, -⟩ := (termIndex_some_iff b k).1 hk
  obtain ⟨hlt, rfl⟩ := List.getElem?_eq_some_iff.1 hx
  rw [Bool.eq_false_iff, ne_eq, outOfRange_iff b k _ hx hc]
  rintro (hge | ⟨rfl, hne⟩)
  · omega
  · have hb : b[9].toNat < 128 := by simpa [contBit_eq_decide] using hc
    rw [runValue_take_succ hlt, payload_toNat] at hv
    omega

/-- `dec1` reads the form of a Value back, to its last byte (`40_encode.md` R119). -/
theorem dec1_enc1 (v : Value) : dec1 (enc1 v) = .ok v (enc1 v).length := by
  obtain ⟨hpos, hle⟩ := formLength_bounds v
  have hlen : formLength v - 1 + 1 = (enc1 v).length := by
    rw [enc1_length]
    omega
  have hval : runValue ((enc1 v).take (formLength v - 1 + 1)) = v.toNat := by
    rw [hlen, List.take_length, runValue_enc1]
  refine (dec1_ok_iff _ _ _).2 ⟨_, termIndex_enc1 v, ?_, hlen.symm, by rw [hval, BitVec.ofNat_toNat, BitVec.setWidth_eq]⟩
  exact outOfRange_eq_false (termIndex_enc1 v) (by omega) (hval ▸ v.isLt)

/-! ### DEC after a buffer of one run -/

/-- DEC after the bytes of `b` one by one on its token port. -/
def Dec.afterBytes (d : Dec) (b : List Byte) : Dec := (b.map Token.byte).foldl (fun d t => d.edge t.lines) d

/-- In RUN a byte on the token port is accepted. -/
theorem Dec.afterBytes_cons {d : Dec} (hr : d.st = .run) (x : Byte) (b : List Byte) :
    d.afterBytes (x :: b) = (d.byteStep x).afterBytes b := by
  simp [Dec.afterBytes, Dec.edge_token, hr, Dec.tokenStep]

theorem Dec.Inv.afterBytes {d : Dec} (h : d.Inv) (b : List Byte) : (d.afterBytes b).Inv := by
  induction b generalizing d with
  | nil => exact h
  | cons x b ih => exact ih (h.edge _)

theorem Dec.decodes_afterBytes (b : List Byte) : (Dec.afterBytes ⟨.run, 0, 0, false, none⟩ b).Decodes b b.length := by
  have h := Dec.decodes_foldl b b.length
  rwa [bufferTokens, List.take_append_of_le_length (by simp), List.take_of_length_le (by simp)] at h

/-- DEC, just started, after the bytes of a run that `dec1` reads to its end. -/
theorem Dec.afterBytes_of_dec1_ok {b : List Byte} {v : Value} (h : dec1 b = .ok v b.length) :
    Dec.afterBytes ⟨.run, 0, 0, false, none⟩ b = ⟨.done, v, BitVec.ofNat 4 b.length, false, none⟩ := by
  have hinv : (Dec.afterBytes ⟨.run, 0, 0, false, none⟩ b).Inv := Dec.Inv.afterBytes (by decide) b
  have hdec := Dec.decodes_afterBytes b
  generalize Dec.afterBytes ⟨.run, 0, 0, false, none⟩ b = d at hinv hdec
  have hdone : d.st = .done := by
    rcases hdec with ⟨-, -, -, hall, -⟩ | ⟨hd, -⟩ | ⟨c, -, -, hf⟩
    · rw [List.take_length, ← termIndex_none_iff, ← dec1_truncated_iff, h] at hall
      cases hall
    · exact hd
    · rw [h] at hf
      cases hf
  obtain ⟨hacc, hi⟩ : d.acc = v ∧ d.i.toNat = b.length := by
    simpa [h, eq_comm] using hdec.result_ok hdone
  have hcause := hinv.cause_eq_none (by simp [hdone])
  obtain ⟨-, -, -, hovf, -⟩ := hinv
  obtain ⟨hovf, -⟩ := hovf hdone
  obtain ⟨st, acc, i, ovf, cause⟩ := d
  dsimp only at hdone hacc hi hovf hcause
  rw [hdone, hacc, hovf, hcause, ← hi, BitVec.ofNat_toNat, BitVec.setWidth_eq]

/-! ### The wire -/

/-- ENC at the last byte of a Value. -/
theorem Enc.emit_last {v : Value} (h : v.toNat < 128) :
    (Enc.mk .emit v).outByte = byteOf false (lowGroup v) ∧ (Enc.mk .emit v).emitStep = ⟨.idle, 0⟩ := by
  have hm : (Enc.mk .emit v).more = false := by simpa [Enc.more_eq_decide] using h
  exact ⟨by rw [Enc.outByte, hm], by simp [Enc.emitStep, hm, (shiftGroup_eq_zero_iff v).2 h]⟩

/-- ENC at a byte that more bytes follow. -/
theorem Enc.emit_more {v : Value} (h : 128 ≤ v.toNat) :
    (Enc.mk .emit v).outByte = byteOf true (lowGroup v) ∧ (Enc.mk .emit v).emitStep = ⟨.emit, shiftGroup v⟩ := by
  have hm : (Enc.mk .emit v).more = true := by simpa [Enc.more_eq_decide] using h
  exact ⟨by rw [Enc.outByte, hm], by simp [Enc.emitStep, hm]⟩

/-- A wired edge while ENC sends and DEC runs: the byte ENC presents goes to DEC, and to `OUT`. -/
theorem wiredEdges_succ {v : Value} {s : State} (he : s.enc = ⟨.emit, v⟩) (hd : s.dec.st = .run) (k : Nat) :
    wiredEdges (k + 1) s = wiredEdges k { s with
      enc := (Enc.mk .emit v).emitStep
      dec := s.dec.byteStep (Enc.mk .emit v).outByte
      out := s.out ++ [(Enc.mk .emit v).outByte] } := by
  rw [wiredEdges]
  congr 1
  simp [State.edge, Enc.edge, Dec.edge, he, hd, tokenOf, Dec.tokenStep]

/-- All of a Value over the wire: in as many edges as its form has bytes ENC becomes IDLE, DEC and `OUT` have got just these
bytes, and until then ENC is in EMIT, and DEC in RUN. -/
theorem wiredEdges_sending (v : Value) (s : State) (he : s.enc = ⟨.emit, v⟩) (hd : s.dec.st = .run) :
    wiredEdges (enc1 v).length s =
      { s with enc := ⟨.idle, 0⟩, dec := s.dec.afterBytes (enc1 v), out := s.out ++ enc1 v } ∧
    ∀ k, k < (enc1 v).length → (wiredEdges k s).enc.st = .emit ∧ (wiredEdges k s).dec.st = .run := by
  induction v using value_induction generalizing s with
  | last v h =>
    obtain ⟨hbyte, hnext⟩ := Enc.emit_last h
    rw [enc1_last v h, Dec.afterBytes_cons hd]
    refine ⟨?_, fun k hk => ?_⟩
    · rw [List.length_singleton, wiredEdges_succ he hd, hbyte, hnext]
      rfl
    · obtain rfl : k = 0 := by simpa using hk
      exact ⟨congrArg Enc.st he, hd⟩
  | more v h ih =>
    obtain ⟨hbyte, hnext⟩ := Enc.emit_more h
    have hw := wiredEdges_succ he hd
    rw [hbyte, hnext] at hw
    have hrun : (s.dec.byteStep (byteOf true (lowGroup v))).st = .run := by simp [Dec.byteStep]
    obtain ⟨hend, hbefore⟩ := ih { s with
      enc := ⟨.emit, shiftGroup v⟩
      dec := s.dec.byteStep (byteOf true (lowGroup v))
      out := s.out ++ [byteOf true (lowGroup v)] } rfl hrun
    rw [enc1_more v h, Dec.afterBytes_cons hd]
    refine ⟨?_, fun k hk => ?_⟩
    · rw [List.length_cons, hw, hend, List.append_assoc, List.singleton_append]
    · cases k with
      | zero => exact ⟨congrArg Enc.st he, hd⟩
      | succ k =>
        rw [hw]
        exact hbefore k (Nat.lt_of_succ_lt_succ hk)

/-- Settles O44: over the wire DEC gets the form of the Value (`wiredEdges_sending`), which `dec1` reads back
(`dec1_enc1`), and so does DEC (`Dec.afterBytes_of_dec1_ok`). -/
theorem wiredUnitsTransportTheValue : Obligations.WiredUnitsTransportTheValue := by
  unfold Obligations.WiredUnitsTransportTheValue
  intro v s he hd
  have hw := wiredEdges_sending v s he (by rw [hd])
  rwa [hd, Dec.afterBytes_of_dec1_ok (dec1_enc1 v)] at hw

end Sys2Proof.Machine
end

section
/-!
The words on the ports (`30_encoding.md` R80, R88, R89): decoder and encoder undo each other, and the token classes by the
number on the token port's 9 lines.
-/
namespace Sys2Proof.Machine

/-! ### Round trips -/

theorem decode_of_lt {w : PortWord} (h : w.bits < 2 ^ w.port.width) : decode w = decodeOn w.port w.bits :=
  if_pos (decide_eq_true h)

/-- A word that decodes is well formed, its bits among them within the port's lines. -/
theorem wf_and_lt_of_decode_ok {w : PortWord} {i : Instr} (h : decode w = .ok i) :
    w.wf = true ∧ w.bits < 2 ^ w.port.width := by
  rcases decode_cases w with ⟨-, -, hd⟩ | ⟨-, -, -, -, hd⟩ | ⟨hlt, hwf, -⟩
  · rw [h] at hd
    cases hd
  · rw [h] at hd
    cases hd
  · exact ⟨hwf, hlt⟩

/-- The decoder reads the word of an instruction as that instruction. -/
theorem decode_encode {i : Instr} {w : PortWord} (h : encode i = some w) : decode w = .ok i := by
  cases i with
  | encm | decm | decn => cases h
  | enc1 v =>
    cases h
    have hv : v.toNat < 2 ^ Port.encOperand.width := v.isLt
    rw [decode_of_lt hv, decodeOn, BitVec.ofNat_toNat, BitVec.setWidth_eq]
  | dec1 | encClr | decClr =>
    cases h
    rfl
  | byteCont p =>
    cases h
    rw [decode_token_bits, decodeToken_byteOf, if_pos rfl]
  | byteTerm p =>
    cases h
    rw [decode_token_bits, decodeToken_byteOf, if_neg Bool.false_ne_true]
  | eob x =>
    cases h
    rw [decode_token_bits, decodeToken_eob]

/-- Only the host's composites have no word. -/
theorem encode_eq_none_iff (i : Instr) :
    encode i = none ↔ (∃ vs, i = .encm vs) ∨ (∃ b, i = .decm b) ∨ ∃ n b, i = .decn n b := by
  cases i <;> simp [encode]

/-- Settles O2: `decode_encode`, and a word that decodes is well formed. -/
theorem encodeThenDecodeGivesTheInstruction : Obligations.EncodeThenDecodeGivesTheInstruction := by
  unfold Obligations.EncodeThenDecodeGivesTheInstruction
  exact ⟨fun i w h => ⟨(wf_and_lt_of_decode_ok (decode_encode h)).1, decode_encode h⟩, encode_eq_none_iff⟩

/-- The 9 bits of a token are `in_eob` and the data (`30_encoding.md` R88). -/
theorem tokenBits_fields (b : BitVec 9) : tokenBits (b.getLsbD 8) (b.extractLsb' 0 8) = b := by
  revert b
  decide

/-- The encoder gives the bits of a token back from its class and operand. -/
theorem encode_decodeToken (b : BitVec 9) : encode (decodeToken b) = some ⟨.token, b.toNat⟩ := by
  rw [← tokenBits_fields b]
  generalize b.extractLsb' 0 8 = x
  cases b.getLsbD 8
  · rw [← byteOf_fields x, decodeToken_byteOf]
    cases contBit x <;> rfl
  · rw [decodeToken_eob]
    rfl

/-- The encoder gives back any word that decodes. -/
theorem encode_of_decode_ok {w : PortWord} {i : Instr} (h : decode w = .ok i) : encode i = some w := by
  obtain ⟨-, hlt⟩ := wf_and_lt_of_decode_ok h
  obtain ⟨p, n⟩ := w
  rw [decode_of_lt hlt] at h
  cases p with
  | encOperand =>
    cases h
    rw [encode, BitVec.toNat_ofNat, Nat.mod_eq_of_lt hlt]
  | decStart =>
    cases h
    obtain rfl : n = 0 := Nat.lt_one_iff.1 hlt
    rfl
  | token =>
    cases h
    rw [encode_decodeToken, BitVec.toNat_ofNat, Nat.mod_eq_of_lt hlt]
  | encClr | decClr =>
    by_cases h1 : n = 1
    · rw [h1] at h ⊢
      cases h
      rfl
    · simp [decodeOn, h1] at h

/-- Settles O3: a word that decodes is not one of those `decode_cases` refuses, and `encode_of_decode_ok`. -/
theorem decodeThenEncodeGivesTheWord : Obligations.DecodeThenEncodeGivesTheWord := by
  unfold Obligations.DecodeThenEncodeGivesTheWord
  exact fun w i h => ⟨(wf_and_lt_of_decode_ok h).1, encode_of_decode_ok h⟩

/-! ### The token classes -/

/-- A number on the token port as `in_eob` and data. -/
theorem ofNat_eq_tokenBits {n : Nat} (h : n < 512) :
    BitVec.ofNat 9 n = tokenBits (decide (256 ≤ n)) (BitVec.ofNat 8 n) := by
  rw [← BitVec.toNat_inj, tokenBits_toNat, BitVec.toNat_ofNat, BitVec.toNat_ofNat]
  by_cases h' : 256 ≤ n
  · simp only [h', decide_true, Bool.toNat_true]
    omega
  · simp only [h', decide_false, Bool.toNat_false]
    omega

/-- The data of a byte as continuation bit and payload (`30_encoding.md` R81). -/
theorem ofNat_eq_byteOf {n : Nat} (h : n < 256) :
    BitVec.ofNat 8 n = byteOf (decide (128 ≤ n)) (BitVec.ofNat 7 n) := by
  rw [← BitVec.toNat_inj, byteOf_toNat, BitVec.toNat_ofNat, BitVec.toNat_ofNat]
  by_cases h' : 128 ≤ n
  · simp only [h', decide_true, Bool.toNat_true]
    omega
  · simp only [h', decide_false, Bool.toNat_false]
    omega

theorem decode_token_number {n : Nat} (h : n < 512) :
    decode ⟨.token, n⟩ = .ok (decodeToken (tokenBits (decide (256 ≤ n)) (BitVec.ofNat 8 n))) := by
  rw [← ofNat_eq_tokenBits h]
  exact decode_of_lt h

theorem decode_token_eob {n : Nat} (h : 256 ≤ n) (h' : n < 512) : decode ⟨.token, n⟩ = .ok (.eob (BitVec.ofNat 8 n)) := by
  rw [decode_token_number h', decide_eq_true h, decodeToken_eob]

theorem decode_token_byte {n : Nat} (h : n < 256) : decode ⟨.token, n⟩ =
    .ok (if 128 ≤ n then .byteCont (BitVec.ofNat 7 n) else .byteTerm (BitVec.ofNat 7 n)) := by
  rw [decode_token_number (by omega), decide_eq_false (Nat.not_le.2 h), ofNat_eq_byteOf h, decodeToken_byteOf]
  simp only [decide_eq_true_eq]

/-- Whatever its class, a number on the token port presents its data byte, and from 256 on `EOB`. -/
theorem decode_token_presents {n : Nat} (h : n < 512) : ∃ i, decode ⟨.token, n⟩ = .ok i ∧
    i.token? = some (if 256 ≤ n then .eob else .byte (BitVec.ofNat 8 n)) := by
  by_cases he : 256 ≤ n
  · exact ⟨_, decode_token_eob he h, by rw [if_pos he]; rfl⟩
  · have hb : n < 256 := Nat.not_le.1 he
    refine ⟨_, decode_token_byte hb, ?_⟩
    rw [if_neg he, ofNat_eq_byteOf hb]
    by_cases hc : 128 ≤ n <;> simp [hc, Instr.token?]

/-- Settles O5: the class by the number on the lines, and DEC's step on the token presented (`exec_token`). -/
theorem tokenClassesPartitionThePatterns : Obligations.TokenClassesPartitionThePatterns := by
  unfold Obligations.TokenClassesPartitionThePatterns
  intro n hn
  refine ⟨fun h => decode_token_eob h hn, fun h h' => ?_, fun h => ?_, fun s hs => ?_⟩
  · rw [decode_token_byte h', if_pos h]
  · rw [decode_token_byte (by omega), if_neg (Nat.not_le.2 h)]
  · obtain ⟨i, hi, ht⟩ := decode_token_presents hn
    refine ⟨i, hi, (exec_token ht s hs).trans ?_⟩
    by_cases h : 256 ≤ n
    · rw [if_pos h, if_pos h]
      rfl
    · rw [if_neg h, if_neg h]
      rfl

/-- Settles O1: the words of instructions by `decode_encode`, the two refused ones by what `decode` answers on them. -/
theorem portWordsDecodeAsSpecified : Obligations.PortWordsDecodeAsSpecified := by
  unfold Obligations.PortWordsDecodeAsSpecified
  exact ⟨decode_encode rfl, decode_encode rfl, decode_encode rfl, decode_encode rfl, decode_encode rfl, decode_encode rfl,
    decode_encode rfl, decode_encode rfl, rfl, rfl⟩

end Sys2Proof.Machine
end

section
/-!
The forms of Values (`30_encoding.md` R82, R83, R86, R91, `40_encode.md` R110, R111, R117): their bytes, their length, which
runs they are, and how a concatenation of them is cut back.
-/
namespace Sys2Proof.Machine

/-! ### The bytes of a form -/

theorem byteOf_lowGroup_last {v : Value} (h : v.toNat < 128) : byteOf false (lowGroup v) = BitVec.ofNat 8 v.toNat := by
  rw [← BitVec.toNat_inj, byteOf_toNat, lowGroup_toNat, BitVec.toNat_ofNat, Bool.toNat_false]
  omega

theorem byteOf_lowGroup_more (v : Value) : byteOf true (lowGroup v) = BitVec.ofNat 8 (128 + v.toNat % 128) := by
  rw [← BitVec.toNat_inj, byteOf_toNat, lowGroup_toNat, BitVec.toNat_ofNat, Bool.toNat_true]
  omega

theorem shiftGroup_eq_ofNat (v : Value) : shiftGroup v = BitVec.ofNat 64 (v.toNat / 128) := by
  rw [← shiftGroup_toNat, BitVec.ofNat_toNat, BitVec.setWidth_eq]

/-- The recursion of `enc1` in natural numbers. -/
theorem enc1_eq_nat (v : Value) : enc1 v =
    if v.toNat < 128 then [BitVec.ofNat 8 v.toNat]
    else BitVec.ofNat 8 (128 + v.toNat % 128) :: enc1 (BitVec.ofNat 64 (v.toNat / 128)) := by
  split
  · next h => rw [enc1_last v h, byteOf_lowGroup_last h]
  · next h => rw [enc1_more v (Nat.not_lt.1 h), byteOf_lowGroup_more, shiftGroup_eq_ofNat]

theorem group_zero (v : Value) : group v 0 = lowGroup v := rfl

/-- The groups of a Value above the lowest are those of the rest. -/
theorem group_succ (v : Value) (k : Nat) : group v (k + 1) = group (shiftGroup v) k := by
  rw [← BitVec.toNat_inj, group_toNat, group_toNat, shiftGroup_toNat, Nat.mul_succ, Nat.add_comm, pow_add,
    Nat.div_div_eq_div_mul]
  rfl

theorem form_last {v : Value} (h : v.toNat < 128) : form v = [byteOf false (lowGroup v)] := by
  rw [form, formLength_last v h]
  rfl

theorem form_more {v : Value} (h : 128 ≤ v.toNat) : form v = byteOf true (lowGroup v) :: form (shiftGroup v) := by
  have hpos := (formLength_bounds (shiftGroup v)).1
  rw [form, formLength_more v h, List.range_succ_eq_map, List.map_cons, List.map_map, form, group_zero,
    decide_eq_true (by omega)]
  congr 2
  funext k
  simp [group_succ]

/-- `enc1` writes the format FORM. -/
theorem enc1_eq_form (v : Value) : enc1 v = form v := by
  induction v using value_induction with
  | last v h => rw [enc1_last v h, form_last h]
  | more v h ih => rw [enc1_more v h, form_more h, ih]

theorem enc1_length_bounds (v : Value) : 1 ≤ (enc1 v).length ∧ (enc1 v).length ≤ 10 := by
  rw [enc1_length]
  exact formLength_bounds v

/-- Settles O13: the recursion in numbers, and the groups of FORM one by one. -/
theorem encodeOneIsTheWireForm : Obligations.EncodeOneIsTheWireForm := by
  unfold Obligations.EncodeOneIsTheWireForm
  exact ⟨enc1_eq_nat, enc1_eq_form, enc1_length_bounds, by decide, by decide⟩

/-! ### The length of a form -/

/-- The table of ranges: `n` bytes for the Values that have bits in the `n`-th group and none above it. -/
theorem formLength_eq_iff (v : Value) {n : Nat} (hn : 1 ≤ n) :
    formLength v = n ↔ (n = 1 ∨ 2 ^ (7 * (n - 1)) ≤ v.toNat) ∧ v.toNat < 2 ^ (7 * n) := by
  have hle := formLength_le_iff v n
  have hpred := formLength_le_iff v (n - 1)
  have hpos := (formLength_bounds v).1
  omega

/-- A tenth byte has the one bit that is left of a Value. -/
theorem enc1_tenth_byte {v : Value} (h : (enc1 v).length = 10) : (enc1 v)[9]? = some 0x01 := by
  rw [enc1_length] at h
  obtain ⟨hge, -⟩ := (formLength_eq_iff v (by omega)).1 h
  have hv := v.isLt
  have hg : group v 9 = 1 := by
    rw [← BitVec.toNat_inj, group_toNat]
    show v.toNat / 2 ^ 63 % 128 = 1
    omega
  have hb : byteOf false (group v 9) = 0x01 := by
    rw [hg]
    decide
  rw [enc1_eq_form, form, h, ← hb]
  rfl

/-- Settles O14: `enc1` has `formLength` bytes, and the ranges of that are in `formLength_eq_iff`. -/
theorem encodedLengthIsMinimal : Obligations.EncodedLengthIsMinimal := by
  unfold Obligations.EncodedLengthIsMinimal
  intro v
  obtain ⟨hpos, hle⟩ := enc1_length_bounds v
  exact ⟨enc1_length v, hpos, hle, fun n hn _ => by rw [enc1_length, formLength_eq_iff v hn], enc1_tenth_byte⟩

/-! ### Cutting back -/

/-- What follows the terminating byte does not matter to the Range condition. -/
theorem outOfRange_append {s : List Byte} {k : Nat} (hk : k < s.length) (e : List Byte) :
    outOfRange (s ++ e) k = outOfRange s k := by
  by_cases h9 : k = 9
  · subst h9
    simp only [outOfRange, highBitsAt, memRead, List.getElem?_append_left hk]
  · have hk9 : (k == 9) = false := beq_eq_false_iff_ne.2 h9
    simp only [outOfRange, hk9, Bool.false_and]

/-- `dec1` looks at nothing after a terminated run (`41_decode.md` R131). -/
theorem dec1_append {s : List Byte} (h : termIndex s ≠ none) (e : List Byte) : dec1 (s ++ e) = dec1 s := by
  obtain ⟨k, hk⟩ := Option.ne_none_iff_exists'.1 h
  have hlt := termIndex_lt hk
  simp only [dec1, termIndex_append s e h, hk, outOfRange_append hlt, List.take_append_of_le_length hlt]

/-- `dec1` reads the form of a Value back, whatever follows (`40_encode.md` R119). -/
theorem dec1_enc1_append (v : Value) (e : List Byte) : dec1 (enc1 v ++ e) = .ok v (enc1 v).length := by
  rw [dec1_append (by simp [termIndex_enc1]), dec1_enc1]

/-- The first form of a byte sequence and what follows it are told by the bytes. -/
theorem enc1_append_inj {v w : Value} {e f : List Byte} (h : enc1 v ++ e = enc1 w ++ f) : v = w ∧ e = f := by
  have hd : DecResult.ok v (enc1 v).length = .ok w (enc1 w).length := by
    rw [← dec1_enc1_append v e, h, dec1_enc1_append]
  obtain ⟨rfl, -⟩ := DecResult.ok.inj hd
  exact ⟨rfl, List.append_cancel_left h⟩

theorem enc1_ne_nil (v : Value) : enc1 v ≠ [] :=
  List.ne_nil_of_length_pos (enc1_length_bounds v).1

theorem encMany_inj {l m : List Value} (h : encMany l = encMany m) : l = m := by
  induction l generalizing m with
  | nil =>
    cases m with
    | nil => rfl
    | cons w m => exact absurd (List.append_eq_nil_iff.1 h.symm).1 (enc1_ne_nil w)
  | cons v l ih =>
    cases m with
    | nil => exact absurd (List.append_eq_nil_iff.1 h).1 (enc1_ne_nil v)
    | cons w m =>
      obtain ⟨rfl, hrest⟩ := enc1_append_inj h
      rw [ih hrest]

/-- Settles O26: `dec1` finds the first form of either side, and so on over the lists. -/
theorem formsCutBackInOneWay : Obligations.FormsCutBackInOneWay := by
  unfold Obligations.FormsCutBackInOneWay
  exact ⟨fun _ _ _ _ => enc1_append_inj, fun _ _ => encMany_inj⟩

/-! ### Canonical runs -/

theorem isRun_iff (r : List Byte) : isRun r = true ↔ termIndex r = some (r.length - 1) := beq_iff_eq

theorem isRun_singleton (b : Byte) : isRun [b] = true ↔ contBit b = false := by
  rw [isRun_iff, termIndex_cons]
  cases contBit b <;> simp [termIndex]

/-- The bytes of a run before its last have bit 7 set, and the rest of the run is a run. -/
theorem isRun_cons_cons (b c : Byte) (r : List Byte) :
    isRun (b :: c :: r) = true ↔ contBit b = true ∧ isRun (c :: r) = true := by
  rw [isRun_iff, isRun_iff, termIndex_cons]
  cases contBit b <;> simp

theorem isRun_enc1 (v : Value) : isRun (enc1 v) = true := by
  rw [isRun_iff, termIndex_enc1, enc1_length]

/-- The canonical runs among the terminated ones, in the words of `30_encoding.md` R86. -/
def CanonicalShape (r : List Byte) : Prop :=
  r.length ≤ 10 ∧ (r.length = 1 ∨ r[r.length - 1]? ≠ some 0x00) ∧ (r.length = 10 → r[9]? = some 0x01)

theorem canonical_iff (r : List Byte) : canonical r = true ↔ isRun r = true ∧ CanonicalShape r := by
  simp [canonical, CanonicalShape, memRead, Config.maxBytes, and_assoc, imp_iff_not_or]

/-- A form ends in `00` only if it is that of 0. -/
theorem enc1_getLast?_ne_zero (v : Value) (h : v.toNat ≠ 0) : (enc1 v).getLast? ≠ some 0 := by
  induction v using value_induction with
  | last v hv =>
    rw [enc1_last v hv, byteOf_lowGroup_last hv, List.getLast?_singleton, Ne, Option.some_inj, ← BitVec.toNat_inj]
    simp only [BitVec.ofNat_eq_ofNat, BitVec.toNat_ofNat]
    omega
  | more v hv ih =>
    rw [enc1_more v hv, List.getLast?_cons_of_ne_nil (enc1_ne_nil _)]
    refine ih ?_
    rw [shiftGroup_toNat]
    omega

theorem canonicalShape_enc1 (v : Value) : CanonicalShape (enc1 v) := by
  refine ⟨(enc1_length_bounds v).2, ?_, enc1_tenth_byte⟩
  by_cases hv : v.toNat = 0
  · left
    rw [enc1_length, formLength_last v (by omega)]
  · right
    rw [← List.getLast?_eq_getElem?]
    exact enc1_getLast?_ne_zero v hv

/-- A run that does not end in `00` stands for more than 0. -/
theorem runValue_pos {r : List Byte} (hr : isRun r = true) (hl : r.getLast? ≠ some 0) : 0 < runValue r := by
  induction r with
  | nil => cases hr
  | cons b r ih =>
    rw [runValue_cons]
    cases r with
    | nil =>
      rw [isRun_singleton, contBit_eq_decide, decide_eq_false_iff_not] at hr
      rw [List.getLast?_singleton, Ne, Option.some_inj, ← BitVec.toNat_inj] at hl
      have hb : b.toNat ≠ 0 := hl
      omega
    | cons c r =>
      rw [isRun_cons_cons] at hr
      have := ih hr.2 (by rwa [List.getLast?_cons_cons] at hl)
      omega

/-- A run that stands for a Value and does not end in `00`, unless it is one byte, is the form of the Value. -/
theorem enc1_of_runValue {r : List Byte} (hr : isRun r = true) (hl : r.length = 1 ∨ r.getLast? ≠ some 0) {v : Value}
    (hv : v.toNat = runValue r) : enc1 v = r := by
  induction r generalizing v with
  | nil => cases hr
  | cons b r ih =>
    rw [runValue_cons] at hv
    cases r with
    | nil =>
      rw [isRun_singleton, contBit_eq_decide, decide_eq_false_iff_not] at hr
      rw [runValue_nil] at hv
      have hb : v.toNat = b.toNat := by omega
      rw [enc1_last v (by omega), byteOf_lowGroup_last (by omega), hb, BitVec.ofNat_toNat, BitVec.setWidth_eq]
    | cons c r =>
      obtain ⟨hc, hr⟩ := (isRun_cons_cons b c r).1 hr
      have hl : (c :: r).getLast? ≠ some 0 := by simpa [List.getLast?_cons_cons] using hl
      have hpos := runValue_pos hr hl
      have hbyte : byteOf true (lowGroup v) = b := by
        rw [contBit_eq_decide, decide_eq_true_eq] at hc
        have := b.isLt
        rw [byteOf_lowGroup_more, ← BitVec.toNat_inj, BitVec.toNat_ofNat]
        omega
      rw [enc1_more v (by omega), hbyte, ih hr (.inr hl) (by rw [shiftGroup_toNat]; omega)]

/-- A run of at most 10 bytes with `01` as a tenth stands for a Value. -/
theorem runValue_lt_of_tenth {r : List Byte} (h10 : r.length ≤ 10) (ht : r.length = 10 → r[9]? = some 0x01) :
    runValue r < 2 ^ 64 := by
  rcases h10.lt_or_eq with hlt | heq
  · calc runValue r < 2 ^ (7 * r.length) := runValue_lt r
      _ ≤ 2 ^ 64 := Nat.pow_le_pow_right (by omega) (by omega)
  · obtain ⟨h9, hb⟩ := List.getElem?_eq_some_iff.1 (ht heq)
    have hinit := runValue_lt (r.take 9)
    rw [List.length_take_of_le h9.le] at hinit
    have hsum := runValue_take_succ h9
    have hone : (payload 1).toNat = 1 := rfl
    rw [List.take_of_length_le h10, hb, hone] at hsum
    omega

/-- A terminated run of canonical shape is a form, and the other way round. -/
theorem exists_enc1_eq_iff {r : List Byte} (hr : isRun r = true) : (∃ v, enc1 v = r) ↔ CanonicalShape r := by
  constructor
  · rintro ⟨v, rfl⟩
    exact canonicalShape_enc1 v
  · rintro ⟨h10, hlast, htenth⟩
    rw [← List.getLast?_eq_getElem?] at hlast
    have hlt := runValue_lt_of_tenth h10 htenth
    exact ⟨BitVec.ofNat 64 (runValue r), enc1_of_runValue hr hlast (by rw [BitVec.toNat_ofNat, Nat.mod_eq_of_lt hlt])⟩

theorem canonical_iff_exists (r : List Byte) : canonical r = true ↔ ∃ v, enc1 v = r := by
  rw [canonical_iff]
  constructor
  · rintro ⟨hr, hs⟩
    exact (exists_enc1_eq_iff hr).2 hs
  · rintro ⟨v, rfl⟩
    exact ⟨isRun_enc1 v, canonicalShape_enc1 v⟩

theorem enc1_inj {v w : Value} (h : enc1 v = enc1 w) : v = w := by
  rw [← BitVec.toNat_inj, ← runValue_enc1, h, runValue_enc1]

/-- The only canonical run with a Value's value is its form. -/
theorem eq_enc1_of_canonical {v : Value} {r : List Byte} (hc : canonical r = true) (hv : runValue r = v.toNat) :
    r = enc1 v := by
  obtain ⟨w, rfl⟩ := (canonical_iff_exists r).1 hc
  rw [runValue_enc1, BitVec.toNat_inj] at hv
  rw [hv]

/-- Settles O15: a form has the canonical shape, and a run of that shape stands for a Value whose form it is
(`enc1_of_runValue`). -/
theorem canonicalRunsAreTheEncodedForms : Obligations.CanonicalRunsAreTheEncodedForms := by
  unfold Obligations.CanonicalRunsAreTheEncodedForms
  exact ⟨fun _ hr => exists_enc1_eq_iff hr, canonical_iff_exists, runValue_enc1, fun _ _ => eq_enc1_of_canonical,
    fun _ _ => enc1_inj⟩

end Sys2Proof.Machine
end

section
/-!
What a step makes of the next line of the script (`30_encoding.md` R92): performed, refused, or presented until it can be
performed; and an instruction as an edge with its lines alone (`30_encoding.md` R89, `20_memory.md` R59).
-/
namespace Sys2Proof.Machine

/-! ### Instructions as edges -/

/-- A handshake is an edge, if it is one completed and not completed. -/
theorem handshake_eq_edge {s : State} {ready : Bool} {f : State → State} {l : InLines}
    (hyes : ready = true → f s = s.edge l) (hno : ready = false → s = s.edge l) :
    s.handshake ready f = .next (s.edge l) := by
  cases hr : ready
  · rw [handshake_false, ← hno hr]
  · rw [handshake_true, ← hyes hr]

theorem presentToken_eq_edge (e : Bool) (x : Byte) (s : State) :
    presentToken (tokenOf e x) s = .next (s.edge { inValid := true, inEob := e, inData := x }) :=
  handshake_eq_edge (fun h => by simp [State.edge, State.decToken, Enc.edge, Dec.edge, h])
    fun h => by simp [State.edge, Enc.edge, Dec.edge, h]

/-- An instruction with a port is an edge with its lines alone. -/
theorem exec_eq_edge {i : Instr} {w : PortWord} (hi : encode i = some w) (s : State) :
    exec i s = .next (s.edge i.lines) := by
  cases i with
  | encm | decm | decn => cases hi
  | enc1 v =>
    show s.handshake s.enc.ready (·.encAccept v) = _
    refine handshake_eq_edge (fun h => ?_) (fun h => ?_) <;>
      simp [State.edge, State.encAccept, Instr.lines, Enc.edge, Dec.edge, h]
  | dec1 =>
    refine handshake_eq_edge (fun h => ?_) (fun h => ?_) <;>
      simp [State.edge, State.decStart, Instr.lines, Enc.edge, Dec.edge, h]
  | byteCont p => exact presentToken_eq_edge false (byteOf true p) s
  | byteTerm p => exact presentToken_eq_edge false (byteOf false p) s
  | eob x => exact presentToken_eq_edge true x s
  | encClr => simp [exec, execEncClr, State.edge, State.encClear, Instr.lines, Enc.edge, Dec.edge]
  | decClr => simp [exec, execDecClr, State.edge, State.decClear, Instr.lines, Enc.edge, Dec.edge]

theorem edge_nothing (s : State) : s.edge {} = s := by
  simp [State.edge, Enc.edge, Dec.edge]

/-- Settles O39: `exec_eq_edge` for each instruction with a port. -/
theorem edgeOfOnePortIsTheInstruction : Obligations.EdgeOfOnePortIsTheInstruction := by
  unfold Obligations.EdgeOfOnePortIsTheInstruction
  exact fun s => ⟨fun _ => exec_eq_edge rfl s, exec_eq_edge rfl s, fun _ => exec_eq_edge rfl s,
    fun _ => exec_eq_edge rfl s, fun _ => exec_eq_edge rfl s, exec_eq_edge rfl s, exec_eq_edge rfl s, edge_nothing s⟩

/-! ### Lines that wait -/

theorem performLine_of_blocked {f : Fetched} {s : State} (h : s.canPerform f = false) (rest : List Line) :
    performLine f rest s = .next s := by
  simp [performLine, h]

/-- A line that cannot be performed uses the turn up, which does not matter to whether it can, and stays. -/
theorem step_blocked {s : State} {line : Line} {rest : List Line} (ht : s.turn = .line) (hs : s.script = line :: rest)
    (hb : s.canPerform line.fetch = false) : step s = .next { s with turns := s.turns.tail } := by
  rw [step_line ht hs]
  exact performLine_of_blocked (s := { s with turns := s.turns.tail }) hb rest

/-- A procedure's step when it cannot go on. -/
theorem stepEncJob_of_waiting {j : EncJob} {s : State} (h : j.canMove s.enc = false) : stepEncJob j s = s := by
  rw [stepEncJob, h]
  rfl

theorem stepDecJob_of_waiting {j : DecJob} {s : State} (h : j.canMove s.dec = false) : stepDecJob j s = s := by
  rw [stepDecJob, h]
  rfl

/-- Where nobody can go on, whoever's turn it is leaves the state as it is. -/
theorem takeTurn_of_quiet {s : State} (h : s.Quiet) (t : Turn) : takeTurn t s = .next s := by
  obtain ⟨henc, hdec, hline⟩ := h
  cases t with
  | wait => rfl
  | enc =>
    cases hp : s.encProc with
    | none => simp [takeTurn, hp]
    | some j =>
      have hm : j.canMove s.enc = false := by simpa [State.encMoves, hp] using henc
      simp [takeTurn, hp, stepEncJob_of_waiting hm]
  | dec =>
    cases hp : s.decProc with
    | none => simp [takeTurn, hp]
    | some j =>
      have hm : j.canMove s.dec = false := by simpa [State.decMoves, hp] using hdec
      simp [takeTurn, hp, stepDecJob_of_waiting hm]
  | line =>
    cases hs : s.script with
    | nil => simp [takeTurn, hs]
    | cons line rest => simp [takeTurn, hs, performLine_of_blocked (hline line rest hs)]

theorem State.Quiet.step {s : State} (h : s.Quiet) : step s = .next { s with turns := s.turns.tail } :=
  takeTurn_of_quiet (s := { s with turns := s.turns.tail }) h s.turn

/-- The turns given do not matter to who can go on. -/
theorem State.Quiet.with_turns {s : State} (h : s.Quiet) (us : List Turn) : State.Quiet { s with turns := us } := h

theorem State.Quiet.runFor {s : State} (h : s.Quiet) (k : Nat) :
    runFor k s = .next { s with turns := s.turns.drop k } := by
  induction k generalizing s with
  | zero => rfl
  | succ k ih =>
    rw [Nat.add_comm, runFor_step h.step, ih (h.with_turns _)]
    simp only [List.drop_tail, Nat.add_comm]

/-- With no turn given a procedure that waits has the script wait behind it. -/
theorem step_behind_waiting {s : State} (ht : s.turns = []) (hp : s.encProc ≠ none ∨ s.decProc ≠ none)
    (he : s.encMoves = false) (hd : s.decMoves = false) : step s = .next s := by
  have hn : (s.encProc.isNone && s.decProc.isNone) = false := by
    rcases hp with hp | hp <;> simp [Option.isSome_iff_ne_none, hp]
  have hturn : s.turn = .wait := by simp [State.turn, State.defaultTurn, ht, he, hd, hn]
  have hstep : step s = .next { s with turns := s.turns.tail } := by simp [step, hostStep, takeTurn, hturn]
  have hnone : s.turns.tail = s.turns := by rw [ht, List.tail_nil]
  rw [hstep, hnone]

/-! ### What cannot go on -/

/-- A procedure of ENCM cannot present an operand in EMIT, nor take a byte in IDLE. -/
theorem EncJob.canMove_eq_false {j : EncJob} {e : Enc}
    (h : (j.busy = false ∧ j.left ≠ [] ∧ e.st = .emit) ∨ (j.busy = true ∧ e.st = .idle)) : j.canMove e = false := by
  rcases h with ⟨hb, hl, he⟩ | ⟨hb, he⟩
  · cases hl' : j.left with
    | nil => exact absurd hl' hl
    | cons v vs => simp [EncJob.canMove, hb, hl', he]
  · simp [EncJob.canMove, hb, he]

/-- A procedure of DECM or DECN cannot start a `DEC1` in RUN or FAULT, nor go on with one in IDLE. -/
theorem DecJob.canMove_eq_false {j : DecJob} {d : Dec}
    (h : (j.busy = false ∧ j.wantsMore = true ∧ (d.st = .run ∨ d.st = .fault)) ∨ (j.busy = true ∧ d.st = .idle)) :
    j.canMove d = false := by
  rcases h with ⟨hb, hw, hd⟩ | ⟨hb, hd⟩
  · simp [DecJob.canMove, hb, hw, hd]
  · simp [DecJob.canMove, Dec.result, hb, hd]

/-- A line cannot be performed that is held by a procedure or whose handshake cannot complete. -/
theorem canPerform_eq_false {s : State} {f : Fetched}
    (h : (∃ i, f = .instr i ∧ (s.held i = true ∨ (s.owesClear i = false ∧ s.completes i = false))) ∨
      (f = .take ∧ (s.enc.st = .idle ∨ s.encProc ≠ none)) ∨ (∃ l, f = .edge l ∧ s.edgeHeld l = true)) :
    s.canPerform f = false := by
  rcases h with ⟨i, rfl, hh | ⟨ho, hc⟩⟩ | ⟨rfl, he | hp⟩ | ⟨l, rfl, hh⟩
  · simp [State.canPerform, hh]
  · simp [State.canPerform, ho, hc]
  · simp [State.canPerform, he]
  · simp [State.canPerform, hp]
  · simp [State.canPerform, hh]

/-- Settles O49: a quiet state has only its turns used up (`State.Quiet.runFor`), and what cannot go on is read off
`canMove` and `canPerform`. -/
theorem blockedLinesWaitForEver : Obligations.BlockedLinesWaitForEver := by
  unfold Obligations.BlockedLinesWaitForEver
  refine ⟨fun s h => h.runFor, fun s ht hp he hd => runFor_fix (step_behind_waiting ht hp he hd),
    fun s j hp h => ?_, fun s j hp h => ?_, fun s line h => canPerform_eq_false h⟩
  · simp [State.encMoves, hp, EncJob.canMove_eq_false h]
  · simp [State.decMoves, hp, DecJob.canMove_eq_false h]

/-! ### Lines that are performed -/

/-- An instruction at the head of the script that is not held, and before which no clear is owed. -/
theorem step_instr {s : State} {line : Line} {rest : List Line} {i : Instr} (ht : s.turn = .line)
    (hs : s.script = line :: rest) (hf : line.fetch = .instr i) (hh : s.held i = false) (ho : s.owesClear i = false) :
    step s = if s.completes i then exec i { s with script := rest, turns := s.turns.tail }
      else .next { s with turns := s.turns.tail } := by
  cases hc : s.completes i
  · exact step_blocked ht hs (by rw [hf]; exact canPerform_eq_false (.inl ⟨i, rfl, .inr ⟨ho, hc⟩⟩))
  · have hcan : State.canPerform { s with turns := s.turns.tail } (.instr i) = true := by
      show (!s.held i && (s.owesClear i || s.completes i)) = true
      rw [hh, ho, hc]
      rfl
    have ho' : State.owesClear { s with turns := s.turns.tail } i = false := ho
    rw [step_line ht hs, hf, performLine, if_pos hcan]
    simp [performInstr, ho']

theorem step_instr_of_completes {s : State} {line : Line} {rest : List Line} {i : Instr} (ht : s.turn = .line)
    (hs : s.script = line :: rest) (hf : line.fetch = .instr i) (hh : s.held i = false) (ho : s.owesClear i = false)
    (hc : s.completes i = true) : step s = exec i { s with script := rest, turns := s.turns.tail } :=
  (step_instr ht hs hf hh ho).trans (if_pos hc)

theorem fetch_word {w : PortWord} {i : Instr} (h : decode w = .ok i) : (Line.word w).fetch = .instr i := by
  simp [Line.fetch, h]

theorem step_edge {s : State} {rest : List Line} {l : InLines} (ht : s.turn = .line) (hs : s.script = .edge l :: rest)
    (hh : s.edgeHeld l = false) : step s = .next (State.edge { s with script := rest, turns := s.turns.tail } l) := by
  have hcan : State.canPerform { s with turns := s.turns.tail } (.edge l) = true := by
    show (!s.edgeHeld l) = true
    rw [hh]
    rfl
  rw [step_line ht hs]
  exact if_pos hcan

/-- A clear line at 0 passes. -/
theorem step_clear_low {s : State} {rest : List Line} {p : Port} (ht : s.turn = .line) (hp : p = .encClr ∨ p = .decClr)
    (hs : s.script = .word ⟨p, 0⟩ :: rest) : step s = .next { s with script := rest, turns := s.turns.tail } := by
  rw [step_line ht hs]
  rcases hp with rfl | rfl <;> rfl

theorem step_no_line {s : State} (ht : s.turn = .line) (hs : s.script = []) :
    step s = .next { s with turns := s.turns.tail } := by
  simp [step, hostStep, takeTurn, ht, hs]

/-- Settles O45: each kind of line by its own lemma, `step_instr` for words and composites. -/
theorem stepPerformsTheNextLine : Obligations.StepPerformsTheNextLine := by
  unfold Obligations.StepPerformsTheNextLine
  refine ⟨fun s rest ht => ⟨?_, ?_, ?_, ?_, ?_, fun l hs hh => step_edge ht hs hh, fun p hp hs => step_clear_low ht hp hs,
    step_no_line ht⟩, fun s j ht hp => step_enc ht hp, fun s j ht hp => step_dec ht hp, ?_, fun s h => h.turn⟩
  · exact fun w i hs hd hh ho => step_instr ht hs (fetch_word hd) hh ho
  · intro w i hs hd hh
    exact step_blocked ht hs (by rw [fetch_word hd]; exact canPerform_eq_false (.inl ⟨i, rfl, .inl hh⟩))
  · exact fun l hs hp =>
      step_instr_of_completes ht hs rfl (by simp [State.held, hp]) rfl (by simp [State.completes, hp])
  · exact fun b hs hp hc =>
      step_instr_of_completes ht hs rfl (by simp [State.held, hp]) hc (by simp [State.completes, hp])
  · exact fun n b hs hp hc =>
      step_instr_of_completes ht hs rfl (by simp [State.held, hp]) hc (by simp [State.completes, hp])
  · intro s u us h
    simp [State.turn, h]

/-! ### Words that are refused -/

/-- An instruction is a handshake, which always answers a next state. -/
theorem exec_answers (i : Instr) (s : State) : ∃ t, exec i s = .next t := by
  cases i <;> exact ⟨_, rfl⟩

/-- No host can present a word with bits above its port's lines, and any other line it can. -/
theorem fetch_eq_unpresentable_iff {line : Line} {p : Port} :
    line.fetch = .unpresentable p ↔ ∃ w, line = .word w ∧ 2 ^ w.port.width ≤ w.bits ∧ w.port = p := by
  cases line with
  | word w =>
    rcases decode_cases w with ⟨hge, -, hd⟩ | ⟨hlt, -, -, -, hd⟩ | ⟨hlt, -, i, hd⟩
    · simp [Line.fetch, hd, hge]
    · simp [Line.fetch, hd, hlt]
    · simp [Line.fetch, hd, hlt]
  | take | encm | decm | decn | edge => simp [Line.fetch]

theorem step_unpresentable {s : State} {line : Line} {rest : List Line} {p : Port} (ht : s.turn = .line)
    (hs : s.script = line :: rest) (hf : line.fetch = .unpresentable p) : step s = .refused (.unpresentable p) := by
  rw [step_line ht hs, hf]
  rfl

/-- The only step that is refused is that at a line no host can present. -/
theorem step_eq_refused_iff {s : State} {r : Refusal} : step s = .refused r ↔
    s.turn = .line ∧ ∃ line rest p, s.script = line :: rest ∧ line.fetch = .unpresentable p ∧ r = .unpresentable p := by
  constructor
  · intro h
    rcases step_cases s with ⟨-, hs⟩ | ⟨j, -, -, -, hs⟩ | ⟨j, -, -, -, hs⟩ | ⟨-, -, i, -, -, -, -, -, -, hs⟩ |
      ⟨-, rest, i, -, -, -, -, -, -, -, hs⟩ | ⟨-, rest, -, -, -, -, -, -, hs⟩ | ⟨-, rest, l, -, -, -, -, -, hs⟩ |
      ⟨-, rest, -, -, -, -, hs⟩ | ⟨line, rest, p, ht, hl, hf, -, hs⟩ <;> rw [h] at hs
    case inr.inr.inr.inr.inl =>
      obtain ⟨t, he⟩ := exec_answers i { s with script := rest, turns := s.turns.tail }
      rw [he] at hs
      cases hs
    case inr.inr.inr.inr.inr.inr.inr.inr =>
      cases hs
      exact ⟨ht, line, rest, p, hl, hf, rfl⟩
    all_goals cases hs
  · rintro ⟨ht, line, rest, p, hs, hf, rfl⟩
    exact step_unpresentable ht hs hf

/-- Settles O47: instructions are handshakes, there is no fault to answer, and `step_eq_refused_iff`. -/
theorem onlyUnpresentableWordsAreRefused : Obligations.OnlyUnpresentableWordsAreRefused := by
  unfold Obligations.OnlyUnpresentableWordsAreRefused
  refine ⟨exec_answers, fun s f => ?_, fun s r => ?_⟩
  · cases f
  · rw [step_eq_refused_iff]
    refine and_congr_right fun _ => ⟨?_, ?_⟩
    · rintro ⟨line, rest, p, hs, hf, rfl⟩
      obtain ⟨w, rfl, hge, rfl⟩ := fetch_eq_unpresentable_iff.1 hf
      exact ⟨w, rest, hs, hge, rfl⟩
    · rintro ⟨w, rest, hs, hge, rfl⟩
      exact ⟨_, rest, _, hs, fetch_eq_unpresentable_iff.2 ⟨w, rfl, hge, rfl⟩, rfl⟩

end Sys2Proof.Machine
end

section
/-!
ENC (`40_encode.md` R113, R114, R118, R119): it accepts an operand, sends the next group of the remaining value at each byte
the host takes, and so sends the form of the operand byte by byte, which `dec1` reads back.
-/
namespace Sys2Proof.Machine

/-! ### A whole Value by one `ENC1` and its takes -/

theorem State.Sequential.tail_turns {s : State} (h : s.Sequential) : s.turns.tail = s.turns := by
  obtain ⟨ht, -, -⟩ := h
  rw [ht, List.tail_nil]

/-- ENC.ACCEPT as the instruction. -/
theorem exec_enc1_of_idle {s : State} (h : s.enc.st = .idle) (v : Value) :
    exec (.enc1 v) s = .next { s with enc := ⟨.emit, v⟩ } := by
  have hr : s.enc.ready = true := s.enc.ready_iff.2 h
  show s.handshake s.enc.ready (·.encAccept v) = _
  rw [hr]
  rfl

theorem exec_enc1_of_emit {s : State} (h : s.enc.st = .emit) (v : Value) : exec (.enc1 v) s = .next s := by
  have hr : s.enc.ready = false := s.enc.ready_false_iff.2 h
  show s.handshake s.enc.ready (·.encAccept v) = _
  rw [hr, handshake_false]

/-- The line `ENC1 v` in a host that performs its script line by line. -/
theorem step_operand {s : State} {v : Value} {rest : List Line} (hq : s.Sequential) (he : s.enc.st = .idle)
    (hs : s.script = .word ⟨.encOperand, v.toNat⟩ :: rest) :
    step s = .next { s with enc := ⟨.emit, v⟩, script := rest } := by
  have hd : decode ⟨.encOperand, v.toNat⟩ = .ok (.enc1 v) := decode_encode rfl
  have ⟨_, hp, _⟩ := hq
  rw [step_instr_of_completes hq.turn hs (fetch_word hd) (by rw [State.held, hp]; rfl) rfl (s.enc.ready_iff.2 he),
    exec_enc1_of_idle (s := { s with script := rest, turns := s.turns.tail }) he, hq.tail_turns]

/-- A take of a byte of the remaining value `v` in such a host. -/
theorem step_take_sending {s : State} {v : Value} {rest : List Line} (hq : s.Sequential) (he : s.enc = ⟨.emit, v⟩)
    (hs : s.script = .take :: rest) : step s = .next { s with
      script := rest, enc := (Enc.mk .emit v).emitStep, out := s.out ++ [(Enc.mk .emit v).outByte] } := by
  have ⟨_, hp, _⟩ := hq
  rw [step_take hq.turn hp hs (congrArg Enc.st he), he, hq.tail_turns]

/-- As many takes as the form of the remaining value has bytes put that form on `OUT`; after fewer ENC is in EMIT, and the
form of what then remains is the rest of the form. -/
theorem runFor_takes (v : Value) (s : State) (rest : List Line) (hq : s.Sequential) (he : s.enc = ⟨.emit, v⟩)
    (hs : s.script = List.replicate (enc1 v).length .take ++ rest) :
    runFor (enc1 v).length s = .next { s with enc := ⟨.idle, 0⟩, script := rest, out := s.out ++ enc1 v } ∧
    ∀ k, k < (enc1 v).length → ∃ t w, runFor k s = .next t ∧ t.enc = ⟨.emit, w⟩ ∧
      t.out = s.out ++ (enc1 v).take k ∧ enc1 w = (enc1 v).drop k := by
  induction v using value_induction generalizing s with
  | last v h =>
    obtain ⟨hbyte, hnext⟩ := Enc.emit_last h
    rw [enc1_last v h] at hs ⊢
    have hstep := step_take_sending hq he hs
    rw [hbyte, hnext] at hstep
    refine ⟨runFor_one hstep, fun k hk => ?_⟩
    obtain rfl : k = 0 := by simpa using hk
    exact ⟨s, v, rfl, he, by simp, enc1_last v h⟩
  | more v h ih =>
    obtain ⟨hbyte, hnext⟩ := Enc.emit_more h
    have hform := enc1_more v h
    rw [hform, List.length_cons, List.replicate_succ, List.cons_append] at hs
    have hstep := step_take_sending hq he hs
    rw [hbyte, hnext] at hstep
    obtain ⟨hend, hbefore⟩ := ih { s with
      script := List.replicate (enc1 (shiftGroup v)).length .take ++ rest
      enc := ⟨.emit, shiftGroup v⟩
      out := s.out ++ [byteOf true (lowGroup v)] } hq rfl rfl
    rw [hform]
    refine ⟨?_, fun k hk => ?_⟩
    · rw [List.length_cons, Nat.add_comm, runFor_step hstep, hend, List.append_assoc, List.singleton_append]
    · cases k with
      | zero => exact ⟨s, v, rfl, he, by simp, hform⟩
      | succ k =>
        obtain ⟨t, w, hrun, hemit, hout, hrest⟩ := hbefore k (Nat.lt_of_succ_lt_succ hk)
        refine ⟨t, w, ?_, hemit, ?_, hrest⟩
        · rw [Nat.add_comm, runFor_step hstep, hrun]
        · rw [hout, List.append_assoc, List.singleton_append, List.take_succ_cons]

/-- The byte ENC presents is the first of the form of the remaining value. -/
theorem Enc.enc1_rem_getElem?_zero (e : Enc) : (enc1 e.rem)[0]? = some e.outByte := by
  rw [enc1_eq_outByte]
  rfl

/-- ENC presents a last byte when the form of the remaining value has no more. -/
theorem Enc.outLast_eq_length (e : Enc) : e.outLast = decide ((enc1 e.rem).length = 1) := by
  have hpos := (enc1_length_bounds e.emitStep.rem).1
  rw [enc1_eq_outByte, Enc.outLast]
  cases e.more
  · rfl
  · simp [enc1_ne_nil]

/-- In EMIT no instruction but ENC.CLR changes ENC (`40_encode.md` R113, R118). -/
theorem exec_keeps_enc_of_emit {i : Instr} {s t : State} (he : s.enc.st = .emit) (hi : i ≠ .encClr)
    (h : exec i s = .next t) : t.enc = s.enc := by
  rcases exec_cases h with rfl | ⟨v, -, hidle, -⟩ | ⟨-, -, rfl⟩ | ⟨k, -, -, rfl⟩ | ⟨vs, -, -, rfl⟩ |
    ⟨b, -, -, rfl⟩ | ⟨n, b, -, -, rfl⟩ | ⟨rfl, -⟩ | ⟨-, rfl⟩
  case inr.inl =>
    rw [he] at hidle
    cases hidle
  case inr.inr.inr.inr.inr.inr.inr.inl => exact absurd rfl hi
  all_goals rfl

/-- Settles O12: `step_operand`, then `runFor_takes`, and on the way the lines show the first byte of the form that
remains. -/
theorem encodeOneAgreesOnBothLevels : Obligations.EncodeOneAgreesOnBothLevels := by
  unfold Obligations.EncodeOneAgreesOnBothLevels
  intro v s rest hq he hs
  have hstep := step_operand hq he hs
  obtain ⟨hend, hbefore⟩ := runFor_takes v
    { s with enc := ⟨.emit, v⟩, script := List.replicate (enc1 v).length .take ++ rest } rest hq rfl rfl
  refine ⟨(runFor_step hstep _).trans hend, fun k hk => ?_⟩
  obtain ⟨t, w, hrun, hemit, hout, hrest⟩ := hbefore k hk
  have hst : t.enc.st = .emit := congrArg Enc.st hemit
  have hform : enc1 t.enc.rem = (enc1 v).drop k := by rw [hemit, hrest]
  obtain ⟨hdata, hlast⟩ := State.outLines_of_emit hst
  refine ⟨t, (runFor_step hstep k).trans hrun, hst, hout, ?_, ?_, fun i t' hi h => exec_keeps_enc_of_emit hst hi h⟩
  · rw [hdata, ← t.enc.enc1_rem_getElem?_zero, hform, List.getElem?_drop, Nat.add_zero]
  · rw [hlast, t.enc.outLast_eq_length, hform, List.length_drop]
    exact congrArg some (decide_eq_decide.2 (by omega))

/-! ### Reading the form back -/

/-- Settles O24: `dec1` reads the form back whatever follows (`dec1_enc1_append`), and what follows is not used. -/
theorem roundTripWithAnyRest : Obligations.RoundTripWithAnyRest := by
  unfold Obligations.RoundTripWithAnyRest
  exact fun v e => ⟨dec1_enc1_append v e, List.drop_left⟩

/-! ### ENC.ACCEPT -/

/-- ENC.ACCEPT at an edge. -/
theorem Enc.edge_accept {e : Enc} {l : InLines} (hr : l.rst = false) (hc : l.encClr = false) (hv : l.encValid = true)
    (he : e.st = .idle) : e.edge l = (⟨.emit, l.encValue⟩, none) := by
  simp [Enc.edge, Enc.accept, hr, hc, hv, he]

/-- In EMIT an edge does not look at the operand port. -/
theorem edge_ignores_operand {s : State} (he : s.enc.st = .emit) (l : InLines) :
    s.edge l = s.edge { l with encValid := false } := by
  have henc : s.enc.edge l = s.enc.edge { l with encValid := false } := by simp [Enc.edge, he]
  rw [State.edge, henc]
  rfl

/-- Settles O10: the instruction by its handshake, the edge by ENC's one step in each state. -/
theorem encAcceptTakesTheOperand : Obligations.EncAcceptTakesTheOperand := by
  unfold Obligations.EncAcceptTakesTheOperand
  refine fun v s => ⟨fun h => exec_enc1_of_idle h v, fun h => exec_enc1_of_emit h v, fun l hr hc hv he => ?_,
    fun l he => edge_ignores_operand he l, rfl, rfl⟩
  have hedge := Enc.edge_accept hr hc hv he
  exact ⟨by rw [State.edge_enc, hedge], by rw [State.edge_out, hedge]; exact List.append_nil _⟩

/-! ### ENC.EMIT -/

/-- ENC.EMIT at an edge. -/
theorem Enc.edge_emit {e : Enc} {l : InLines} (hr : l.rst = false) (hc : l.encClr = false) (ho : l.outReady = true)
    (he : e.st = .emit) : e.edge l = (e.emitStep, some e.outByte) := by
  simp [Enc.edge, hr, hc, ho, he]

/-- The byte ENC presents, in natural numbers. -/
theorem Enc.outByte_eq_nat (e : Enc) :
    e.outByte = BitVec.ofNat 8 (e.rem.toNat % 128 + if e.rem.toNat < 128 then 0 else 128) := by
  rw [← BitVec.toNat_inj, Enc.outByte_toNat, BitVec.toNat_ofNat]
  split <;> omega

/-- The registers after ENC.EMIT, in natural numbers. -/
theorem Enc.emitStep_eq_nat (e : Enc) :
    e.emitStep = ⟨if e.rem.toNat < 128 then .idle else .emit, BitVec.ofNat 64 (e.rem.toNat / 128)⟩ := by
  rw [Enc.emitStep, shiftGroup_eq_ofNat, Enc.more_eq_decide]
  by_cases h : e.rem.toNat < 128
  · simp [h]
  · simp [h, Nat.not_lt.1 h]

theorem Enc.outLast_eq_nat (e : Enc) : e.outLast = decide (e.rem.toNat < 128) := by
  rw [Enc.outLast, Enc.more_eq_decide, ← decide_not]
  exact decide_eq_decide.2 Nat.not_le

/-- ENC stays in EMIT when value bits are left. -/
theorem Enc.emitStep_rem_ne_zero {e : Enc} (h : e.emitStep.st = .emit) : e.emitStep.rem ≠ 0 := by
  simpa [Enc.emitStep, Enc.more] using h

/-- Settles O11: TAKE and the edge are ENC's emit step, whose byte and registers are given in natural numbers; in IDLE the
line waits. -/
theorem encEmitSendsTheNextGroup : Obligations.EncEmitSendsTheNextGroup := by
  unfold Obligations.EncEmitSendsTheNextGroup
  intro s rest l ht hp hs hr hc ho r b e
  have hb : b = s.enc.outByte := s.enc.outByte_eq_nat.symm
  have he : e = s.enc.emitStep := s.enc.emitStep_eq_nat.symm
  rw [hb, he]
  refine ⟨fun hst => ?_, fun hst => step_blocked ht hs (canPerform_eq_false (.inr (.inl ⟨rfl, .inl hst⟩)))⟩
  have hedge := Enc.edge_emit hr hc ho hst
  obtain ⟨hdata, hlast⟩ := State.outLines_of_emit hst
  refine ⟨step_take ht hp hs hst, ?_, ?_, hdata, ?_, s.enc.inv_emitStep, Enc.emitStep_rem_ne_zero⟩
  · rw [State.edge_enc, hedge]
  · rw [State.edge_out, hedge, Option.toList_some]
  · rw [hlast, s.enc.outLast_eq_nat]

end Sys2Proof.Machine
end

section
/-!
DEC and `dec1` (`41_decode.md`): the steps of DEC as instructions and at an edge, what `dec1` answers for which buffers, and
that a `DEC1` with the tokens of a buffer ends as `dec1` of the buffer says.
-/
namespace Sys2Proof.Machine

/-! ### The steps of DEC -/

theorem Dec.byteStep_of_contBit {d : Dec} {b : Byte} (h : contBit b = true) :
    d.byteStep b = { d.absorb (payload b) with st := .run } := by
  rw [Dec.byteStep, if_pos h]

theorem contBit_true_iff (b : Byte) : contBit b = true ↔ 128 ≤ b.toNat := by
  rw [contBit_eq_decide, decide_eq_true_iff]

theorem contBit_false_iff (b : Byte) : contBit b = false ↔ b.toNat < 128 := by
  rw [contBit_eq_decide, decide_eq_false_iff_not, Nat.not_le]

/-- DEC started in a state without a cause, whatever the registers held. -/
theorem Dec.start_of_cause_eq_none {d : Dec} (h : d.cause = none) : d.start = ⟨.run, 0, 0, false, none⟩ := by
  rw [Dec.start, h]

/-- Outside RUN no token is accepted (`41_decode.md` R137). -/
theorem exec_token_of_not_run {i : Instr} {k : Token} (hi : i.token? = some k) {s : State} (hs : s.dec.st ≠ .run) :
    exec i s = .next s := by
  have hr : s.dec.inReady = false := s.dec.inReady_false_iff.2 hs
  cases i <;> cases hi <;> simp [exec, execByteCont, execByteTerm, execEob, presentToken, hr]

/-- DEC.START at an edge. -/
theorem Dec.edge_start {d : Dec} {l : InLines} (hr : l.rst = false) (hc : l.decClr = false) (hv : l.decStart = true)
    (hs : d.st = .idle ∨ d.st = .done) : d.edge l = d.start := by
  have hready : d.ready = true := d.ready_iff.2 hs
  simp [Dec.edge, hr, hc, hv, hready]

/-- Settles O16: DEC1 and the edge are DEC.START where a start is accepted. -/
theorem decStartBeginsADecode : Obligations.DecStartBeginsADecode := by
  unfold Obligations.DecStartBeginsADecode
  refine fun s => ⟨fun hs => ?_, fun hs => ?_, fun l hr hc hv hs => ?_, fun hi hs => ?_⟩
  · show s.handshake s.dec.ready (·.decStart) = _
    rw [s.dec.ready_iff.2 hs]
    rfl
  · show s.handshake s.dec.ready (·.decStart) = _
    rw [s.dec.ready_false_iff.2 hs, handshake_false]
  · have hedge := Dec.edge_start hr hc hv hs
    exact ⟨hedge, by simp [State.outLines, hedge, Dec.start], by simp [State.outLines, hedge, Dec.start]⟩
  · obtain ⟨-, hd, -⟩ := hi
    exact hd.cause_eq_none (by rcases hs with hs | hs <;> simp [hs])

/-- `Dec.afterByte` field by field in the terms of DEC.BYTE. -/
theorem Dec.afterByte_eq (d : Dec) (b : Byte) : d.afterByte b =
    { st := if 128 ≤ b.toNat then .run else if nextOvf d (payload b) then .fault else .done
      acc := nextAcc d (payload b)
      i := nextIndex d.i
      ovf := nextOvf d (payload b)
      cause := if b.toNat < 128 ∧ nextOvf d (payload b) = true then some .range else d.cause } := by
  have hacc : nextAcc d (payload b) = BitVec.ofNat 64 (nextAcc d (payload b)).toNat := by
    rw [BitVec.ofNat_toNat, BitVec.setWidth_eq]
  rw [hacc, nextAcc_toNat, nextOvf_eq, payload_toNat]
  rfl

/-- DEC.BYTE in natural numbers (`41_decode.md` R134). -/
theorem Dec.byteStep_eq_afterByte (d : Dec) (b : Byte) : d.byteStep b = d.afterByte b := by
  rw [Dec.afterByte_eq, Dec.byteStep, contBit_eq_decide]
  by_cases hc : 128 ≤ b.toNat
  · simp [Dec.absorb, hc, Nat.not_lt.2 hc]
  · cases ho : nextOvf d (payload b) <;> simp [Dec.absorb, Dec.raise, hc, Nat.not_le.1 hc, ho]

/-- A byte's data as a number, from its two fields. -/
theorem byteOf_eq_ofNat (c : Bool) (p : Payload) : byteOf c p = BitVec.ofNat 8 (c.toNat * 128 + p.toNat) := by
  rw [← byteOf_toNat, BitVec.ofNat_toNat, BitVec.setWidth_eq]

/-- In RUN a byte is accepted, as the instruction of either byte class. -/
theorem exec_byte_of_run {i : Instr} {b : Byte} (hi : i.token? = some (.byte b)) {s : State} (hs : s.dec.st = .run) :
    exec i s = .next { s with dec := s.dec.afterByte b } := by
  rw [exec_token hi s hs, ← Dec.byteStep_eq_afterByte]
  rfl

/-- Settles O17: DEC.BYTE is `Dec.afterByte`, for the instructions and for the edge; and below index 9 its or is a sum
(`nextAcc_eq_add`). -/
theorem decByteFollowsItsPseudocode : Obligations.DecByteFollowsItsPseudocode := by
  unfold Obligations.DecByteFollowsItsPseudocode
  refine fun s => ⟨fun hs p => ⟨?_, ?_⟩,
    fun hs p => ⟨exec_token_of_not_run rfl hs, exec_token_of_not_run rfl hs⟩,
    fun l hr hc hv he hs => ?_, fun hi hs ho h8 b => ?_⟩
  · have hbyte : BitVec.ofNat 8 (128 + p.toNat) = byteOf true p := (byteOf_eq_ofNat true p).symm
    rw [hbyte]
    exact exec_byte_of_run rfl hs
  · have hbyte : BitVec.ofNat 8 p.toNat = byteOf false p := by
      rw [byteOf_eq_ofNat, Bool.toNat_false, Nat.zero_mul, Nat.zero_add]
    rw [hbyte]
    exact exec_byte_of_run rfl hs
  · rw [← Dec.byteStep_eq_afterByte]
    exact Dec.edge_of_takesOn (Dec.takesOn_eq_some.2 ⟨hr, hc, hv, hs, by rw [he]⟩)
  · obtain ⟨-, -, hacc, -⟩ := hi
    have h9 : s.dec.i.toNat ≤ 9 := by omega
    rw [Dec.afterByte_eq, ← payload_toNat]
    exact nextAcc_eq_add h9 (hacc hs ho h9) (by omega)

/-- Settles O18: the instruction, the script line and the edge are DEC.EOB. -/
theorem decEobEndsInTruncated : Obligations.DecEobEndsInTruncated := by
  unfold Obligations.DecEobEndsInTruncated
  refine fun s x => ⟨fun hs => ⟨exec_token (t := .eob) rfl s hs, rfl⟩, exec_token_of_not_run (k := .eob) rfl,
    fun hs ht hp rest hl => ⟨_, step_token (t := .eob) ht hp hl hs⟩, fun l hr hc hv he hs => ?_⟩
  have hedge : s.dec.edge l = s.dec.eobStep :=
    Dec.edge_of_takesOn (k := .eob) (Dec.takesOn_eq_some.2 ⟨hr, hc, hv, hs, by rw [he]; rfl⟩)
  exact ⟨hedge, by simp [State.outLines, hedge, Dec.eobStep, Dec.raise]⟩

/-! ### DEC up to the terminating byte -/

/-- Up to the terminating byte DEC goes on asking for bytes (`41_decode.md` R134). -/
theorem Dec.afterBytes_take_run {d : Dec} (hr : d.st = .run) {b : List Byte} {m : Nat}
    (hm : ∀ k, termIndex b = some k → m ≤ k) : (d.afterBytes (b.take m)).st = .run := by
  induction b generalizing d m with
  | nil => rwa [List.take_nil]
  | cons x b ih =>
    cases m with
    | zero => exact hr
    | succ m =>
      rw [termIndex_cons] at hm
      have hc : contBit x = true := by
        by_contra hc
        rw [if_neg hc] at hm
        exact absurd (hm 0 rfl) (Nat.not_succ_le_zero m)
      rw [if_pos hc] at hm
      rw [List.take_succ_cons, Dec.afterBytes_cons hr]
      refine ih (by rw [Dec.byteStep_of_contBit hc]) fun k hk => ?_
      exact Nat.le_of_succ_le_succ (hm (k + 1) (by rw [hk, Option.map_some]))

/-- DEC, just started, after the bytes of a buffer that `dec1` answers Range for. -/
theorem Dec.afterBytes_of_dec1_range {b : List Byte} (h : dec1 b = .fault .range) :
    (Dec.afterBytes ⟨.run, 0, 0, false, none⟩ b).st = .fault ∧
    (Dec.afterBytes ⟨.run, 0, 0, false, none⟩ b).cause = some .range := by
  rcases Dec.decodes_afterBytes b with ⟨-, -, -, hall, -⟩ | ⟨-, hok⟩ | ⟨c, hst, hcause, hf⟩
  · rw [List.take_length, ← termIndex_none_iff, ← dec1_truncated_iff, h] at hall
    cases hall
  · rw [h] at hok
    cases hok
  · obtain rfl : FaultCode.range = c := DecResult.fault.inj (h.symm.trans hf)
    exact ⟨hst, hcause⟩

/-! ### The tokens of a buffer from a script -/

/-- The line `TOK t` in RUN, in a host that performs its script line by line. -/
theorem step_token_line {s : State} {t : Token} {rest : List Line} (hq : s.Sequential)
    (hs : s.script = .word t.word :: rest) (hr : s.dec.st = .run) :
    step s = .next { s with script := rest, dec := s.dec.tokenStep t } := by
  have ⟨_, _, hp⟩ := hq
  rw [step_token hq.turn hp hs hr, hq.tail_turns]

/-- The line `DEC1` in such a host, where a start is accepted and no clear is owed. -/
theorem step_start_line {s : State} {rest : List Line} (hq : s.Sequential) (hc : s.clrDue = false)
    (hcause : s.dec.cause = none) (hst : s.dec.st = .idle ∨ s.dec.st = .done)
    (hs : s.script = .word ⟨.decStart, 0⟩ :: rest) :
    step s = .next { s with script := rest, dec := ⟨.run, 0, 0, false, none⟩ } := by
  have ⟨_, _, hp⟩ := hq
  rw [step_start hq.turn hp hc hs hst, hq.tail_turns, Dec.start_of_cause_eq_none hcause]

/-- As many bytes of the buffer as DEC asks for are accepted one by one, and the tokens of the other bytes are left. -/
theorem runFor_bytes {s : State} {b : List Byte} {more : List Line} {n : Nat} (hq : s.Sequential) (hn : n ≤ b.length)
    (hrun : ∀ m, m < n → (s.dec.afterBytes (b.take m)).st = .run)
    (hs : s.script = tokenLines (bufferTokens b) ++ more) :
    runFor n s = .next { s with
      dec := s.dec.afterBytes (b.take n), script := tokenLines (bufferTokens (b.drop n)) ++ more } := by
  induction n generalizing s b with
  | zero =>
    rw [List.take_zero, List.drop_zero, ← hs]
    rfl
  | succ n ih =>
    cases b with
    | nil => cases hn
    | cons x b =>
      have hr : s.dec.st = .run := hrun 0 (Nat.succ_pos n)
      have hstep := step_token_line (t := .byte x) (rest := tokenLines (bufferTokens b) ++ more) hq hs hr
      have hrun' : ∀ m, m < n → ((s.dec.byteStep x).afterBytes (b.take m)).st = .run := by
        intro m hm
        rw [← Dec.afterBytes_cons hr, ← List.take_succ_cons]
        exact hrun (m + 1) (Nat.succ_lt_succ hm)
      rw [List.take_succ_cons, List.drop_succ_cons, Dec.afterBytes_cons hr, Nat.add_comm, runFor_step hstep]
      exact ih (s := { s with dec := s.dec.byteStep x, script := tokenLines (bufferTokens b) ++ more }) hq
        (Nat.le_of_succ_le_succ hn) hrun' rfl

/-- `DEC1` and bytes of a buffer up to its terminating byte at most. -/
theorem runFor_dec1_bytes {s : State} {b : List Byte} {more : List Line} {n : Nat} (hq : s.Sequential)
    (hc : s.clrDue = false) (hcause : s.dec.cause = none) (hst : s.dec.st = .idle ∨ s.dec.st = .done)
    (hs : s.script = .word ⟨.decStart, 0⟩ :: (tokenLines (bufferTokens b) ++ more)) (hn : n ≤ b.length)
    (hterm : ∀ k, termIndex b = some k → n ≤ k + 1) :
    runFor (1 + n) s = .next { s with
      dec := Dec.afterBytes ⟨.run, 0, 0, false, none⟩ (b.take n)
      script := tokenLines (bufferTokens (b.drop n)) ++ more } := by
  rw [runFor_step (step_start_line hq hc hcause hst hs)]
  exact runFor_bytes hq hn (fun m hm => Dec.afterBytes_take_run rfl fun k hk => by have := hterm k hk; omega) rfl

/-! ### What `dec1` answers -/

/-- The terminated run at the head of a buffer. -/
theorem termIndex_take {b : List Byte} {k : Nat} (h : termIndex b = some k) : termIndex (b.take (k + 1)) = some k := by
  obtain ⟨x, hx, hc, hall⟩ := (termIndex_some_iff b k).1 h
  refine (termIndex_some_iff _ k).2 ⟨x, by rwa [List.getElem?_take_of_lt (Nat.lt_succ_self k)], hc, fun j y hj hy => ?_⟩
  exact hall j y hj (by rwa [List.getElem?_take_of_lt (by omega)] at hy)

theorem isRun_take {b : List Byte} {k : Nat} (h : termIndex b = some k) : isRun (b.take (k + 1)) = true := by
  rw [isRun_iff, termIndex_take h, List.length_take_of_le (termIndex_lt h), Nat.succ_sub_one]

/-- `dec1` needs the terminated run only (`41_decode.md` R131). -/
theorem dec1_take {b : List Byte} {k : Nat} (h : termIndex b = some k) : dec1 (b.take (k + 1)) = dec1 b := by
  rw [← dec1_append (e := b.drop (k + 1)) (by simp [termIndex_take h]), List.take_append_drop]

/-- Where the terminating byte of an `OK` buffer is. -/
theorem termIndex_of_dec1_ok {b : List Byte} {v : Value} {n : Nat} (h : dec1 b = .ok v n) :
    ∃ k, n = k + 1 ∧ termIndex b = some k := by
  obtain ⟨k, hk, -, hn, -⟩ := (dec1_ok_iff b v n).1 h
  exact ⟨k, hn, hk⟩

/-- A run that passes the Range test has at most 10 bytes and stands for a Value. -/
theorem runValue_lt_of_outOfRange_eq_false {b : List Byte} {k : Nat} (hk : termIndex b = some k)
    (hr : outOfRange b k = false) : k < 10 ∧ runValue (b.take (k + 1)) < 2 ^ 64 := by
  obtain ⟨x, hx, hc, -⟩ := (termIndex_some_iff b k).1 hk
  obtain ⟨hlt, rfl⟩ := List.getElem?_eq_some_iff.1 hx
  rw [Bool.eq_false_iff, ne_eq, outOfRange_iff b k _ hx hc] at hr
  have hinit := runValue_lt (b.take k)
  rw [List.length_take_of_le hlt.le] at hinit
  refine ⟨by omega, ?_⟩
  by_cases h9 : k = 9
  · subst h9
    rw [runValue_take_succ hlt, payload_toNat]
    omega
  · calc runValue (b.take (k + 1)) < 2 ^ (7 * (b.take (k + 1)).length) := runValue_lt _
      _ ≤ 2 ^ 64 := Nat.pow_le_pow_right (by omega) (by rw [List.length_take_of_le hlt]; omega)

/-- The value of an `OK` result is the sum of its run as a natural number: nothing was cut off. -/
theorem dec1_ok_toNat {b : List Byte} {v : Value} {n : Nat} (h : dec1 b = .ok v n) :
    n ≤ 10 ∧ v.toNat = runValue (b.take n) := by
  obtain ⟨k, hk, hr, rfl, rfl⟩ := (dec1_ok_iff b v n).1 h
  obtain ⟨h10, hlt⟩ := runValue_lt_of_outOfRange_eq_false hk hr
  exact ⟨h10, by rw [BitVec.toNat_ofNat, Nat.mod_eq_of_lt hlt]⟩

/-- The terminating byte as the first byte below 128. -/
theorem termIndex_some_iff_nat (b : List Byte) (k : Nat) : termIndex b = some k ↔
    ∃ x, b[k]? = some x ∧ x.toNat < 128 ∧ ∀ j y, j < k → b[j]? = some y → 128 ≤ y.toNat := by
  simp only [termIndex_some_iff, contBit_false_iff, contBit_true_iff]

/-- The sum of the first bytes of a buffer, written out. -/
theorem runValue_take_eq_sum {b : List Byte} {n : Nat} (h : n ≤ b.length) : runValue (b.take n) =
    ((List.range n).map fun j => ((b.getD j 0).toNat % 128) * 2 ^ (7 * j)).sum := by
  induction n with
  | zero => rfl
  | succ n ih =>
    rw [runValue_take_succ h, ih (Nat.le_of_succ_le h), List.range_succ, List.map_append, List.sum_append,
      List.map_singleton, List.sum_singleton, List.getD_eq_getElem b 0 h, payload_toNat]

/-! ### The two levels -/

/-- In RUN no instruction but a token and DEC.CLR changes DEC (`41_decode.md` R147). -/
theorem exec_keeps_dec_of_run {i : Instr} {s t : State} (hr : s.dec.st = .run) (hi : i.token? = none)
    (hclr : i ≠ .decClr) (h : exec i s = .next t) : t.dec = s.dec := by
  rcases exec_cases h with rfl | ⟨v, -, -, rfl⟩ | ⟨-, hst, -⟩ | ⟨k, hk, -⟩ | ⟨vs, -, -, rfl⟩ | ⟨b, -, -, rfl⟩ |
    ⟨n, b, -, -, rfl⟩ | ⟨-, rfl⟩ | ⟨hd, -⟩
  case inr.inr.inl => simp [hr] at hst
  case inr.inr.inr.inl =>
    rw [hi] at hk
    cases hk
  case inr.inr.inr.inr.inr.inr.inr.inr => exact absurd hd hclr
  all_goals rfl

/-- Settles O19: `DEC1` and the bytes up to the terminating one (`runFor_dec1_bytes`) leave DEC with the value or with Range;
where none terminates, the `EOB` comes after all of them. -/
theorem decodeOneAgreesOnBothLevels : Obligations.DecodeOneAgreesOnBothLevels := by
  unfold Obligations.DecodeOneAgreesOnBothLevels
  refine ⟨fun b s more hq hc hcause hst hs => ⟨fun v n hok => ?_, fun hrange => ?_, fun htr => ?_⟩,
    fun s t i hr hi hclr h => exec_keeps_dec_of_run hr hi hclr h⟩
  · obtain ⟨-, hn⟩ := dec1_ok_bounds hok
    obtain ⟨k, rfl, hk⟩ := termIndex_of_dec1_ok hok
    refine ⟨hn, ?_⟩
    have hrun : dec1 (b.take (k + 1)) = .ok v (b.take (k + 1)).length := by
      rw [dec1_take hk, hok, List.length_take_of_le hn]
    rw [runFor_dec1_bytes hq hc hcause hst hs hn (by simp [hk]), Dec.afterBytes_of_dec1_ok hrun,
      List.length_take_of_le hn]
  · obtain ⟨k, hk, -⟩ := (dec1_range_iff b).1 hrange
    have hlt := termIndex_lt hk
    obtain ⟨hfault, hcode⟩ := Dec.afterBytes_of_dec1_range ((dec1_take hk).trans hrange)
    exact ⟨k, _, hk, hlt, runFor_dec1_bytes hq hc hcause hst hs hlt (by simp [hk]), hfault, hcode, rfl⟩
  · have hnone := (dec1_truncated_iff b).1 htr
    have hbytes := runFor_dec1_bytes hq hc hcause hst hs le_rfl (by simp [hnone])
    have hr : (Dec.afterBytes ⟨.run, 0, 0, false, none⟩ (b.take b.length)).st = .run :=
      Dec.afterBytes_take_run rfl (by simp [hnone])
    rw [List.drop_length] at hbytes
    exact ⟨_, (runFor_add hbytes 1).trans (runFor_one (step_token_line (t := .eob) hq rfl hr)), rfl, rfl, rfl⟩

/-! ### `dec1` by its result -/

/-- Settles O20: Truncated means no terminating byte (`dec1_truncated_iff`). -/
theorem truncatedExactlyWhenNothingTerminates : Obligations.TruncatedExactlyWhenNothingTerminates := by
  unfold Obligations.TruncatedExactlyWhenNothingTerminates
  refine ⟨fun b => ?_, rfl, rfl⟩
  simp only [dec1_truncated_iff, termIndex_none_iff, contBit_true_iff]

/-- Settles O21: the Range condition at the terminating byte (`outOfRange_iff`). -/
theorem rangeExactlyWhenTheRunIsTooLong : Obligations.RangeExactlyWhenTheRunIsTooLong := by
  unfold Obligations.RangeExactlyWhenTheRunIsTooLong
  refine ⟨fun b => ?_, fun d x hx => ?_⟩
  · rw [dec1_range_iff]
    constructor
    · rintro ⟨k, hk, hr⟩
      obtain ⟨x, hx, hlt, hall⟩ := (termIndex_some_iff_nat b k).1 hk
      exact ⟨k, x, hx, hlt, hall, (outOfRange_iff b k x hx ((contBit_false_iff x).2 hlt)).1 hr⟩
    · rintro ⟨k, x, hx, hlt, hall, hr⟩
      exact ⟨k, (termIndex_some_iff_nat b k).2 ⟨x, hx, hlt, hall⟩,
        (outOfRange_iff b k x hx ((contBit_false_iff x).2 hlt)).2 hr⟩
  · rw [Dec.byteStep_of_contBit ((contBit_true_iff x).2 hx)]
    exact ⟨rfl, rfl⟩

/-- Settles O22: the value is the sum of the run (`dec1_ok_toNat`), whose bytes are as `termIndex` says. -/
theorem okValueIsTheMathematicalSum : Obligations.OkValueIsTheMathematicalSum := by
  unfold Obligations.OkValueIsTheMathematicalSum
  intro b v n h
  obtain ⟨hpos, hle⟩ := dec1_ok_bounds h
  obtain ⟨h10, hv⟩ := dec1_ok_toNat h
  obtain ⟨k, rfl, hk⟩ := termIndex_of_dec1_ok h
  obtain ⟨x, hx, hlt, hall⟩ := (termIndex_some_iff_nat b k).1 hk
  refine ⟨hpos, h10, hle, by rw [hv, runValue_take_eq_sum hle], ?_, fun j hj => ?_⟩
  · rwa [Nat.add_sub_cancel, List.getD_eq_getElem?_getD, hx]
  · have hjb : j < b.length := by omega
    rw [List.getD_eq_getElem b 0 hjb]
    exact hall j _ (by omega) (List.getElem?_eq_getElem hjb)

/-- Settles O25: the value of the run is a Value, and the only canonical run with that value is its form. -/
theorem nonCanonicalRunsDecode : Obligations.NonCanonicalRunsDecode := by
  unfold Obligations.NonCanonicalRunsDecode
  refine ⟨fun run hrun hne => ?_, rfl, rfl, rfl⟩
  rw [isRun_iff] at hrun
  have hlen : run.length - 1 + 1 = run.length := by have := termIndex_lt hrun; omega
  have hr : outOfRange run (run.length - 1) = false :=
    Bool.eq_false_iff.2 fun hr => hne ((dec1_range_iff run).2 ⟨_, hrun, hr⟩)
  have hok := (dec1_ok_iff run _ _).2 ⟨_, hrun, hr, hlen.symm, rfl⟩
  obtain ⟨-, hv⟩ := dec1_ok_toNat hok
  rw [List.take_length] at hv
  refine ⟨_, hok, hv, fun h => (canonical_iff_exists run).2 ⟨_, h⟩, fun hc => (eq_enc1_of_canonical hc hv.symm).symm⟩

/-- Settles O23: `dec1_append` and `dec1_take`; a terminating byte leads out of RUN, where no token is accepted. -/
theorem decodeOneLeavesTheRest : Obligations.DecodeOneLeavesTheRest := by
  unfold Obligations.DecodeOneLeavesTheRest
  refine ⟨fun s e hs => dec1_append hs e, fun b v n h => ?_, fun d b hb => ?_, fun s hs => ?_⟩
  · obtain ⟨-, hle⟩ := dec1_ok_bounds h
    obtain ⟨k, rfl, hk⟩ := termIndex_of_dec1_ok h
    exact ⟨(List.take_append_drop _ b).symm, isRun_take hk, List.length_take_of_le hle, (dec1_take hk).trans h⟩
  · have hc : contBit b = false := (contBit_false_iff b).2 hb
    rw [Dec.inReady_false_iff]
    rcases d.byteStep_cases b with ⟨hc', -⟩ | ⟨-, -, he⟩ | ⟨-, -, he⟩
    · simp [hc] at hc'
    · simp [he]
    · simp [he]
  · have hr : s.dec.st ≠ .run := by rcases hs with hs | hs <;> simp [hs]
    refine ⟨s.dec.inReady_false_iff.2 hr, fun i t hi h => ?_⟩
    obtain ⟨k, hk⟩ := Option.isSome_iff_exists.1 hi
    rw [exec_token_of_not_run hk hr] at h
    exact (Host.Outcome.next.inj h).symm

end Sys2Proof.Machine
end

section
/-!
The host's batch procedures from their line in the script to their result (`42_batch.md` R160, R161, R163, R164, R166,
R167), carried out by a host that performs its script line by line, and the clear owed after a fault.
-/
namespace Sys2Proof.Machine

/-! ### The start of a procedure -/

/-- A composite's handshake where the host carries out no procedure on its unit (`60_exceptions.md` R207). -/
theorem handshake_of_none {α : Type} {p : Option α} (hp : p = none) (s : State) (f : State → State) :
    s.handshake p.isNone f = .next (f s) := by
  rw [hp]
  rfl

/-- The same where the host carries out one. -/
theorem handshake_of_ne_none {α : Type} {p : Option α} (hp : p ≠ none) (s : State) (f : State → State) :
    s.handshake p.isNone f = .next s := by
  obtain ⟨j, rfl⟩ := Option.ne_none_iff_exists'.1 hp
  rfl

theorem exec_encm (l : List Value) (s : State) :
    exec (.encm l) s = s.handshake s.encProc.isNone (·.encBegin (EncJob.first l)) := rfl

theorem exec_decm (b : List Byte) (s : State) :
    exec (.decm b) s = s.handshake s.decProc.isNone (·.decBegin (DecJob.first none b)) := rfl

theorem exec_decn (n : Nat) (b : List Byte) (s : State) :
    exec (.decn n b) s = s.handshake s.decProc.isNone (·.decBegin (DecJob.first (some n) b)) := rfl

/-- Settles O27: a composite is a handshake that completes where no procedure is on its unit. -/
theorem batchInstructionsStartTheirProcedures : Obligations.BatchInstructionsStartTheirProcedures := by
  unfold Obligations.BatchInstructionsStartTheirProcedures
  intro s l b n
  rw [exec_encm, exec_decm, exec_decn]
  exact ⟨fun hp => handshake_of_none hp s _, fun hp => ⟨handshake_of_none hp s _, handshake_of_none hp s _⟩,
    fun hp => handshake_of_ne_none hp s _, fun hp => ⟨handshake_of_ne_none hp s _, handshake_of_ne_none hp s _⟩⟩

/-! ### The procedure of ENCM -/

theorem with_tail_turns {s : State} (ht : s.turns = []) : { s with turns := s.turns.tail } = s := by
  rw [ht, List.tail_nil, ← ht]

/-- With no turn given a procedure of ENCM that can go on does so. -/
theorem step_encJob {s : State} {j : EncJob} (ht : s.turns = []) (hp : s.encProc = some j)
    (hm : j.canMove s.enc = true) : step s = .next (stepEncJob j s) := by
  rw [step_enc (turn_enc ht hp hm) hp, with_tail_turns ht]

/-- The procedure takes a byte of its Value in progress, of which `v` remains. -/
theorem step_encJob_take {s : State} {v : Value} {vs : List Value} {taken : List Byte} (ht : s.turns = [])
    (he : s.enc = ⟨.emit, v⟩) (hp : s.encProc = some ⟨vs, taken, true⟩) : step s = .next { s with
      enc := (Enc.mk .emit v).emitStep
      out := s.out ++ [(Enc.mk .emit v).outByte]
      encProc := some ⟨vs, taken ++ [(Enc.mk .emit v).outByte], (Enc.mk .emit v).emitStep.st == .emit⟩ } := by
  have hm : EncJob.canMove ⟨vs, taken, true⟩ s.enc = true := by simp [EncJob.canMove, he]
  rw [step_encJob ht hp hm, stepEncJob, if_pos hm]
  cases h : (Enc.mk .emit v).more <;> simp [State.encEmit, State.put, he, Enc.emitStep, Enc.outLast, h]

/-- The bytes of the Value in progress, of which `v` remains, go to `OUT` and to the procedure's buffer. -/
theorem runFor_encJob_value (v : Value) {s : State} {vs : List Value} {taken : List Byte} (ht : s.turns = [])
    (he : s.enc = ⟨.emit, v⟩) (hp : s.encProc = some ⟨vs, taken, true⟩) :
    runFor (enc1 v).length s = .next { s with
      enc := ⟨.idle, 0⟩, out := s.out ++ enc1 v, encProc := some ⟨vs, taken ++ enc1 v, false⟩ } := by
  induction v using value_induction generalizing s taken with
  | last v h =>
    have hstep := step_encJob_take ht he hp
    obtain ⟨hbyte, hnext⟩ := Enc.emit_last h
    rw [hbyte, hnext] at hstep
    rw [enc1_last v h]
    exact runFor_one hstep
  | more v h ih =>
    have hstep := step_encJob_take ht he hp
    obtain ⟨hbyte, hnext⟩ := Enc.emit_more h
    rw [hbyte, hnext] at hstep
    have hrest := ih (s := { s with
      enc := ⟨.emit, shiftGroup v⟩
      out := s.out ++ [byteOf true (lowGroup v)]
      encProc := some ⟨vs, taken ++ [byteOf true (lowGroup v)], true⟩ }) ht rfl rfl
    rw [enc1_more v h, List.length_cons, Nat.add_comm, runFor_step hstep]
    simpa using hrest

/-- The procedure presents its next Value. -/
theorem step_encJob_operand {s : State} {v : Value} {vs : List Value} {taken : List Byte} (ht : s.turns = [])
    (he : s.enc = ⟨.idle, 0⟩) (hp : s.encProc = some ⟨v :: vs, taken, false⟩) :
    step s = .next { s with enc := ⟨.emit, v⟩, encProc := some ⟨vs, taken, true⟩ } := by
  have hm : EncJob.canMove ⟨v :: vs, taken, false⟩ s.enc = true := by simp [EncJob.canMove, he]
  rw [step_encJob ht hp hm, stepEncJob, if_pos hm]
  rfl

/-- The procedure of ENCM with the Values `l` left ends with their forms after the bytes taken. -/
theorem runFor_encJob {s : State} {l : List Value} {taken : List Byte} (ht : s.turns = []) (he : s.enc = ⟨.idle, 0⟩)
    (hp : s.encProc = some ⟨l, taken, false⟩) : ∃ k, runFor k s = .next { s with
      out := s.out ++ encMany l, encProc := none, encResult := some (taken ++ encMany l) } := by
  induction l generalizing s taken with
  | nil =>
    refine ⟨1, runFor_one ?_⟩
    rw [step_encJob ht hp rfl]
    simp [stepEncJob, EncJob.canMove, State.encFinish, encMany]
  | cons v vs ih =>
    have hfirst := step_encJob_operand ht he hp
    have hbytes := runFor_encJob_value v
      (s := { s with enc := ⟨.emit, v⟩, encProc := some ⟨vs, taken, true⟩ }) ht rfl rfl
    obtain ⟨k, hrest⟩ := ih (s := { s with
      enc := ⟨.idle, 0⟩, out := s.out ++ enc1 v, encProc := some ⟨vs, taken ++ enc1 v, false⟩ }) ht rfl rfl
    refine ⟨1 + ((enc1 v).length + k), ?_⟩
    rw [runFor_step hfirst, runFor_add hbytes, hrest]
    simp [encMany, he]

/-- Settles O28: the line starts the procedure, which sends the form of one Value after the other. -/
theorem encmProcedureGivesEncMany : Obligations.EncmProcedureGivesEncMany := by
  unfold Obligations.EncmProcedureGivesEncMany
  intro l s rest hq he hs
  have ⟨ht, hp, _⟩ := hq
  have hstep : step s = .next { s with script := rest, encProc := some (EncJob.first l), encResult := none } := by
    rw [step_instr_of_completes hq.turn hs rfl (by simp [State.held, hp]) rfl (by simp [State.completes, hp]),
      exec_encm, handshake_of_none hp, hq.tail_turns]
    rfl
  obtain ⟨k, hrun⟩ := runFor_encJob (s := { s with
    script := rest, encProc := some (EncJob.first l), encResult := none }) ht he rfl
  refine ⟨1 + k, ?_⟩
  rw [runFor_step hstep, hrun, ← hp]
  rfl

/-! ### The procedures of DECM and DECN -/

/-- A procedure of DECM or DECN in progress that nothing has disturbed: its invariant, DEC holds what its own tokens
left, and between two `DEC1` DEC accepts the next. -/
structure DecJob.Going (j : DecJob) (d : Dec) : Prop where
  inv : j.Inv d
  tracks : j.Tracks d
  accepts : j.busy = false → (d.st = .idle ∨ d.st = .done) ∧ d.cause = none

/-- A bound on the steps to go: a start, the tokens and a reading for each `DEC1`, which consumes a byte or faults. -/
def DecJob.toGo (j : DecJob) : Nat :=
  2 * (j.buf.length + 1 - j.consumed) + (j.buf.length + 1 - j.accepted) + (!j.busy).toNat

/-- DEC and the owed clear when a batch operation has ended with result `r` (`42_batch.md` R164, `60_exceptions.md`
R201). -/
def Dec.EndedWith (d : Dec) (owed : Bool) (r : Result) : Prop :=
  (∀ c, r = .fault c → d.st = .fault ∧ d.cause = some c ∧ owed = true) ∧
  ((∀ c, r ≠ .fault c) → (d.st = .idle ∨ d.st = .done) ∧ d.cause = none ∧ owed = false)

theorem Dec.endedWith_fault {d : Dec} {c : FaultCode} (hs : d.st = .fault) (hc : d.cause = some c) :
    d.EndedWith true (.fault c) := by
  refine ⟨fun c' h => ?_, fun h => absurd rfl (h c)⟩
  cases h
  exact ⟨hs, hc, rfl⟩

theorem DecJob.Going.first (count : Option Nat) (b : List Byte) {d : Dec} (hs : d.st = .idle ∨ d.st = .done)
    (hc : d.cause = none) : (DecJob.first count b).Going d :=
  ⟨DecJob.inv_first count b d, DecJob.tracks_of_not_busy rfl d, fun _ => ⟨hs, hc⟩⟩

theorem DecJob.Going.decodes {j : DecJob} {d : Dec} (h : j.Going d) (hb : j.busy = true) :
    d.Decodes (j.buf.drop j.consumed) (j.accepted - j.consumed) :=
  h.tracks.decodes h.inv hb

/-- Such a procedure never waits. -/
theorem DecJob.Going.canMove {j : DecJob} {d : Dec} (h : j.Going d) : j.canMove d = true := by
  cases hb : j.busy
  · simp [DecJob.canMove, hb, (h.accepts hb).1]
  · rcases h.decodes hb with ⟨hs, -⟩ | ⟨hs, -⟩ | ⟨c, hs, hc, -⟩
    · simp [DecJob.canMove, hb, hs]
    · simp [DecJob.canMove, Dec.result, hb, hs]
    · simp [DecJob.canMove, Dec.result, hb, hs, hc]

/-- DEC keeps its invariant whatever tokens are presented to it. -/
theorem Dec.Inv.tokens {d : Dec} (h : d.Inv) (ts : List Token) : (ts.foldl (fun d t => d.edge t.lines) d).Inv := by
  induction ts generalizing d with
  | nil => exact h
  | cons t ts ih => exact ih (h.edge t.lines)

/-- During a `DEC1` of the procedure DEC has a cause only in FAULT, since it had none when the `DEC1` began. -/
theorem DecJob.Going.cause_eq_none {j : DecJob} {d : Dec} (h : j.Going d) (hb : j.busy = true) (hs : d.st ≠ .fault) :
    d.cause = none := by
  have hinv : d.Inv := by
    rw [h.tracks hb]
    exact Dec.Inv.tokens (by decide) _
  exact hinv.cause_eq_none hs

/-- A `DEC1` begins between two of the procedure. -/
theorem DecJob.Going.begin {j : DecJob} {d : Dec} (h : j.Going d) (hb : j.busy = false) (hw : j.wantsMore = true) :
    DecJob.Going { j with busy := true } d.start ∧ DecJob.toGo { j with busy := true } < j.toGo := by
  obtain ⟨-, hcause⟩ := h.accepts hb
  obtain ⟨-, -, hidle, -⟩ := h.inv
  have hcur : DecJob.current { j with busy := true } = [] := by simp [DecJob.current, (hidle hb).1]
  refine ⟨⟨h.inv.begin hb hw, fun _ => ?_, nofun⟩, ?_⟩
  · rw [hcur, Dec.start_of_cause_eq_none hcause]
    rfl
  · simp [DecJob.toGo, hb]

/-- A token of the procedure is accepted. -/
theorem DecJob.Going.token {j : DecJob} {d : Dec} (h : j.Going d) (hb : j.busy = true) (hs : d.st = .run) :
    DecJob.Going { j with accepted := j.nextAccepted } (d.tokenStep j.nextToken) ∧
      DecJob.toGo { j with accepted := j.nextAccepted } < j.toGo := by
  have hab := h.inv.accepted_le hb hs
  refine ⟨⟨h.inv.token hb hs, h.tracks.token h.inv hb hs, by simp [hb]⟩, ?_⟩
  simp only [DecJob.toGo, DecJob.nextAccepted_of_le hab]
  omega

/-- DEC in DONE during a `DEC1` of the procedure: the Value of the next bytes, of which there is at least one. -/
theorem DecJob.Going.collect {j : DecJob} {d : Dec} (h : j.Going d) (hb : j.busy = true) (hs : d.st = .done) :
    (j.collect d.acc d.i.toNat).Going d ∧ (j.collect d.acc d.i.toNat).outlook = j.outlook ∧
      (j.collect d.acc d.i.toNat).toGo < j.toGo := by
  have hok := (h.decodes hb).result_ok hs
  obtain ⟨hpos, -⟩ := dec1_ok_bounds hok
  obtain ⟨-, -, -, -, hdone, -⟩ := h.inv
  obtain ⟨hac, hab⟩ := hdone hb hs
  have hcause := h.cause_eq_none hb (by simp [hs])
  refine ⟨⟨h.inv.collect hb hs _ _, DecJob.tracks_of_not_busy rfl _, fun _ => ⟨.inr hs, hcause⟩⟩,
    DecJob.outlook_collect (h.inv.wantsMore hb) hok, ?_⟩
  simp only [DecJob.toGo, DecJob.collect, hb, Bool.not_true, Bool.not_false, Bool.toNat_true, Bool.toNat_false]
  omega

/-- A step of such a procedure brings it nearer to its end, with the same result to come, or ends it with that. -/
theorem stepDecJob_going {j : DecJob} {s : State} (hc : s.clrDue = false) (h : j.Going s.dec) :
    (∃ j' d, stepDecJob j s = { s with dec := d, decProc := some j' } ∧ j'.Going d ∧ j'.outlook = j.outlook ∧
      j'.toGo < j.toGo) ∨
    ∃ owed, stepDecJob j s = { s with decProc := none, decResult := some j.outlook, clrDue := owed } ∧
      s.dec.EndedWith owed j.outlook := by
  rcases stepDecJob_cases j s with ⟨hb, hs, -, he⟩ | ⟨c, hb, hs, hcause, -, he⟩ | ⟨hb, hs, -, he⟩ |
    ⟨hb, hw, -, -, he⟩ | ⟨hb, hw, -, he⟩ | ⟨hm, -⟩
  · -- a Value is collected
    obtain ⟨hgoing, hout, hlt⟩ := h.collect hb hs
    exact .inl ⟨_, s.dec, he, hgoing, hout, hlt⟩
  · -- the `DEC1` faulted
    have hout := DecJob.outlook_of_fault (h.inv.wantsMore hb) ((h.decodes hb).result_fault hs hcause)
    exact .inr ⟨true, by rw [he, hout]; rfl, by rw [hout]; exact Dec.endedWith_fault hs hcause⟩
  · -- a token is accepted
    obtain ⟨hgoing, hlt⟩ := h.token hb hs
    exact .inl ⟨_, _, he, hgoing, rfl, hlt⟩
  · -- a `DEC1` begins
    obtain ⟨hgoing, hlt⟩ := h.begin hb hw
    exact .inl ⟨_, _, he, hgoing, rfl, hlt⟩
  · -- the loop is over
    obtain ⟨hst, hcause⟩ := h.accepts hb
    rw [DecJob.outlook_of_over hw]
    exact .inr ⟨false, by rw [he, ← hc]; rfl, fun c hf => absurd hf (j.outcome_ne_fault c),
      fun _ => ⟨hst, hcause, rfl⟩⟩
  · rw [h.canMove] at hm
    cases hm

/-- A procedure of DECM or DECN that nothing disturbs ends with the result that was to come. -/
theorem runFor_decJob {s : State} {j : DecJob} (ht : s.turns = []) (he : s.encProc = none) (hp : s.decProc = some j)
    (hc : s.clrDue = false) (h : j.Going s.dec) :
    ∃ k d owed, runFor k s = .next { s with
      dec := d, decProc := none, decResult := some j.outlook, clrDue := owed } ∧ d.EndedWith owed j.outlook := by
  induction hn : j.toGo using Nat.strong_induction_on generalizing s j with
  | _ n ih =>
  subst hn
  have hstep := step_dec (turn_dec ht he hp h.canMove) hp
  rw [with_tail_turns ht] at hstep
  rcases stepDecJob_going hc h with ⟨j', d, hs, hgoing, hout, hlt⟩ | ⟨owed, hs, hend⟩ <;> rw [hs] at hstep
  · obtain ⟨k, d', owed, hrun, hend⟩ := ih _ hlt (s := { s with dec := d, decProc := some j' }) ht he rfl hc hgoing rfl
    rw [hout] at hrun hend
    exact ⟨1 + k, d', owed, (runFor_step hstep k).trans hrun, hend⟩
  · exact ⟨1, s.dec, owed, runFor_one hstep, hend⟩

/-- From the step that starts a procedure of DECM or DECN, where DEC accepts a `DEC1` and no clear is owed: the
procedure ends with its result. -/
theorem runFor_decBegin {s : State} {rest : List Line} {count : Option Nat} {b : List Byte} (hq : s.Sequential)
    (hc : s.clrDue = false) (hcause : s.dec.cause = none) (hst : s.dec.st = .idle ∨ s.dec.st = .done)
    (hstep : step s = .next (State.decBegin { s with script := rest } (DecJob.first count b))) :
    ∃ k t, runFor k s = .next t ∧ t.decResult = some (DecJob.first count b).outlook ∧
      t = { s with dec := t.dec, script := rest, decResult := t.decResult, clrDue := t.clrDue } ∧
      t.dec.EndedWith t.clrDue (DecJob.first count b).outlook := by
  obtain ⟨ht, he, hp⟩ := hq
  obtain ⟨k, d, owed, hrun, hend⟩ := runFor_decJob
    (s := State.decBegin { s with script := rest } (DecJob.first count b)) ht he rfl hc (.first count b hst hcause)
  exact ⟨1 + k, _, (runFor_step hstep k).trans hrun, rfl, by rw [← hp]; rfl, hend⟩

/-- Settles O29: the line starts the procedure of DECM, whose result to come is `dec_many` of its buffer. -/
theorem decmProcedureGivesDecMany : Obligations.DecmProcedureGivesDecMany := by
  unfold Obligations.DecmProcedureGivesDecMany
  intro b s rest hq hc hcause hst hs
  have ⟨_, _, hp⟩ := hq
  refine runFor_decBegin (count := none) (b := b) hq hc hcause hst ?_
  rw [step_instr_of_completes hq.turn hs rfl (by simp [State.held, hp]) hc (by simp [State.completes, hp]),
    exec_decm, handshake_of_none hp, hq.tail_turns]

/-- Settles O30: the line starts the procedure of DECN, whose result to come is `dec_n` of its buffer. -/
theorem decnProcedureGivesDecN : Obligations.DecnProcedureGivesDecN := by
  unfold Obligations.DecnProcedureGivesDecN
  intro n b s rest hq hc hcause hst hs
  have ⟨_, _, hp⟩ := hq
  refine runFor_decBegin (count := some n) (b := b) hq hc hcause hst ?_
  rw [step_instr_of_completes hq.turn hs rfl (by simp [State.held, hp]) hc (by simp [State.completes, hp]),
    exec_decn, handshake_of_none hp, hq.tail_turns]

/-! ### The clear owed after a fault -/

/-- A clear that is owed before an instruction is performed at the script's turn, and the line stays. -/
theorem step_owedClear {s : State} {line : Line} {rest : List Line} {i : Instr} (ht : s.turn = .line)
    (hs : s.script = line :: rest) (hf : line.fetch = .instr i) (hh : s.held i = false) (ho : s.owesClear i = true) :
    step s = .next (State.decClear { s with turns := s.turns.tail }) := by
  have hh' : State.held { s with turns := s.turns.tail } i = false := hh
  have ho' : State.owesClear { s with turns := s.turns.tail } i = true := ho
  rw [step_line ht hs, hf]
  simp [performLine, State.canPerform, performInstr, hh', ho', execDecClr]

/-- Settles O46: the clear by `step_owedClear`, after which DEC is IDLE and nothing is owed, so that the next step
performs the line. -/
theorem owedClearComesFirst : Obligations.OwedClearComesFirst := by
  unfold Obligations.OwedClearComesFirst
  intro s line rest i ht hp hc hs hf hi d
  have huses : s.held i = false ∧ s.owesClear i = true ∧ d.held i = false ∧ d.owesClear i = false ∧
      d.completes i = true := by
    rcases hi with rfl | ⟨b, rfl⟩ | ⟨n, b, rfl⟩ <;>
      simp [d, State.held, State.owesClear, State.completes, hp, hc]
  obtain ⟨hh, ho, hh', ho', hcomp⟩ := huses
  have hclear : step s = .next d := by
    rw [step_owedClear ht hs hf hh ho, State.decClear, hp]
    simp [d, Dec.clear, hp]
  refine ⟨hclear, fun hturn => ?_⟩
  obtain ⟨t, hexec⟩ := exec_answers i { d with script := rest, turns := s.turns.tail.tail }
  have hline := step_instr_of_completes hturn hs hf hh' ho' hcomp
  rw [hexec] at hline ⊢
  exact (runFor_step hclear 1).trans (runFor_one hline)

end Sys2Proof.Machine
end

section
/-!
The batch operations as functions (`42_batch.md` R160, R163, R165, R166, R168 to R170): a buffer is cut into its
terminated runs, which `dec_many` and `dec_n` decode one by one, and the forms of a list are such runs.
-/
namespace Sys2Proof.Machine

/-! ### `enc_many` -/

theorem encMany_append (l m : List Value) : encMany (l ++ m) = encMany l ++ encMany m := by
  induction l with
  | nil => rfl
  | cons v l ih => simp [encMany, ih]

theorem encMany_length (l : List Value) : (encMany l).length = (l.map formLength).sum := by
  induction l with
  | nil => rfl
  | cons v l ih => simp [encMany, enc1_length, ih]

theorem encMany_length_bounds (l : List Value) :
    l.length ≤ (encMany l).length ∧ (encMany l).length ≤ 10 * l.length := by
  induction l with
  | nil => exact ⟨le_rfl, le_rfl⟩
  | cons v l ih =>
    obtain ⟨hpos, hle⟩ := enc1_length_bounds v
    rw [encMany, List.length_append, List.length_cons]
    omega

/-- Settles O34: form after form, each of 1 to 10 bytes. -/
theorem encManyConcatenates : Obligations.EncManyConcatenates := by
  unfold Obligations.EncManyConcatenates
  exact ⟨encMany_append, fun v => List.append_nil _, rfl, fun l => ⟨encMany_length l, encMany_length_bounds l⟩⟩

/-! ### A run at the head of a buffer -/

section
variable {run : List Byte} {v : Value} (h : dec1 run = .ok v run.length)
include h

theorem isRun_of_dec1_ok : isRun run = true := by
  obtain ⟨k, hlen, hk⟩ := termIndex_of_dec1_ok h
  rw [isRun_iff, hk, hlen, Nat.add_sub_cancel]

theorem dec1_run_append (rest : List Byte) : dec1 (run ++ rest) = .ok v run.length := by
  obtain ⟨k, -, hk⟩ := termIndex_of_dec1_ok h
  rw [dec1_append (by simp [hk]), h]

/-- `dec_many` gives the Value of a run before those of the rest. -/
theorem decMany_run_append_eq_decm_iff {rest : List Byte} {l : List Value} :
    decMany (run ++ rest) = .decm l ↔ ∃ m, l = v :: m ∧ decMany rest = .decm m := by
  rw [decMany_ok (dec1_run_append h rest), List.drop_left]
  cases decMany rest <;> simp [eq_comm]

theorem decMany_run_append_eq_fault_iff {rest : List Byte} {c : FaultCode} :
    decMany (run ++ rest) = .fault c ↔ decMany rest = .fault c := by
  rw [decMany_ok (dec1_run_append h rest), List.drop_left]
  cases decMany rest <;> simp

/-- `dec_n` gives the Value of a run before those of the rest. -/
theorem decN_run_append_eq_decn_iff {rest r : List Byte} {l : List Value} {n : Nat} :
    decN (run ++ rest) (n + 1) = .decn l r ↔ ∃ m, l = v :: m ∧ decN rest n = .decn m r := by
  rw [decN_ok n (dec1_run_append h rest), List.drop_left]
  cases decN rest n <;> simp [eq_comm]

theorem decN_run_append_eq_fault_iff {rest : List Byte} {n : Nat} {c : FaultCode} :
    decN (run ++ rest) (n + 1) = .fault c ↔ decN rest n = .fault c := by
  rw [decN_ok n (dec1_run_append h rest), List.drop_left]
  cases decN rest n <;> simp

end

/-- `dec1` on a buffer: it faults, or the buffer is a run that it decodes and a rest. -/
theorem dec1_run_cases (b : List Byte) : (∃ c, dec1 b = .fault c) ∨
    ∃ run rest v, b = run ++ rest ∧ dec1 run = .ok v run.length := by
  cases h : dec1 b with
  | fault c => exact .inl ⟨c, rfl⟩
  | ok v n =>
    obtain ⟨-, hle⟩ := dec1_ok_bounds h
    obtain ⟨k, rfl, hk⟩ := termIndex_of_dec1_ok h
    exact .inr ⟨b.take (k + 1), b.drop (k + 1), v, (List.take_append_drop _ b).symm,
      by rw [dec1_take hk, h, List.length_take_of_le hle]⟩

/-- Induction over the runs of a buffer that `dec1` decodes one after the other, up to a rest where it faults. -/
theorem runs_induction {P : List Byte → Prop} (fault : ∀ b c, dec1 b = .fault c → P b)
    (run : ∀ run rest v, dec1 run = .ok v run.length → P rest → P (run ++ rest)) (b : List Byte) : P b := by
  induction hn : b.length using Nat.strong_induction_on generalizing b with
  | _ n ih =>
  rcases dec1_run_cases b with ⟨c, hf⟩ | ⟨r, rest, v, rfl, hok⟩
  · exact fault b c hf
  · obtain ⟨hpos, -⟩ := dec1_ok_bounds hok
    exact run r rest v hok (ih rest.length (by rw [← hn, List.length_append]; omega) rest rfl)

/-- Induction over the runs of a buffer on which `dec_many` succeeds, with their Values. -/
theorem decMany_induction {P : ∀ b l, decMany b = .decm l → Prop} (nil : P [] [] rfl)
    (run : ∀ run rest v l (hok : dec1 run = .ok v run.length) (hl : decMany rest = .decm l), P rest l hl →
      P (run ++ rest) (v :: l) ((decMany_run_append_eq_decm_iff hok).2 ⟨l, rfl, hl⟩))
    {b : List Byte} {l : List Value} (h : decMany b = .decm l) : P b l h := by
  induction b using runs_induction generalizing l with
  | fault b c hf =>
    cases b with
    | nil => cases h; exact nil
    | cons x b => rw [decMany_fault hf (List.cons_ne_nil x b)] at h; cases h
  | run r rest v hok ih =>
    obtain ⟨m, rfl, hm⟩ := (decMany_run_append_eq_decm_iff hok).1 h
    exact run r rest v m hok hm (ih hm)

/-! ### `dec_many` by its result -/

/-- A run has one byte with bit 7 clear, its last. -/
theorem filter_terminating_of_isRun {r : List Byte} (hr : isRun r = true) :
    (r.filter fun x => decide (x.toNat < 128)).length = 1 := by
  induction r with
  | nil => cases hr
  | cons b r ih =>
    cases r with
    | nil =>
      rw [isRun_singleton, contBit_false_iff] at hr
      simp [hr]
    | cons c r =>
      obtain ⟨hc, hr⟩ := (isRun_cons_cons b c r).1 hr
      rw [contBit_true_iff] at hc
      rw [List.filter_cons_of_neg (by simpa using hc), ih hr]

theorem length_of_decMany {b : List Byte} {l : List Value} (h : decMany b = .decm l) :
    l.length = (b.filter fun x => decide (x.toNat < 128)).length := by
  induction h using decMany_induction with
  | nil => rfl
  | run r rest v l hok _ ih =>
    rw [List.filter_append, List.length_append, filter_terminating_of_isRun (isRun_of_dec1_ok hok), List.length_cons,
      ih, Nat.add_comm]

/-- A fault of `dec_many` is that of `dec1` on what follows the runs that decode. -/
theorem exists_rest_of_decMany_fault {b : List Byte} {c : FaultCode} (h : decMany b = .fault c) :
    ∃ used rest, b = used ++ rest ∧ rest ≠ [] ∧ dec1 rest = .fault c ∧ ∃ l, decMany used = .decm l := by
  induction b using runs_induction with
  | fault b c' hf =>
    have hne : b ≠ [] := by
      rintro rfl
      cases h
    obtain rfl : c' = c := Result.fault.inj ((decMany_fault hf hne).symm.trans h)
    exact ⟨[], b, rfl, hne, hf, [], rfl⟩
  | run r rest v hok ih =>
    obtain ⟨used, rest, rfl, hne, hf, l, hl⟩ := ih ((decMany_run_append_eq_fault_iff hok).1 h)
    exact ⟨r ++ used, rest, (List.append_assoc _ _ _).symm, hne, hf, v :: l,
      (decMany_run_append_eq_decm_iff hok).2 ⟨l, rfl, hl⟩⟩

/-- Settles O33: one Value for each run, which has one terminating byte, and `exists_rest_of_decMany_fault`. -/
theorem decManyCountsTerminatingBytes : Obligations.DecManyCountsTerminatingBytes := by
  unfold Obligations.DecManyCountsTerminatingBytes
  exact ⟨rfl, fun _ _ => length_of_decMany, fun _ _ => exists_rest_of_decMany_fault⟩

/-! ### `dec_n` by its result -/

/-- `dec_n` with a list: as many Values as asked for, those that `dec_many` gives of the part used. -/
theorem exists_used_of_decN {b rest : List Byte} {n : Nat} {l : List Value} (h : decN b n = .decn l rest) :
    l.length = n ∧ ∃ used, b = used ++ rest ∧ decMany used = .decm l := by
  induction n generalizing b l with
  | zero =>
    cases h
    exact ⟨rfl, [], rfl, rfl⟩
  | succ n ih =>
    rcases dec1_run_cases b with ⟨c, hf⟩ | ⟨r, e, v, rfl, hok⟩
    · rw [decN_fault n hf] at h
      cases h
    · obtain ⟨m, rfl, hm⟩ := (decN_run_append_eq_decn_iff hok).1 h
      obtain ⟨rfl, used, rfl, hused⟩ := ih hm
      exact ⟨rfl, r ++ used, (List.append_assoc _ _ _).symm, (decMany_run_append_eq_decm_iff hok).2 ⟨m, rfl, hused⟩⟩

/-- A fault of `dec_n` is that of `dec1` on what follows fewer runs than asked for. -/
theorem exists_rest_of_decN_fault {b : List Byte} {n : Nat} {c : FaultCode} (h : decN b n = .fault c) :
    ∃ used rest l, b = used ++ rest ∧ dec1 rest = .fault c ∧ decMany used = .decm l ∧ l.length < n := by
  induction n generalizing b with
  | zero => cases h
  | succ n ih =>
    rcases dec1_run_cases b with ⟨c', hf⟩ | ⟨r, e, v, rfl, hok⟩
    · obtain rfl : c' = c := Result.fault.inj ((decN_fault n hf).symm.trans h)
      exact ⟨[], b, [], rfl, hf, rfl, Nat.succ_pos n⟩
    · obtain ⟨used, rest, l, rfl, hf, hused, hlt⟩ := ih ((decN_run_append_eq_fault_iff hok).1 h)
      exact ⟨r ++ used, rest, v :: l, (List.append_assoc _ _ _).symm, hf,
        (decMany_run_append_eq_decm_iff hok).2 ⟨l, rfl, hused⟩, Nat.succ_lt_succ hlt⟩

/-- Settles O35: the part used and the rest, by recursion on the count. -/
theorem decNLeavesTheRest : Obligations.DecNLeavesTheRest := by
  unfold Obligations.DecNLeavesTheRest
  exact ⟨fun _ => rfl, fun _ _ _ _ => exists_used_of_decN, fun _ _ _ => exists_rest_of_decN_fault⟩

/-! ### Buffers of forms -/

theorem decMany_encMany (l : List Value) : decMany (encMany l) = .decm l := by
  induction l with
  | nil => rfl
  | cons v l ih => exact (decMany_run_append_eq_decm_iff (dec1_enc1 v)).2 ⟨l, rfl, ih⟩

/-- `dec_n` reads as many forms back as there are, whatever follows. -/
theorem decN_encMany_append (l : List Value) (e : List Byte) : decN (encMany l ++ e) l.length = .decn l e := by
  induction l with
  | nil => rfl
  | cons v l ih =>
    rw [encMany, List.append_assoc]
    exact (decN_run_append_eq_decn_iff (dec1_enc1 v)).2 ⟨l, rfl, ih⟩

theorem decN_encMany_of_le {l : List Value} {n : Nat} (hn : n ≤ l.length) :
    decN (encMany l) n = .decn (l.take n) (encMany (l.drop n)) := by
  have h := decN_encMany_append (l.take n) (encMany (l.drop n))
  rwa [← encMany_append, List.take_append_drop, List.length_take_of_le hn] at h

/-- More Values asked for than there are forms: the `dec1` after the last finds no byte. -/
theorem decN_encMany_of_lt {l : List Value} {n : Nat} (hn : l.length < n) : decN (encMany l) n = .fault .truncated := by
  induction l generalizing n with
  | nil =>
    obtain ⟨n, rfl⟩ := Nat.exists_eq_succ_of_ne_zero (Nat.ne_zero_of_lt hn)
    exact decN_fault n rfl
  | cons v l ih =>
    obtain ⟨n, rfl⟩ := Nat.exists_eq_succ_of_ne_zero (Nat.ne_zero_of_lt hn)
    exact (decN_run_append_eq_fault_iff (dec1_enc1 v)).2 (ih (Nat.lt_of_succ_lt_succ hn))

/-- Settles O32: `dec_many` and `dec_n` read the forms back one by one. -/
theorem wellFormedBuffersDecode : Obligations.WellFormedBuffersDecode := by
  unfold Obligations.WellFormedBuffersDecode
  exact fun l n => ⟨decMany_encMany l, decN_encMany_of_le, decN_encMany_of_lt⟩

/-! ### The runs of a buffer -/

/-- The first run of a buffer ends with its terminating byte. -/
theorem runsOf_run_append {r : List Byte} (hr : isRun r = true) (e : List Byte) : runsOf (r ++ e) = r :: runsOf e := by
  induction r with
  | nil => cases hr
  | cons b r ih =>
    cases r with
    | nil =>
      rw [isRun_singleton] at hr
      simp [runsOf, hr]
    | cons c r =>
      obtain ⟨hc, hr⟩ := (isRun_cons_cons b c r).1 hr
      rw [List.cons_append, runsOf, if_pos hc, ih hr]

/-- A run that decodes to a Value is its form exactly when it is canonical. -/
theorem enc1_eq_iff_canonical {r : List Byte} {v : Value} (h : dec1 r = .ok v r.length) :
    enc1 v = r ↔ canonical r = true := by
  obtain ⟨-, hv⟩ := dec1_ok_toNat h
  rw [List.take_length] at hv
  exact ⟨fun he => (canonical_iff_exists r).2 ⟨v, he⟩, fun hc => (eq_enc1_of_canonical hc hv.symm).symm⟩

/-- The forms of the Values decoded are the buffer exactly when each run is the form of its Value. -/
theorem encMany_eq_iff_canonical {b : List Byte} {l : List Value} (h : decMany b = .decm l) :
    encMany l = b ↔ ∀ run ∈ runsOf b, canonical run = true := by
  induction h using decMany_induction with
  | nil => simp [encMany, runsOf]
  | run r rest v l hok _ ih =>
    rw [runsOf_run_append (isRun_of_dec1_ok hok), List.forall_mem_cons, ← ih, ← enc1_eq_iff_canonical hok, encMany]
    refine ⟨fun he => ?_, fun ⟨hfirst, hrest⟩ => by rw [hfirst, hrest]⟩
    have hlen : DecResult.ok v (enc1 v).length = .ok v r.length := by
      rw [← dec1_enc1_append v (encMany l), he, dec1_run_append hok]
    exact List.append_inj he (DecResult.ok.inj hlen).2

/-- Settles O31: the forms are read back one by one, and `encMany_eq_iff_canonical`. -/
theorem listsRoundTrip : Obligations.ListsRoundTrip := by
  unfold Obligations.ListsRoundTrip
  refine ⟨fun l => ⟨decMany_encMany l, ?_⟩, fun _ _ => encMany_eq_iff_canonical⟩
  rw [← List.append_nil (encMany l), decN_encMany_append]

end Sys2Proof.Machine
end

section
/-!
ENC.CLR and DEC.CLR (`43_system.md` R180, R181), as instructions and as edges, from every state and above every handshake of
their unit.
-/
namespace Sys2Proof.Machine

/-! ### A clear at an edge -/

/-- At an edge that clears ENC no operand is accepted and no byte is taken, whatever the handshake lines are. -/
theorem Enc.edge_of_encClr {l : InLines} (hr : l.rst = false) (hc : l.encClr = true) (e : Enc) :
    e.edge l = (e.clear, none) := by
  simp [Enc.edge, hr, hc]

/-- At an edge that clears DEC no start and no token is accepted, whatever the handshake lines are. -/
theorem Dec.edge_of_decClr {l : InLines} (hr : l.rst = false) (hc : l.decClr = true) (d : Dec) :
    d.edge l = d.clear := by
  simp [Dec.edge, hr, hc]

/-- So nothing goes to `OUT` at an edge that clears ENC. -/
theorem State.edge_out_of_encClr {l : InLines} (hr : l.rst = false) (hc : l.encClr = true) (s : State) :
    (s.edge l).out = s.out := by
  simp [Enc.edge_of_encClr hr hc]

/-! ### ENC.CLR in IDLE -/

/-- In IDLE the remaining value is 0 already. -/
theorem Enc.Inv.clear_eq_self {e : Enc} (h : e.Inv) (he : e.st = .idle) : e.clear = e := by
  have hrem : e.rem = 0 := h he
  rw [Enc.clear, ← he, ← hrem]

/-- In IDLE no procedure is at an `ENC1` of its own, so a clear of ENC abandons none. -/
theorem State.EncSideInv.afterEncClr_eq_self {s : State} (h : s.EncSideInv) (he : s.enc.st = .idle) :
    afterEncClr s.encProc = s.encProc := by
  obtain ⟨-, hjob⟩ := h
  cases hp : s.encProc with
  | none => rfl
  | some j =>
    obtain ⟨hemit, -⟩ := hjob j hp
    have hb : j.busy = false := by simpa [EncJob.Inv, he] using hemit
    exact afterEncClr_eq_some.2 ⟨rfl, hb⟩

/-- In IDLE a clear of ENC changes nothing at all, an ENCM in progress included (log entry 19). -/
theorem State.EncSideInv.encClear_eq_self {s : State} (h : s.EncSideInv) (he : s.enc.st = .idle) : s.encClear = s := by
  have hproc := h.afterEncClr_eq_self he
  obtain ⟨hunit, -⟩ := h
  rw [State.encClear, hunit.clear_eq_self he, hproc]

/-! ### The statements -/

/-- Settles O36: the instruction is `State.encClear`, the edge `Enc.edge_of_encClr`, and the lines are those of IDLE. In IDLE
the instruction changes nothing (`State.EncSideInv.encClear_eq_self`), and the edge is the instruction (`exec_eq_edge`). -/
theorem encClrResetsEnc : Obligations.EncClrResetsEnc := by
  unfold Obligations.EncClrResetsEnc
  intro s
  have hexec : exec .encClr s = .next s.encClear := rfl
  refine ⟨⟨_, hexec⟩, rfl, rfl, fun l hr hc => ⟨?_, State.edge_out_of_encClr hr hc s⟩, fun hinv he => ?_⟩
  · rw [State.edge_enc, Enc.edge_of_encClr hr hc, Enc.clear]
  · obtain ⟨hside, -⟩ := s.inv_iff.1 hinv
    have hself : exec .encClr s = .next s := by rw [hexec, hside.encClear_eq_self he]
    exact ⟨hself, Host.Outcome.next.inj ((exec_eq_edge rfl s).symm.trans hself)⟩

/-- Settles O37: the instruction is `State.decClear`, the edge `Dec.edge_of_decClr`, and the lines are those of IDLE. -/
theorem decClrResetsDec : Obligations.DecClrResetsDec := by
  unfold Obligations.DecClrResetsDec
  intro s
  have hexec : exec .decClr s = .next s.decClear := rfl
  refine ⟨⟨_, _, hexec⟩, rfl, rfl, rfl, rfl, fun l hr hc => ?_⟩
  rw [State.edge_dec, Dec.edge_of_decClr hr hc, Dec.clear]

end Sys2Proof.Machine
end

section
/-!
Exceptions: what goes first at one edge and what the two units do at it together (`60_exceptions.md` R199), the fault that is
latched (R196, R197), and the steps that raise one (R190, R193, R194, R195).
-/
namespace Sys2Proof.Machine

/-! ### The lines of each unit at an edge -/

section
variable {l : InLines}

/-- ENC does not see DEC's lines. -/
theorem Enc.edge_encLines (e : Enc) : e.edge (encLines l) = e.edge l := rfl

/-- DEC does not see ENC's lines. -/
theorem Dec.edge_decLines (d : Dec) : d.edge (decLines l) = d.edge l := rfl

/-- DEC's lines alone leave ENC as it is. -/
theorem Enc.edge_decLines (hr : l.rst = false) (e : Enc) : e.edge (decLines l) = (e, none) :=
  Enc.edge_of_not_steps (by simp [Enc.stepsOn, decLines, hr])

/-- ENC's lines alone leave DEC as it is. -/
theorem Dec.edge_encLines (hr : l.rst = false) (d : Dec) : d.edge (encLines l) = d :=
  Dec.edge_of_not_steps (by simp [Dec.stepsOn, encLines, hr])

/-- At an edge with ENC's lines alone the machine steps on ENC's side. -/
theorem edge_encLines (hr : l.rst = false) (s : State) : s.edge (encLines l) = s.withEncSide (s.edge l) := by
  simp only [State.edge, Enc.edge_encLines, Dec.edge_encLines hr]
  simp [State.withEncSide, encLines, hr]

/-- At an edge with DEC's lines alone the machine steps on DEC's side. -/
theorem edge_decLines (hr : l.rst = false) (s : State) : s.edge (decLines l) = s.withDecSide (s.edge l) := by
  simp only [State.edge, Dec.edge_decLines, Enc.edge_decLines hr]
  simp [State.withDecSide, decLines, hr]

theorem edge_encLines_onEncSide (hr : l.rst = false) : OnEncSide (·.edge (encLines l)) := fun s u => by
  simp only [edge_encLines hr]
  rfl

theorem edge_decLines_onDecSide (hr : l.rst = false) : OnDecSide (·.edge (decLines l)) := fun s u => by
  simp only [edge_decLines hr]
  rfl

/-- Without a reset an edge is ENC's part of it and then DEC's. -/
theorem edge_eq_encLines_decLines (hr : l.rst = false) (s : State) :
    s.edge l = (s.edge (encLines l)).edge (decLines l) := by
  rw [edge_decLines hr, edge_encLines hr]
  rfl

/-- The same edge in the other order, as the two parts are operations on the two sides. -/
theorem edge_eq_decLines_encLines (hr : l.rst = false) (s : State) :
    s.edge l = (s.edge (decLines l)).edge (encLines l) :=
  (edge_eq_encLines_decLines hr s).trans
    ((edge_encLines_onEncSide hr).commute (edge_decLines_onDecSide hr) s).symm

/-- Without a reset, a clear and a handshake that its state allows, ENC takes no step at an edge. -/
theorem Enc.stepsOn_eq_false {e : Enc} (hr : l.rst = false) (hc : l.encClr = false)
    (hv : l.encValid = false ∨ e.st = .emit) (ho : l.outReady = false ∨ e.st = .idle) : e.stepsOn l = false := by
  rw [← Enc.ready_false_iff, ← Bool.and_eq_false_iff] at hv
  rw [← Enc.outValid_false_iff, ← Bool.and_eq_false_iff] at ho
  rw [Enc.stepsOn, hr, hc, hv, ho]
  rfl

/-- Without a reset, a clear and a handshake that its state allows, DEC takes no step at an edge. -/
theorem Dec.stepsOn_eq_false {d : Dec} (hr : l.rst = false) (hc : l.decClr = false)
    (hv : l.decStart = false ∨ d.st = .run ∨ d.st = .fault) (hi : l.inValid = false ∨ d.st ≠ .run) :
    d.stepsOn l = false := by
  rw [← Dec.ready_false_iff, ← Bool.and_eq_false_iff] at hv
  rw [← Dec.inReady_false_iff, ← Bool.and_eq_false_iff] at hi
  rw [Dec.stepsOn, hr, hc, hv, hi]
  rfl

/-- At a reset edge no byte is taken. -/
theorem State.edge_out_of_rst (hr : l.rst = true) (s : State) : (s.edge l).out = s.out := by
  simp [Enc.edge, hr]

end

/-- ENC accepts an operand in one state and presents bytes in the other. -/
theorem Enc.not_ready_and_outValid (e : Enc) : ¬(e.ready = true ∧ e.outValid = true) := by
  rw [Enc.ready_iff, Enc.outValid_iff]
  rintro ⟨hi, he⟩
  cases hi.symm.trans he

/-- DEC accepts a start and a token in different states. -/
theorem Dec.not_ready_and_inReady (d : Dec) : ¬(d.ready = true ∧ d.inReady = true) := by
  rw [Dec.ready_iff, Dec.inReady_iff]
  rintro ⟨hi | hd, hr⟩
  · cases hi.symm.trans hr
  · cases hd.symm.trans hr

/-- Settles O38: reset and clear each by its lemma about an edge; with no step at the edge a unit stays
(`Enc.stepsOn_eq_false`, `Dec.stepsOn_eq_false`); and the edge is its two parts in either order. -/
theorem edgePriorityAndIndependence : Obligations.EdgePriorityAndIndependence := by
  unfold Obligations.EdgePriorityAndIndependence
  intro s l
  refine ⟨fun hr => ?_, fun hr hc => ⟨?_, State.edge_out_of_encClr hr hc s⟩, fun hr hc => Dec.edge_of_decClr hr hc s.dec,
    s.enc.not_ready_and_outValid, s.dec.not_ready_and_inReady, fun hr hc hv ho => ?_,
    fun hr hc hv hi => Dec.edge_of_not_steps (Dec.stepsOn_eq_false hr hc hv hi),
    fun hr => ⟨edge_eq_encLines_decLines hr s, edge_eq_decLines_encLines hr s⟩⟩
  · obtain ⟨henc, hdec⟩ := edge_registers_of_rst s hr
    exact ⟨henc, hdec, State.edge_out_of_rst hr s⟩
  · rw [State.edge_enc, Enc.edge_of_encClr hr hc]
  · have hstay : s.enc.edge l = (s.enc, none) := Enc.edge_of_not_steps (Enc.stepsOn_eq_false hr hc hv ho)
    simp [hstay]

/-! ### A latched fault -/

/-- A reset and a clear put DEC into its reset state. -/
theorem Dec.edge_of_clearing {l : InLines} (h : l.rst = true ∨ l.decClr = true) (d : Dec) : d.edge l = Dec.reset := by
  cases hr : l.rst
  · exact Dec.edge_of_decClr hr (by simpa [hr] using h) d
  · simp [Dec.edge, hr]

/-- At an edge a fault stays as it is or is cleared (`60_exceptions.md` R196, R197). -/
theorem Dec.edge_stays_or_clears {d : Dec} (hs : d.st = .fault) (l : InLines) : d.edge l = d ∨ d.edge l = Dec.reset := by
  by_cases h : l.rst = true ∨ l.decClr = true
  · exact .inr (Dec.edge_of_clearing h d)
  · simp only [not_or, Bool.not_eq_true] at h
    obtain ⟨hrst, hclr⟩ := h
    exact .inl (Dec.edge_of_fault hs hrst hclr)

/-- No instruction is a reset. -/
theorem Instr.lines_rst (i : Instr) : i.lines.rst = false := by
  cases i <;> rfl

/-- DEC.CLR alone asserts `dec_clr`. -/
theorem Instr.lines_decClr {i : Instr} (h : i ≠ .decClr) : i.lines.decClr = false := by
  cases i with
  | decClr => exact absurd rfl h
  | _ => rfl

/-- Settles O40: instructions and steps move DEC as an edge does (`exec_movesAs`, `step_movesAs`), and at an edge FAULT is
left by a reset or a clear only. -/
theorem faultLatchesUntilCleared : Obligations.FaultLatchesUntilCleared := by
  unfold Obligations.FaultLatchesUntilCleared
  refine fun s hs => ⟨fun i t hi h => ?_, fun l => Dec.edge_of_fault hs, fun t h => ?_, ⟨s.decClear, rfl, rfl⟩,
    fun l h => Dec.edge_of_clearing h s.dec⟩
  · obtain ⟨-, hdec, -⟩ := exec_movesAs h
    rw [hdec, Dec.edge_of_fault hs (Instr.lines_rst i) (Instr.lines_decClr hi)]
  · obtain ⟨-, hdec, -⟩ := step_movesAs h
    rw [hdec]
    exact Dec.edge_stays_or_clears hs s.presents

/-! ### The steps that raise a fault -/

/-- Why `D.ovf` is 1 after a byte: it came after the tenth, it is the tenth and has bits above the Value, or an overflow was
noted before (`41_decode.md` R134). -/
theorem nextOvf_true_cases {d : Dec} {p : Payload} (h : nextOvf d p = true) :
    9 < d.i.toNat ∨ (d.i.toNat = 9 ∧ p.toNat / 2 ≠ 0) ∨ d.ovf = true := by
  by_contra! hn
  obtain ⟨hi, hp, ho⟩ := hn
  have hnone : nextOvf d p = false :=
    nextOvf_false_iff.2 ⟨hi, Bool.eq_false_iff.2 ho, fun h9 => by have := hp h9; omega⟩
  cases hnone.symm.trans h

/-- A token that brings DEC into FAULT: `EOB`, or a terminating byte after which `D.ovf` is 1. -/
theorem Dec.tokenStep_fault_cases {d : Dec} {k : Token} (h : (d.tokenStep k).st = .fault) :
    (k = .eob ∧ d.tokenStep k = { d with st := .fault, cause := some .truncated }) ∨
    (∃ b, k = .byte b ∧ contBit b = false ∧ nextOvf d (payload b) = true ∧ (d.tokenStep k).cause = some .range ∧
      (d.tokenStep k).ovf = true) := by
  cases k with
  | eob => exact .inl ⟨rfl, rfl⟩
  | byte b =>
    have hk : d.tokenStep (.byte b) = d.byteStep b := rfl
    rw [hk] at h ⊢
    rcases d.byteStep_cases b with ⟨-, he⟩ | ⟨hc, ho, he⟩ | ⟨-, -, he⟩ <;> rw [he] at h ⊢
    · cases h
    · exact .inr ⟨b, rfl, hc, ho, rfl, ho⟩
    · cases h

/-- `EOB` is the instruction EOB, with any data bits. -/
theorem Instr.eq_eob_of_token {i : Instr} (h : i.token? = some .eob) : ∃ x, i = .eob x := by
  cases i <;> simp [Instr.token?] at h ⊢

/-- A byte with bit 7 clear is the instruction BYTE.TERM with the byte's payload. -/
theorem Instr.eq_byteTerm_of_token {i : Instr} {b : Byte} (h : i.token? = some (.byte b)) (hc : contBit b = false) :
    i = .byteTerm (payload b) := by
  cases i with
  | byteCont p =>
    cases h
    simp at hc
  | byteTerm p =>
    cases h
    rw [payload_byteOf]
  | _ => cases h

/-- Only an accepted token brings DEC into FAULT. -/
theorem exec_raises_by_token {i : Instr} {s t : State} (h : exec i s = .next t) (hs : s.dec.st ≠ .fault)
    (ht : t.dec.st = .fault) : ∃ k, i.token? = some k ∧ s.dec.st = .run ∧ t = s.decToken k := by
  rcases exec_cases h with rfl | ⟨v, -, -, rfl⟩ | ⟨-, -, rfl⟩ | htok | ⟨vs, -, -, rfl⟩ | ⟨b, -, -, rfl⟩ |
    ⟨n, b, -, -, rfl⟩ | ⟨-, rfl⟩ | ⟨-, rfl⟩
  case inr.inr.inr.inl => exact htok
  -- a start and a clear end in another state, the others leave DEC as it is
  case inr.inr.inl => cases ht
  case inr.inr.inr.inr.inr.inr.inr.inr => cases ht
  all_goals exact absurd ht hs

/-- Settles O41: only an accepted token raises a fault (`exec_raises_by_token`), and that token is `EOB` or a terminating
byte with an overflow noted (`Dec.tokenStep_fault_cases`). -/
theorem faultsAreRaisedOnlyByTheirSteps : Obligations.FaultsAreRaisedOnlyByTheirSteps := by
  unfold Obligations.FaultsAreRaisedOnlyByTheirSteps
  intro i s t h hs ht
  obtain ⟨k, hk, hrun, rfl⟩ := exec_raises_by_token h hs ht
  refine ⟨hrun, ?_⟩
  rcases Dec.tokenStep_fault_cases ht with ⟨rfl, he⟩ | ⟨b, rfl, hc, ho, hcause, hovf⟩
  · obtain ⟨x, hx⟩ := Instr.eq_eob_of_token hk
    exact .inl ⟨x, hx, by rw [State.decToken, he]⟩
  · exact .inr ⟨payload b, Instr.eq_byteTerm_of_token hk hc, rfl, hcause, hovf, nextOvf_true_cases ho⟩

end Sys2Proof.Machine
end

section
/-!
Runs of the machine step by step, and what one step does to a unit in progress (`00_scope.md` R8, `20_memory.md` R59): the
shared part of the statements about liveness and waiting.
-/
namespace Sys2Proof.Machine

/-! ### Several steps in a row -/

/-- The last step of a run. -/
theorem exists_of_runFor_succ {k : Nat} {s t : State} (h : runFor (k + 1) s = .next t) :
    ∃ u, runFor k s = .next u ∧ step u = .next t := by
  induction k generalizing s with
  | zero =>
    refine ⟨s, rfl, ?_⟩
    cases hs : step s <;> simp_all [runFor]
  | succ k ih =>
    rw [runFor] at h
    cases hs : step s with
    | next v =>
      rw [hs] at h
      obtain ⟨u, hrun, hstep⟩ := ih h
      exact ⟨u, by rwa [Nat.add_comm, runFor_step hs], hstep⟩
    | fault f => cases f
    | refused r => simp [hs] at h

/-- What every step keeps until `C` is met: it holds at the end of a run, or at a state on the way at which `C` is met. -/
theorem runFor_until {P : Nat → State → Prop} {C : State → Prop} {s : State} (h0 : P 0 s)
    (hkeep : ∀ m u v, P m u → ¬C u → runFor m s = .next u → step u = .next v → P (m + 1) v) {k : Nat} {t : State}
    (hrun : runFor k s = .next t) : P k t ∨ ∃ m u, m < k ∧ runFor m s = .next u ∧ P m u ∧ C u := by
  induction k generalizing t with
  | zero =>
    cases hrun
    exact .inl h0
  | succ k ih =>
    obtain ⟨u, hu, hstep⟩ := exists_of_runFor_succ hrun
    rcases ih hu with hP | ⟨m, w, hm, hw⟩
    · by_cases hC : C u
      · exact .inr ⟨k, u, Nat.lt_succ_self k, hu, hP, hC⟩
      · exact .inl (hkeep k u t hP hC hu hstep)
    · exact .inr ⟨m, w, Nat.lt_succ_of_lt hm, hw⟩

/-- The same towards a state at which `C` is met: there is one up to which everything was kept. -/
theorem exists_first_of_runFor {P : Nat → State → Prop} {C : State → Prop} {s : State} (h0 : P 0 s)
    (hkeep : ∀ m u v, P m u → ¬C u → runFor m s = .next u → step u = .next v → P (m + 1) v) {k : Nat} {t : State}
    (hrun : runFor k s = .next t) (hC : C t) : ∃ m u, runFor m s = .next u ∧ P m u ∧ C u := by
  rcases runFor_until h0 hkeep hrun with hP | ⟨m, u, -, hu⟩
  · exact ⟨k, t, hrun, hP, hC⟩
  · exact ⟨m, u, hu⟩

/-! ### A step of a unit in progress -/

/-- With something on the lines a step is answered: a word that no host can present is on no line. -/
theorem step_answers_of_presents {s : State} (h : s.presents ≠ {}) : ∃ t, step s = .next t := by
  cases hs : step s with
  | next t => exact ⟨t, rfl⟩
  | fault f => cases f
  | refused r =>
    obtain ⟨ht, line, rest, p, hscript, hf, -⟩ := step_eq_refused_iff.1 hs
    exact absurd (by simp [State.presents, State.scriptLines, ht, hscript, hf]) h

/-- With nothing on the lines no unit takes a step. -/
theorem not_steps_of_nothing {s : State} (h : s.presents = {}) :
    s.enc.stepsOn s.presents = false ∧ s.dec.stepsOn s.presents = false := by
  rw [h]
  exact ⟨rfl, rfl⟩

theorem step_keeps_enc {s t : State} (h : step s = .next t) (hn : s.enc.stepsOn s.presents = false) :
    t.enc = s.enc ∧ t.out = s.out := by
  obtain ⟨henc, -, hout⟩ := step_movesAs h
  rw [Enc.edge_of_not_steps hn] at henc hout
  exact ⟨henc, by rw [hout]; exact List.append_nil _⟩

theorem step_keeps_dec {s t : State} (h : step s = .next t) (hn : s.dec.stepsOn s.presents = false) :
    t.dec = s.dec := by
  obtain ⟨-, hdec, -⟩ := step_movesAs h
  rwa [Dec.edge_of_not_steps hn] at hdec

/-- A step of ENC in EMIT at an edge is a reset, a clear, or ENC.EMIT. -/
theorem Enc.edge_of_stepsOn {e : Enc} {l : InLines} (he : e.st = .emit) (hc : e.stepsOn l = true) :
    e.edge l = (Enc.reset, none) ∨ e.edge l = (e.emitStep, some e.outByte) := by
  cases hr : l.rst
  · cases hclr : l.encClr
    · have ho : l.outReady = true := by simpa [Enc.stepsOn, hr, hclr, he] using hc
      exact .inr (Enc.edge_emit hr hclr ho he)
    · exact .inl (Enc.edge_of_encClr hr hclr e)
  · exact .inl (by simp [Enc.edge, hr])

/-- A step of DEC in RUN at an edge is a reset, a clear, or that of a token accepted. -/
theorem Dec.edge_of_stepsOn {d : Dec} {l : InLines} (hr : d.st = .run) (hc : d.stepsOn l = true) :
    (d.edge l = Dec.reset ∧ d.takesOn l = none) ∨ ∃ k, d.edge l = d.tokenStep k ∧ d.takesOn l = some k := by
  by_cases h : l.rst = true ∨ l.decClr = true
  · refine .inl ⟨Dec.edge_of_clearing h d, ?_⟩
    rcases h with h | h <;> simp [Dec.takesOn, h]
  · simp only [not_or, Bool.not_eq_true] at h
    obtain ⟨hrst, hclr⟩ := h
    have hv : l.inValid = true := by simpa [Dec.stepsOn, hrst, hclr, hr] using hc
    have htake := Dec.takesOn_eq_some.2 ⟨hrst, hclr, hv, hr, rfl⟩
    exact .inr ⟨_, Dec.edge_of_takesOn htake, htake⟩

/-- Where DEC takes no step it accepts no token. -/
theorem Dec.takesOn_of_not_steps {d : Dec} {l : InLines} (h : d.stepsOn l = false) : d.takesOn l = none := by
  by_contra hne
  obtain ⟨k, hk⟩ := Option.ne_none_iff_exists'.1 hne
  obtain ⟨-, -, hv, hr, -⟩ := Dec.takesOn_eq_some.1 hk
  simp [Dec.stepsOn, hv, hr] at h

/-- A step of ENC in EMIT clears it or sends a byte. -/
theorem step_of_enc_stepsOn {s : State} (he : s.enc.st = .emit) (hc : s.enc.stepsOn s.presents = true) :
    ∃ t, step s = .next t ∧ ((t.enc = Enc.reset ∧ t.out = s.out) ∨
      (t.enc = s.enc.emitStep ∧ t.out = s.out ++ [s.enc.outByte])) := by
  obtain ⟨t, ht⟩ := step_answers_of_presents (s := s) fun h => by simp [not_steps_of_nothing h] at hc
  obtain ⟨henc, -, hout⟩ := step_movesAs ht
  refine ⟨t, ht, ?_⟩
  rcases Enc.edge_of_stepsOn he hc with hedge | hedge <;> rw [hedge] at henc hout
  · exact .inl ⟨henc, by rw [hout]; exact List.append_nil _⟩
  · exact .inr ⟨henc, hout⟩

/-- A step of DEC in RUN clears it or is that of a token accepted. -/
theorem step_of_dec_stepsOn {s : State} (hr : s.dec.st = .run) (hc : s.dec.stepsOn s.presents = true) :
    ∃ t, step s = .next t ∧ ((t.dec = Dec.reset ∧ s.dec.takesOn s.presents = none) ∨
      ∃ k, t.dec = s.dec.tokenStep k ∧ s.dec.takesOn s.presents = some k) := by
  obtain ⟨t, ht⟩ := step_answers_of_presents (s := s) fun h => by simp [not_steps_of_nothing h] at hc
  obtain ⟨-, hdec, -⟩ := step_movesAs ht
  exact ⟨t, ht, by rw [hdec]; exact Dec.edge_of_stepsOn hr hc⟩

end Sys2Proof.Machine
end

section
/-!
Liveness (`70_reset_and_hazards.md` R234, R240, R241, decision D18): an operation in progress is over within its bound, with
the host's lines given one by one, and under the fairness of the host whatever else happens.
-/
namespace Sys2Proof.Machine

/-! ### With the lines given one by one -/

/-- Settles O50: the form of the remaining value has 1 to 10 bytes, and the takes up to its last byte are `runFor_takes`. -/
theorem encFinishesWithinTenTakes : Obligations.EncFinishesWithinTenTakes := by
  unfold Obligations.EncFinishesWithinTenTakes
  intro s rest hq he hs
  obtain ⟨hpos, hten⟩ := enc1_length_bounds s.enc.rem
  have hsplit : s.script = List.replicate (enc1 s.enc.rem).length .take ++
      (List.replicate (10 - (enc1 s.enc.rem).length) .take ++ rest) := by
    rw [hs, ← List.append_assoc, List.replicate_append_replicate, Nat.add_sub_of_le hten]
  obtain ⟨hrun, -⟩ := runFor_takes s.enc.rem s _ hq (by rw [← he]) hsplit
  exact ⟨_, _, hpos, hten, hrun, rfl, rfl, List.length_append, rfl⟩

/-- After a terminating byte DEC has a result or a fault. -/
theorem Dec.byteStep_ends {b : Byte} (h : contBit b = false) (d : Dec) :
    (d.byteStep b).st = .done ∨ (d.byteStep b).st = .fault := by
  rcases d.byteStep_cases b with ⟨hc, -⟩ | ⟨-, -, he⟩ | ⟨-, -, he⟩
  · cases h.symm.trans hc
  · exact .inr (by rw [he])
  · exact .inl (by rw [he])

/-- Settles O51: a byte with bit 7 set leaves the rest of the buffer to go, any other byte ends the `DEC1`, and so does the
`EOB` after the last byte. -/
theorem decFinishesWithinTheBuffer : Obligations.DecFinishesWithinTheBuffer := by
  unfold Obligations.DecFinishesWithinTheBuffer
  intro b
  induction b with
  | nil =>
    intro s rest hq hr hs
    exact ⟨1, _, le_rfl, le_rfl, runFor_one (step_token_line (t := .eob) hq hs hr), .inr rfl, rfl, rfl, rfl⟩
  | cons x b ih =>
    intro s rest hq hr hs
    have hstep := step_token_line (t := .byte x) (rest := tokenLines (bufferTokens b) ++ rest) hq hs hr
    cases hc : contBit x with
    | false => exact ⟨1, _, le_rfl, by simp, runFor_one hstep, Dec.byteStep_ends hc s.dec, rfl, rfl, rfl⟩
    | true =>
      obtain ⟨k, t, hpos, hle, hrun, hst, hscript, henc, hout⟩ :=
        ih { s with script := tokenLines (bufferTokens b) ++ rest, dec := s.dec.byteStep x } rest hq
          (by rw [Dec.byteStep_of_contBit hc]) rfl
      refine ⟨1 + k, t, by omega, by rw [List.length_cons]; omega, (runFor_step hstep k).trans hrun, hst, ?_, henc, hout⟩
      rw [hscript, Nat.add_comm]
      rfl

/-! ### Under the fairness of the host -/

/-- A fair run is fair from every state on. -/
theorem State.Fair.of_runFor {s t : State} {k : Nat} (hf : s.Fair) (hrun : runFor k s = .next t) : t.Fair :=
  fun m u hu => hf (k + m) u ((runFor_add hrun m).trans hu)

/-- ENC in EMIT: some later step is the first that ENC takes. -/
theorem State.Fair.exists_enc_step {s : State} (hf : s.Fair) (he : s.enc.st = .emit) :
    ∃ k t, runFor k s = .next t ∧ ((t.enc = Enc.reset ∧ t.out = s.out) ∨
      (t.enc = s.enc.emitStep ∧ t.out = s.out ++ [s.enc.outByte])) := by
  obtain ⟨hemit, -⟩ := hf 0 s rfl
  obtain ⟨n, w, hw, hC⟩ := hemit he
  obtain ⟨m, u, hu, ⟨henc, hout⟩, hc⟩ := exists_first_of_runFor (s := s)
    (P := fun _ u => u.enc = s.enc ∧ u.out = s.out) (C := fun u => u.enc.stepsOn u.presents = true) ⟨rfl, rfl⟩
    (fun _ u v ⟨henc, hout⟩ hC _ hstep =>
      have ⟨henc', hout'⟩ := step_keeps_enc hstep (Bool.eq_false_iff.2 hC)
      ⟨henc'.trans henc, hout'.trans hout⟩) hw hC
  obtain ⟨t, hstep, ht⟩ := step_of_enc_stepsOn (by rw [henc, he]) hc
  rw [henc, hout] at ht
  exact ⟨m + 1, t, (runFor_add hu 1).trans (runFor_one hstep), ht⟩

/-- An `ENC1` of which `v` remains ends, with no more bytes than the form of `v` has. -/
theorem State.Fair.enc1_ends (v : Value) {s : State} (hf : s.Fair) (he : s.enc = ⟨.emit, v⟩) :
    ∃ k t, runFor k s = .next t ∧ t.enc.st = .idle ∧ t.out.length ≤ s.out.length + (enc1 v).length := by
  induction v using value_induction generalizing s with
  | last v h =>
    obtain ⟨k, t, hrun, ⟨henc, hout⟩ | ⟨henc, hout⟩⟩ := hf.exists_enc_step (by rw [he])
    · exact ⟨k, t, hrun, by rw [henc]; rfl, by rw [hout]; exact Nat.le_add_right _ _⟩
    · rw [he, (Enc.emit_last h).2] at henc
      exact ⟨k, t, hrun, by rw [henc], by rw [hout, enc1_last v h, List.length_append]; rfl⟩
  | more v h ih =>
    obtain ⟨k, t, hrun, ⟨henc, hout⟩ | ⟨henc, hout⟩⟩ := hf.exists_enc_step (by rw [he])
    · exact ⟨k, t, hrun, by rw [henc]; rfl, by rw [hout]; exact Nat.le_add_right _ _⟩
    · rw [he, (Enc.emit_more h).2] at henc
      obtain ⟨n, u, hrest, hidle, hlen⟩ := ih (hf.of_runFor hrun) henc
      refine ⟨k + n, u, (runFor_add hrun n).trans hrest, hidle, ?_⟩
      rw [hout, List.length_append, List.length_singleton] at hlen
      rw [enc1_more v h, List.length_cons]
      omega

/-- What DEC accepts from here on, as long as it stays in RUN, are tokens of `ts`, in order from the first. -/
def State.AcceptsFrom (s : State) (ts : List Token) : Prop :=
  ∀ k, (∀ m u, m < k → runFor m s = .next u → u.dec.st = .run) → tokensIn k s <+: ts

theorem tokensIn_succ {s t : State} (h : step s = .next t) (k : Nat) :
    tokensIn (k + 1) s = (s.dec.takesOn s.presents).toList ++ tokensIn k t := by
  rw [tokensIn, h]

theorem tokensIn_add {a : Nat} {s t : State} (h : runFor a s = .next t) (b : Nat) :
    tokensIn (a + b) s = tokensIn a s ++ tokensIn b t := by
  induction a generalizing s with
  | zero =>
    cases h
    rw [Nat.zero_add]
    rfl
  | succ a ih =>
    rw [runFor] at h
    cases hs : step s with
    | next v =>
      rw [hs] at h
      rw [Nat.add_right_comm, tokensIn_succ hs, tokensIn_succ hs, ih h, List.append_assoc]
    | fault f => cases f
    | refused r => simp [hs] at h

/-- A step from RUN uses up the token that DEC accepts at it. -/
theorem State.AcceptsFrom.after_step {s t : State} {ts : List Token} (h : s.AcceptsFrom ts) (hr : s.dec.st = .run)
    (hs : step s = .next t) : ∃ ts', ts = (s.dec.takesOn s.presents).toList ++ ts' ∧ t.AcceptsFrom ts' := by
  obtain ⟨ts', rfl⟩ : (s.dec.takesOn s.presents).toList <+: ts := by
    have h1 := h 1 fun m u hm hu => by
      obtain rfl : m = 0 := by omega
      cases hu
      exact hr
    rwa [tokensIn_succ hs, tokensIn, List.append_nil] at h1
  refine ⟨ts', rfl, fun k hk => ?_⟩
  have hk1 := h (k + 1) fun m u hm hu => by
    cases m with
    | zero =>
      cases hu
      exact hr
    | succ m =>
      rw [Nat.add_comm, runFor_step hs] at hu
      exact hk m u (by omega) hu
  rwa [tokensIn_succ hs, List.prefix_append_right_inj] at hk1

/-- DEC in RUN: some later step is the first that DEC takes, and it takes a token with it or leaves RUN by a clear. -/
theorem State.Fair.exists_dec_step {s : State} {ts : List Token} (hf : s.Fair) (hr : s.dec.st = .run)
    (ha : s.AcceptsFrom ts) : ∃ k t, runFor k s = .next t ∧ ((t.dec = Dec.reset ∧ tokensIn k s = []) ∨
      ∃ x ts', t.dec = s.dec.tokenStep x ∧ tokensIn k s = [x] ∧ ts = x :: ts' ∧ t.AcceptsFrom ts') := by
  obtain ⟨-, hrun⟩ := hf 0 s rfl
  obtain ⟨n, w, hw, hC⟩ := hrun hr
  obtain ⟨m, u, hu, ⟨hdec, hnone, ha⟩, hc⟩ := exists_first_of_runFor (s := s)
    (P := fun m u => u.dec = s.dec ∧ tokensIn m s = [] ∧ u.AcceptsFrom ts)
    (C := fun u => u.dec.stepsOn u.presents = true) ⟨rfl, rfl, ha⟩
    (fun m u v ⟨hdec, hnone, ha⟩ hC hu hstep => by
      have hn : u.dec.stepsOn u.presents = false := Bool.eq_false_iff.2 hC
      have htake := Dec.takesOn_of_not_steps hn
      obtain ⟨ts', hts, ha'⟩ := ha.after_step (by rw [hdec, hr]) hstep
      rw [htake] at hts
      refine ⟨(step_keeps_dec hstep hn).trans hdec, ?_, by rwa [hts]⟩
      rw [tokensIn_add hu, hnone, tokensIn_succ hstep, htake]
      rfl) hw hC
  have hru : u.dec.st = .run := by rw [hdec, hr]
  obtain ⟨t, hstep, ht⟩ := step_of_dec_stepsOn hru hc
  obtain ⟨ts', hts, ha'⟩ := ha.after_step hru hstep
  have htokens : tokensIn (m + 1) s = (u.dec.takesOn u.presents).toList := by
    rw [tokensIn_add hu, hnone, tokensIn_succ hstep]
    exact List.append_nil _
  refine ⟨m + 1, t, (runFor_add hu 1).trans (runFor_one hstep), ?_⟩
  rcases ht with ⟨hclear, htake⟩ | ⟨x, htok, htake⟩ <;> rw [htake] at hts htokens
  · exact .inl ⟨hclear, htokens⟩
  · exact .inr ⟨x, ts', by rw [htok, hdec], htokens, hts, ha'⟩

/-- A `DEC1` in progress with the tokens of a buffer to come ends within them: each one that keeps DEC in RUN is a byte. -/
theorem State.Fair.dec1_ends (b : List Byte) {s : State} (hf : s.Fair) (hr : s.dec.st = .run)
    (ha : s.AcceptsFrom (bufferTokens b)) :
    ∃ k t, runFor k s = .next t ∧ t.dec.st ≠ .run ∧ (tokensIn k s).length ≤ b.length + 1 := by
  induction b generalizing s with
  | nil =>
    obtain ⟨k, t, hrun, ⟨hclear, hnone⟩ | ⟨x, ts, htok, hone, hts, -⟩⟩ := hf.exists_dec_step hr ha
    · exact ⟨k, t, hrun, by rw [hclear]; nofun, by rw [hnone]; exact Nat.zero_le _⟩
    · obtain ⟨rfl, -⟩ : Token.eob = x ∧ [] = ts := List.cons.inj hts
      exact ⟨k, t, hrun, by rw [htok]; nofun, by rw [hone]; exact le_rfl⟩
  | cons y b ih =>
    obtain ⟨k, t, hrun, ⟨hclear, hnone⟩ | ⟨x, ts, -, hone, hts, ha'⟩⟩ := hf.exists_dec_step hr ha
    · exact ⟨k, t, hrun, by rw [hclear]; nofun, by rw [hnone]; exact Nat.zero_le _⟩
    · obtain ⟨-, rfl⟩ : Token.byte y = x ∧ bufferTokens b = ts := List.cons.inj hts
      by_cases hrt : t.dec.st = .run
      · obtain ⟨n, u, hrest, hnr, hlen⟩ := ih (hf.of_runFor hrun) hrt ha'
        refine ⟨k + n, u, (runFor_add hrun n).trans hrest, hnr, ?_⟩
        rw [tokensIn_add hrun, hone, List.singleton_append, List.length_cons, List.length_cons]
        omega
      · exact ⟨k, t, hrun, hrt, by rw [hone]; simp⟩

/-- A fair run is at no state stuck: where a unit is in progress it takes a step later on. -/
theorem State.Fair.not_stuck {s : State} (hf : s.Fair) : ¬s.Stuck := by
  obtain ⟨hemit, hrun⟩ := hf 0 s rfl
  rintro (⟨he, hn⟩ | ⟨hr, hn⟩)
  · obtain ⟨m, u, hu, hc⟩ := hemit he
    cases hc.symm.trans (hn m u hu)
  · obtain ⟨m, u, hu, hc⟩ := hrun hr
    cases hc.symm.trans (hn m u hu)

/-- On the way from a state with ENC in EMIT to one without, ENC takes a step. -/
theorem exists_enc_stepsOn {s t : State} {k : Nat} (hrun : runFor k s = .next t) (hs : s.enc.st = .emit)
    (ht : t.enc.st ≠ .emit) : ∃ m u, runFor m s = .next u ∧ u.enc.stepsOn u.presents = true := by
  rcases runFor_until (P := fun _ u => u.enc.st = .emit) (C := fun u => u.enc.stepsOn u.presents = true) hs
    (fun _ u v he hC _ hstep => by rw [(step_keeps_enc hstep (Bool.eq_false_iff.2 hC)).1, he]) hrun with
    hemit | ⟨m, u, -, hu, -, hc⟩
  · exact absurd hemit ht
  · exact ⟨m, u, hu, hc⟩

/-- On the way from a state with DEC in RUN to one without, DEC takes a step. -/
theorem exists_dec_stepsOn {s t : State} {k : Nat} (hrun : runFor k s = .next t) (hs : s.dec.st = .run)
    (ht : t.dec.st ≠ .run) : ∃ m u, runFor m s = .next u ∧ u.dec.stepsOn u.presents = true := by
  rcases runFor_until (P := fun _ u => u.dec.st = .run) (C := fun u => u.dec.stepsOn u.presents = true) hs
    (fun _ u v hr hC _ hstep => by rw [step_keeps_dec hstep (Bool.eq_false_iff.2 hC), hr]) hrun with
    hr | ⟨m, u, -, hu, -, hc⟩
  · exact absurd hr ht
  · exact ⟨m, u, hu, hc⟩

/-- With the script exhausted and no procedure in progress nobody can go on. -/
theorem State.ScriptDone.quiet {s : State} (h : s.ScriptDone) : s.Quiet := by
  obtain ⟨hs, he, hd⟩ := h
  exact ⟨by rw [State.encMoves, he], by rw [State.decMoves, hd], by simp [hs]⟩

/-- From every state of a run that comes to an end the run comes to an end. -/
theorem State.RunEnded.reached_from {s t u : State} {k n : Nat} (hend : t.RunEnded) (ht : runFor k s = .next t)
    (hu : runFor n s = .next u) : ∃ m v, runFor m u = .next v ∧ v.RunEnded := by
  rcases Nat.le_total n k with hle | hle
  · obtain ⟨m, rfl⟩ := Nat.exists_eq_add_of_le hle
    exact ⟨m, t, by rw [← runFor_add hu, ht], hend⟩
  · obtain ⟨m, rfl⟩ := Nat.exists_eq_add_of_le hle
    have ⟨hdone, _⟩ := hend
    rw [runFor_add ht, hdone.quiet.runFor] at hu
    cases hu
    exact ⟨0, _, rfl, hend⟩

/-- Settles O58: both bounds by the form and the buffer that remain (`State.Fair.enc1_ends`, `State.Fair.dec1_ends`); and a
unit in progress at a state of a run that comes to an end has to take a step before. -/
theorem fairHostsFinishOperations : Obligations.FairHostsFinishOperations := by
  unfold Obligations.FairHostsFinishOperations
  refine ⟨fun s hf he => ?_, fun s b hf hr ha => hf.dec1_ends b hr ha,
    fun s hf k t hrun => (hf.of_runFor hrun).not_stuck, fun s k t hrun hend n u hu => ?_⟩
  · obtain ⟨k, t, hrun, hidle, hlen⟩ := hf.enc1_ends s.enc.rem (by rw [← he])
    have h10 := (enc1_length_bounds s.enc.rem).2
    exact ⟨k, t, hrun, hidle, by omega⟩
  · obtain ⟨m, v, hv, -, henc, hdec⟩ := hend.reached_from hrun hu
    exact ⟨fun he => exists_enc_stepsOn hv he henc, fun hr => exists_dec_stepsOn hv hr hdec⟩

end Sys2Proof.Machine
end

section
/-!
Ends of a run, stuck states and procedures that wait (`70_reset_and_hazards.md` R234, R236, R241, `30_encoding.md` R92).
-/
namespace Sys2Proof.Machine

/-! ### Where nobody can go on -/

/-- A procedure of ENCM that cannot go on has no handshake completed. -/
theorem EncJob.not_steps_of_waiting {j : EncJob} {e : Enc} (h : j.canMove e = false) (d : Dec) :
    e.stepsOn j.lines = false ∧ d.stepsOn j.lines = false := by
  cases hb : j.busy
  · cases hl : j.left with
    | nil => simp [EncJob.canMove, hb, hl] at h
    | cons v vs =>
      have hr : e.ready = false := by simpa [EncJob.canMove, hb, hl] using h
      simp [EncJob.lines, Enc.stepsOn, Dec.stepsOn, hb, hl, hr]
  · have hv : e.outValid = false := by simpa [EncJob.canMove, hb] using h
    simp [EncJob.lines, Enc.stepsOn, Dec.stepsOn, hb, hv]

/-- A procedure of DECM or DECN that cannot go on has no handshake completed. -/
theorem DecJob.not_steps_of_waiting {j : DecJob} {d : Dec} (h : j.canMove d = false) (e : Enc) :
    e.stepsOn (j.lines d) = false ∧ d.stepsOn (j.lines d) = false := by
  cases hb : j.busy
  · simp only [DecJob.canMove, hb, Bool.false_eq_true, if_false, Bool.or_eq_false_iff, Bool.not_eq_false'] at h
    obtain ⟨hw, hr⟩ := h
    simp [DecJob.lines, Enc.stepsOn, Dec.stepsOn, hb, hw, hr]
  · simp only [DecJob.canMove, hb, if_true, Bool.or_eq_false_iff, Dec.inReady_false_iff] at h
    obtain ⟨-, hr⟩ := h
    rw [DecJob.lines_of_not_run hb hr]
    exact ⟨rfl, rfl⟩

/-- Where nobody can go on no unit takes a step. -/
theorem State.Quiet.not_steps {s : State} (h : s.Quiet) :
    s.enc.stepsOn s.presents = false ∧ s.dec.stepsOn s.presents = false := by
  obtain ⟨henc, hdec, hline⟩ := h
  cases ht : s.turn with
  | wait => exact not_steps_of_nothing (by rw [State.presents, ht])
  | enc =>
    cases hp : s.encProc with
    | none => exact not_steps_of_nothing (by simp only [State.presents, ht, hp])
    | some j =>
      simp only [State.encMoves, hp] at henc
      simpa only [State.presents, ht, hp] using j.not_steps_of_waiting henc s.dec
  | dec =>
    cases hp : s.decProc with
    | none => exact not_steps_of_nothing (by simp only [State.presents, ht, hp])
    | some j =>
      simp only [State.decMoves, hp] at hdec
      simpa only [State.presents, ht, hp] using j.not_steps_of_waiting hdec s.enc
  | line =>
    cases hs : s.script with
    | nil => exact not_steps_of_nothing (by simp only [State.presents, ht, hs])
    | cons line rest =>
      refine not_steps_of_nothing ?_
      simp only [State.presents, ht, hs, State.scriptLines, hline line rest hs, Bool.false_eq_true, if_false]

/-- A unit in progress where nobody can go on is stuck. -/
theorem State.Quiet.stuck {s : State} (h : s.Quiet) (hs : s.enc.st = .emit ∨ s.dec.st = .run) : s.Stuck := by
  have hnever : ∀ k t, Machine.runFor k s = .next t →
      t.enc.stepsOn t.presents = false ∧ t.dec.stepsOn t.presents = false := by
    intro k t hrun
    rw [h.runFor] at hrun
    cases hrun
    exact (h.with_turns _).not_steps
  rcases hs with he | hr
  · exact .inl ⟨he, fun k t hrun => (hnever k t hrun).1⟩
  · exact .inr ⟨hr, fun k t hrun => (hnever k t hrun).2⟩

/-! ### Stuck states -/

/-- A stuck state is no end: a unit is in progress. -/
theorem State.Stuck.not_runEnded {s : State} (h : s.Stuck) : ¬s.RunEnded := by
  rintro ⟨-, he, hr⟩
  rcases h with ⟨hs, -⟩ | ⟨hs, -⟩
  · exact he hs
  · exact hr hs

/-- A stuck unit stays in progress, since it could leave that by a step only, and no later step is its own. -/
theorem State.Stuck.of_runFor {s t : State} {k : Nat} (h : s.Stuck) (hrun : runFor k s = .next t) : t.Stuck := by
  rcases h with ⟨hs, hn⟩ | ⟨hs, hn⟩
  · refine .inl ⟨?_, fun m u hu => hn (k + m) u ((runFor_add hrun m).trans hu)⟩
    by_contra he
    obtain ⟨m, u, hu, hc⟩ := exists_enc_stepsOn hrun hs he
    cases hc.symm.trans (hn m u hu)
  · refine .inr ⟨?_, fun m u hu => hn (k + m) u ((runFor_add hrun m).trans hu)⟩
    by_contra hr
    obtain ⟨m, u, hu, hc⟩ := exists_dec_stepsOn hrun hs hr
    cases hc.symm.trans (hn m u hu)

/-- Settles O52: a script that is done is quiet, and a quiet state is stuck where a unit is in progress
(`State.Quiet.stuck`). -/
theorem stuckStatesAreNoEnds : Obligations.StuckStatesAreNoEnds := by
  unfold Obligations.StuckStatesAreNoEnds
  refine ⟨fun s hdone => ⟨hdone.quiet.runFor, ?_, fun ⟨hend, hstuck⟩ => hstuck.not_runEnded hend⟩,
    fun s hq hs => hq.stuck hs, fun s hs k t hrun => ⟨hs.of_runFor hrun, (hs.of_runFor hrun).not_runEnded⟩⟩
  by_cases hs : s.enc.st = .emit ∨ s.dec.st = .run
  · exact .inr (hdone.quiet.stuck hs)
  · exact .inl ⟨hdone, not_or.1 hs⟩

/-! ### Procedures that wait -/

/-- A step while a procedure on DEC cannot go on, at which DEC is not reset or cleared, changes nothing of the two. -/
theorem step_keeps_waiting_decProc {s t : State} {j : DecJob} (h : step s = .next t) (hp : s.decProc = some j)
    (hm : j.canMove s.dec = false) (hc : ¬(s.presents.rst = true ∨ s.presents.decClr = true)) :
    t.dec = s.dec ∧ t.decProc = some j := by
  rcases step_beside_decProc h hp with ⟨-, rfl⟩ | ⟨-, ⟨hr, -⟩ | ⟨hr, -⟩ | ⟨hdec, hproc, -⟩⟩
  · rw [stepDecJob_of_waiting (s := { s with turns := s.turns.tail }) hm]
    exact ⟨rfl, hp⟩
  · exact absurd (.inl hr) hc
  · exact absurd (.inr hr) hc
  · exact ⟨hdec, hproc.trans hp⟩

/-- A step while a procedure on ENC cannot go on, at which ENC is not reset or cleared, changes nothing of the two. -/
theorem step_keeps_waiting_encProc {s t : State} {j : EncJob} (h : step s = .next t) (hp : s.encProc = some j)
    (hm : j.canMove s.enc = false) (hc : ¬(s.presents.rst = true ∨ s.presents.encClr = true)) :
    t.enc = s.enc ∧ t.encProc = some j := by
  rcases step_beside_encProc h hp with ⟨-, rfl⟩ | ⟨-, ⟨hr, -⟩ | ⟨hr, -⟩ | ⟨henc, hproc⟩⟩
  · rw [stepEncJob_of_waiting (s := { s with turns := s.turns.tail }) hm]
    exact ⟨rfl, hp⟩
  · exact absurd (.inl hr) hc
  · exact absurd (.inr hr) hc
  · exact ⟨henc, hproc.trans hp⟩

/-- Settles O57: a procedure that waits for its unit cannot go on (`canMove_eq_false`), so each step keeps it and its unit as
long as nothing resets or clears the unit. -/
theorem waitingProceduresWaitUntilCleared : Obligations.WaitingProceduresWaitUntilCleared := by
  unfold Obligations.WaitingProceduresWaitUntilCleared
  refine ⟨fun s j hp hb hw hs k t hrun => ?_, fun s j hp hb hl hs k t hrun => ?_⟩
  · have hm : j.canMove s.dec = false := DecJob.canMove_eq_false (.inl ⟨hb, hw, hs⟩)
    rcases runFor_until (P := fun _ u => u.dec = s.dec ∧ u.decProc = some j)
      (C := fun u => u.presents.rst = true ∨ u.presents.decClr = true) ⟨rfl, hp⟩
      (fun _ u v ⟨hdec, hp⟩ hC _ hstep => by
        rw [← hdec] at hm ⊢
        exact step_keeps_waiting_decProc hstep hp hm hC) hrun with hkept | ⟨m, u, hlt, hu, -, hC⟩
    · exact .inl hkept
    · exact .inr ⟨m, u, hlt, hu, hC⟩
  · have hm : j.canMove s.enc = false := EncJob.canMove_eq_false (.inl ⟨hb, hl, hs⟩)
    rcases runFor_until (P := fun _ u => u.enc = s.enc ∧ u.encProc = some j)
      (C := fun u => u.presents.rst = true ∨ u.presents.encClr = true) ⟨rfl, hp⟩
      (fun _ u v ⟨henc, hp⟩ hC _ hstep => by
        rw [← henc] at hm ⊢
        exact step_keeps_waiting_encProc hstep hp hm hC) hrun with hkept | ⟨m, u, hlt, hu, -, hC⟩
    · exact .inl hkept
    · exact .inr ⟨m, u, hlt, hu, hC⟩

end Sys2Proof.Machine
end

section
/-!
Reset (`70_reset_and_hazards.md` R220, R221), and what a reset or a clear does to a batch operation in progress
(`43_system.md` R180, R181, `93_implementation_defined.md` U7).
-/
namespace Sys2Proof.Machine

/-- The machine after an edge with `rst`, whatever else is on the lines. -/
theorem edge_of_rst {l : InLines} (hr : l.rst = true) (s : State) : s.edge l = { s with
    enc := Enc.reset, dec := Dec.reset, encProc := none, decProc := none, clrDue := false } := by
  simp [State.edge, Enc.edge, Dec.edge, hr]

/-- Settles O7, by `edge_of_rst`. -/
theorem resetEdgeOverridesEverything : Obligations.ResetEdgeOverridesEverything := by
  unfold Obligations.ResetEdgeOverridesEverything
  exact fun s l hr => ⟨⟨false, edge_of_rst hr s⟩, fun l' hr' => by rw [edge_of_rst hr' (s.edge l), edge_of_rst hr s]⟩

/-- What an edge leaves of a procedure on ENC. -/
theorem edge_encProc_of_some {s : State} {j : EncJob} (hp : s.encProc = some j) (l : InLines) : (s.edge l).encProc =
    if l.rst = true ∨ (l.encClr = true ∧ j.busy = true) then none else some j := by
  rw [State.edge_encProc, hp, afterEncClr_some]
  cases l.rst <;> cases l.encClr <;> simp

/-- What an edge leaves of a procedure on DEC. -/
theorem edge_decProc_of_some {s : State} {j : DecJob} (hp : s.decProc = some j) (l : InLines) : (s.edge l).decProc =
    if l.rst = true ∨ (l.decClr = true ∧ j.busy = true) then none else some j := by
  rw [State.edge_decProc, hp, afterDecClr_some]
  cases l.rst <;> cases l.decClr <;> simp

/-- Settles O59: a clear and an edge leave the results as they are, and there is none while a procedure is in progress. -/
theorem abandonedBatchOperationsHaveNoResult : Obligations.AbandonedBatchOperationsHaveNoResult := by
  unfold Obligations.AbandonedBatchOperationsHaveNoResult
  rintro s ⟨-, -, -, henc, hdec⟩
  refine ⟨fun j hp => ?_, fun j hp => ?_⟩
  · obtain ⟨-, hnone⟩ := henc j hp
    refine ⟨⟨s.decClear, rfl, hp⟩, ⟨s.encClear, rfl, ?_⟩, fun l => ?_⟩
    · rw [State.encClear_encProc, hp, afterEncClr_some]
      split <;> simp [hnone]
    · rw [edge_encProc_of_some hp]
      split <;> simp [hnone]
  · obtain ⟨-, hnone⟩ := hdec j hp
    refine ⟨⟨s.encClear, rfl, hp⟩, ⟨s.decClear, rfl, ?_⟩, fun l => ?_⟩
    · rw [State.decClear_decProc, hp, afterDecClr_some]
      split <;> simp [hnone]
    · rw [edge_decProc_of_some hp]
      split <;> simp [hnone]

end Sys2Proof.Machine
end
